-- ==== Sys2Proof/Word.lean ====
section
/-! DEFINITION. The word types of the i960 core. -/

namespace Sys2Proof

/-- A 32-bit value: a register, an address, an instruction word (R11, R12). -/
abbrev Word := BitVec 32

/-- A byte of memory, the smallest addressable unit (R80). -/
abbrev Byte := BitVec 8

/-- A 5-bit register field; value `i` names register `x[i]`: 0..15 are r0..r15, 16..31 are
g0..g15 (R30). -/
abbrev Reg := BitVec 5

/-- r0, the previous frame pointer PFP (R31). -/
abbrev Reg.pfp : Reg := 0

/-- r1, the stack pointer SP (R31). -/
abbrev Reg.sp : Reg := 1

/-- r2, the return instruction pointer RIP (R31). -/
abbrev Reg.rip : Reg := 2

/-- g14, the link register LP (R31). -/
abbrev Reg.lp : Reg := 30

/-- g15, the frame pointer FP (R31). -/
abbrev Reg.fp : Reg := 31

end Sys2Proof
end

