-- ==== Sys2Proof/Syntax.lean ====
section
/-! DEFINITION. The syntax: one constructor per row of the opcode table. Bits the spec ignores are no
part of it (log 9). -/

namespace Sys2Proof

/-- A source operand: a register, or the 5-bit literal 0..31 its mode bit selects (R134, R141). -/
inductive Src where
  | reg (r : Reg)
  | lit (v : BitVec 5)
deriving DecidableEq, Repr

/-- A MEM operand: the nine forms of the mode table of R152. `index` is scaled by `2^scale` (R151). -/
inductive MemOperand where
  /-- modes 0x0..0x3, MEMA `offset` -/
  | offset (off : BitVec 12)
  /-- modes 0x8..0xB, MEMA `offset(abase)` -/
  | baseOffset (base : Reg) (off : BitVec 12)
  /-- mode 0x4, MEMB `(abase)` -/
  | base (base : Reg)
  /-- mode 0x5, MEMB `disp(ip)`, 8 bytes -/
  | ipDisp (disp : Word)
  /-- mode 0x7, MEMB `(abase)[index*scale]` -/
  | baseIndex (base index : Reg) (scale : BitVec 3)
  /-- mode 0xC, MEMB `disp`, 8 bytes -/
  | disp (disp : Word)
  /-- mode 0xD, MEMB `disp(abase)`, 8 bytes -/
  | baseDisp (base : Reg) (disp : Word)
  /-- mode 0xE, MEMB `disp[index*scale]`, 8 bytes -/
  | indexDisp (index : Reg) (scale : BitVec 3) (disp : Word)
  /-- mode 0xF, MEMB `disp(abase)[index*scale]`, 8 bytes -/
  | baseIndexDisp (base index : Reg) (scale : BitVec 3) (disp : Word)
deriving DecidableEq, Repr

/-- The instructions: the 177 rows of the opcode table. -/
inductive Instr where
  -- CTRL format (41_ctrl.md). `disp` is the word count `w[23:2]` (R130).
  | b (disp : BitVec 22)
  | call (disp : BitVec 22)
  | ret
  | bal (disp : BitVec 22)
  | bno (disp : BitVec 22)
  | bg (disp : BitVec 22)
  | be (disp : BitVec 22)
  | bge (disp : BitVec 22)
  | bl (disp : BitVec 22)
  | bne (disp : BitVec 22)
  | ble (disp : BitVec 22)
  | bo (disp : BitVec 22)
  | faultno
  | faultg
  | faulte
  | faultge
  | faultl
  | faultne
  | faultle
  | faulto
  -- COBR format (42_cobr.md). `disp` is the word count `w[12:2]` (R133).
  | testno (dst : Reg)
  | testg (dst : Reg)
  | teste (dst : Reg)
  | testge (dst : Reg)
  | testl (dst : Reg)
  | testne (dst : Reg)
  | testle (dst : Reg)
  | testo (dst : Reg)
  | bbc (a : Src) (b : Reg) (disp : BitVec 11)
  | cmpobg (a : Src) (b : Reg) (disp : BitVec 11)
  | cmpobe (a : Src) (b : Reg) (disp : BitVec 11)
  | cmpobge (a : Src) (b : Reg) (disp : BitVec 11)
  | cmpobl (a : Src) (b : Reg) (disp : BitVec 11)
  | cmpobne (a : Src) (b : Reg) (disp : BitVec 11)
  | cmpoble (a : Src) (b : Reg) (disp : BitVec 11)
  | bbs (a : Src) (b : Reg) (disp : BitVec 11)
  | cmpibno (a : Src) (b : Reg) (disp : BitVec 11)
  | cmpibg (a : Src) (b : Reg) (disp : BitVec 11)
  | cmpibe (a : Src) (b : Reg) (disp : BitVec 11)
  | cmpibge (a : Src) (b : Reg) (disp : BitVec 11)
  | cmpibl (a : Src) (b : Reg) (disp : BitVec 11)
  | cmpibne (a : Src) (b : Reg) (disp : BitVec 11)
  | cmpible (a : Src) (b : Reg) (disp : BitVec 11)
  | cmpibo (a : Src) (b : Reg) (disp : BitVec 11)
  -- REG format (43 to 48). `a` and `b` are sources, `c` a register (R140, R141).
  | notbit (a b : Src) (c : Reg)
  | and (a b : Src) (c : Reg)
  | andnot (a b : Src) (c : Reg)
  | setbit (a b : Src) (c : Reg)
  | notand (a b : Src) (c : Reg)
  | filler585 (a b : Src) (c : Reg)
  | xor (a b : Src) (c : Reg)
  | or (a b : Src) (c : Reg)
  | nor (a b : Src) (c : Reg)
  | xnor (a b : Src) (c : Reg)
  | not (a : Src) (c : Reg)
  | ornot (a b : Src) (c : Reg)
  | clrbit (a b : Src) (c : Reg)
  | notor (a b : Src) (c : Reg)
  | nand (a b : Src) (c : Reg)
  | alterbit (a b : Src) (c : Reg)
  | addo (a b : Src) (c : Reg)
  | addi (a b : Src) (c : Reg)
  | subo (a b : Src) (c : Reg)
  | subi (a b : Src) (c : Reg)
  | cmpob (a b : Src)
  | cmpib (a b : Src)
  | cmpos (a b : Src)
  | cmpis (a b : Src)
  | shro (a b : Src) (c : Reg)
  | shrdi (a b : Src) (c : Reg)
  | shri (a b : Src) (c : Reg)
  | shlo (a b : Src) (c : Reg)
  | rotate (a b : Src) (c : Reg)
  | shli (a b : Src) (c : Reg)
  | cmpo (a b : Src)
  | cmpi (a b : Src)
  | concmpo (a b : Src)
  | concmpi (a b : Src)
  | cmpinco (a b : Src) (c : Reg)
  | cmpinci (a b : Src) (c : Reg)
  | cmpdeco (a b : Src) (c : Reg)
  | cmpdeci (a b : Src) (c : Reg)
  | scanbyte (a b : Src)
  | bswap (a : Src) (c : Reg)
  | chkbit (a b : Src)
  | addc (a b : Src) (c : Reg)
  | subc (a b : Src) (c : Reg)
  | intdis
  | inten
  | mov (a : Src) (c : Reg)
  | eshro (a b : Src) (c : Reg)
  | movl (a : Src) (c : Reg)
  | movt (a : Src) (c : Reg)
  | movq (a : Src) (c : Reg)
  | atmod (a b : Src) (c : Reg)
  | atadd (a b : Src) (c : Reg)
  | spanbit (a : Src) (c : Reg)
  | scanbit (a : Src) (c : Reg)
  | modac (a b : Src) (c : Reg)
  | modify (a b : Src) (c : Reg)
  | extract (a b : Src) (c : Reg)
  | modtc (a b : Src) (c : Reg)
  | modpc (a b : Src) (c : Reg)
  | calls (a : Src)
  | mark
  | fmark
  | flushreg
  | syncf
  | emul (a b : Src) (c : Reg)
  | ediv (a b : Src) (c : Reg)
  | mulo (a b : Src) (c : Reg)
  | remo (a b : Src) (c : Reg)
  | divo (a b : Src) (c : Reg)
  | muli (a b : Src) (c : Reg)
  | remi (a b : Src) (c : Reg)
  | modi (a b : Src) (c : Reg)
  | divi (a b : Src) (c : Reg)
  | addono (a b : Src) (c : Reg)
  | addino (a b : Src) (c : Reg)
  | subono (a b : Src) (c : Reg)
  | subino (a b : Src) (c : Reg)
  | selno (a b : Src) (c : Reg)
  | addog (a b : Src) (c : Reg)
  | addig (a b : Src) (c : Reg)
  | subog (a b : Src) (c : Reg)
  | subig (a b : Src) (c : Reg)
  | selg (a b : Src) (c : Reg)
  | addoe (a b : Src) (c : Reg)
  | addie (a b : Src) (c : Reg)
  | suboe (a b : Src) (c : Reg)
  | subie (a b : Src) (c : Reg)
  | sele (a b : Src) (c : Reg)
  | addoge (a b : Src) (c : Reg)
  | addige (a b : Src) (c : Reg)
  | suboge (a b : Src) (c : Reg)
  | subige (a b : Src) (c : Reg)
  | selge (a b : Src) (c : Reg)
  | addol (a b : Src) (c : Reg)
  | addil (a b : Src) (c : Reg)
  | subol (a b : Src) (c : Reg)
  | subil (a b : Src) (c : Reg)
  | sell (a b : Src) (c : Reg)
  | addone (a b : Src) (c : Reg)
  | addine (a b : Src) (c : Reg)
  | subone (a b : Src) (c : Reg)
  | subine (a b : Src) (c : Reg)
  | selne (a b : Src) (c : Reg)
  | addole (a b : Src) (c : Reg)
  | addile (a b : Src) (c : Reg)
  | subole (a b : Src) (c : Reg)
  | subile (a b : Src) (c : Reg)
  | selle (a b : Src) (c : Reg)
  | addoo (a b : Src) (c : Reg)
  | addio (a b : Src) (c : Reg)
  | suboo (a b : Src) (c : Reg)
  | subio (a b : Src) (c : Reg)
  | selo (a b : Src) (c : Reg)
  -- MEM format (49_mem.md), operands in the order of R192.
  | ldob (mem : MemOperand) (c : Reg)
  | stob (c : Reg) (mem : MemOperand)
  | bx (mem : MemOperand)
  | balx (mem : MemOperand) (c : Reg)
  | callx (mem : MemOperand)
  | ldos (mem : MemOperand) (c : Reg)
  | stos (c : Reg) (mem : MemOperand)
  | lda (mem : MemOperand) (c : Reg)
  | ld (mem : MemOperand) (c : Reg)
  | st (c : Reg) (mem : MemOperand)
  | ldl (mem : MemOperand) (c : Reg)
  | stl (c : Reg) (mem : MemOperand)
  | ldt (mem : MemOperand) (c : Reg)
  | stt (c : Reg) (mem : MemOperand)
  | ldq (mem : MemOperand) (c : Reg)
  | stq (c : Reg) (mem : MemOperand)
  | ldib (mem : MemOperand) (c : Reg)
  | stib (c : Reg) (mem : MemOperand)
  | ldis (mem : MemOperand) (c : Reg)
  | stis (c : Reg) (mem : MemOperand)
deriving DecidableEq, Repr

end Sys2Proof
end

