-- ==== Sys2Proof/Decode.lean ====
section
/-! DEFINITION. Decoding (30_encoding.md): total on any bytes, rejecting by name; then the encoder,
written from the same tables. -/

namespace Sys2Proof

/-- Why bytes are no instruction. All but `truncated` are the invalid opcodes of R170 and R172;
`truncated` is a byte list that ends inside an instruction, which a fetch never gives. -/
inductive Reject where
  /-- CTRL `op` 0x00..0x07 or 0x0C..0x0F (R280) -/
  | ctrlReservedOpcode
  /-- CTRL `w[0] = 1` (R130, R280) -/
  | ctrlReservedBit
  /-- COBR `op` 0x28..0x2F (R340) -/
  | cobrReservedOpcode
  /-- COBR `w[0] = 1`, the S2 bit (R133, R340) -/
  | cobrReservedBit
  /-- a REG index in the FPU ranges 0x680..0x6EF and 0x78B..0x79F (R172) -/
  | fpu
  /-- any other REG index R162 does not name (R170) -/
  | regUnnamed
  /-- MEM mode 6 (R152, R740) -/
  | memMode6
  /-- a MEM `op` R163 does not name (R740) -/
  | memUnnamed
  /-- fewer bytes than the instruction has -/
  | truncated
deriving DecidableEq, Repr

/-! ### Fields -/

/-- The major opcode `w[31:24]` (R120). -/
def opField (w : Word) : BitVec 8 := w.extractLsb' 24 8

/-- `w[23:19]`: `fc` of REG and MEM, `fa` of COBR (R133, R140, R150). -/
def field19 (w : Word) : Reg := w.extractLsb' 19 5

/-- `w[18:14]`: `fb` (R133, R140, R150). -/
def field14 (w : Word) : Reg := w.extractLsb' 14 5

/-- `w[4:0]`: `fa` of REG, the index register of MEMB (R140, R151). -/
def field0 (w : Word) : Reg := w.extractLsb' 0 5

/-- `w[23:2]`: the CTRL displacement in words (R130). -/
def ctrlDispField (w : Word) : BitVec 22 := w.extractLsb' 2 22

/-- `w[12:2]`: the COBR displacement in words (R133). -/
def cobrDispField (w : Word) : BitVec 11 := w.extractLsb' 2 11

/-- `w[10:7]`: the low four bits of the REG index (R140). -/
def regFunField (w : Word) : BitVec 4 := w.extractLsb' 7 4

/-- The 12-bit REG index, from bits 31:24 and 10:7 (R140). -/
def regIndex (w : Word) : BitVec 12 := opField w ++ regFunField w

/-- `w[13:10]`: the MEM mode (R150). -/
def modeField (w : Word) : BitVec 4 := w.extractLsb' 10 4

/-- `w[11:0]`: the MEMA offset (R151). -/
def offsetField (w : Word) : BitVec 12 := w.extractLsb' 0 12

/-- `w[9:7]`: the MEMB scale code (R151). -/
def scaleField (w : Word) : BitVec 3 := w.extractLsb' 7 3

/-- A 5-bit source field under its mode bit: 1 selects the literal (R134, R141). -/
def srcOf (isLit : Bool) (f : BitVec 5) : Src := if isLit then .lit f else .reg f

/-- COBR operand `a`: `fa` under M1 = `w[13]` (R133). -/
def cobrA (w : Word) : Src := srcOf (w.getLsbD 13) (field19 w)

/-- REG operand `a`: `fa` under M1 = `w[11]` (R140). -/
def regA (w : Word) : Src := srcOf (w.getLsbD 11) (field0 w)

/-- REG operand `b`: `fb` under M2 = `w[12]` (R140). -/
def regB (w : Word) : Src := srcOf (w.getLsbD 12) (field14 w)

/-! ### Length -/

/-- The mode table `F[16]` of R152: bit 3 has a displacement word, bit 2 uses a displacement, bit 1
the base, bit 0 the index. -/
def modeFlags (mode : BitVec 4) : BitVec 4 :=
  match mode with
  | 0x0#4 | 0x1#4 | 0x2#4 | 0x3#4 => 0x4#4
  | 0x4#4 => 0x2#4
  | 0x5#4 => 0x8#4
  | 0x6#4 => 0x0#4
  | 0x7#4 => 0x3#4
  | 0x8#4 | 0x9#4 | 0xA#4 | 0xB#4 => 0x6#4
  | 0xC#4 => 0xC#4
  | 0xD#4 => 0xE#4
  | 0xE#4 => 0xD#4
  | _ => 0xF#4

/-- The length in bytes, from the first word: 8 for a MEM form whose mode has a displacement word,
else 4 (R125). -/
def instrLength (w : Word) : Nat :=
  if 0x80 ≤ (opField w).toNat && (modeFlags (modeField w)).getLsbD 3 then 8 else 4

/-! ### Decoding -/

/-- The CTRL format (R130, R131, R160). -/
def decodeCtrl (w : Word) : Except Reject Instr :=
  if w.getLsbD 0 then .error .ctrlReservedBit
  else
    match opField w with
    | 0x08#8 => .ok (.b (ctrlDispField w))
    | 0x09#8 => .ok (.call (ctrlDispField w))
    | 0x0A#8 => .ok .ret
    | 0x0B#8 => .ok (.bal (ctrlDispField w))
    | 0x10#8 => .ok (.bno (ctrlDispField w))
    | 0x11#8 => .ok (.bg (ctrlDispField w))
    | 0x12#8 => .ok (.be (ctrlDispField w))
    | 0x13#8 => .ok (.bge (ctrlDispField w))
    | 0x14#8 => .ok (.bl (ctrlDispField w))
    | 0x15#8 => .ok (.bne (ctrlDispField w))
    | 0x16#8 => .ok (.ble (ctrlDispField w))
    | 0x17#8 => .ok (.bo (ctrlDispField w))
    | 0x18#8 => .ok .faultno
    | 0x19#8 => .ok .faultg
    | 0x1A#8 => .ok .faulte
    | 0x1B#8 => .ok .faultge
    | 0x1C#8 => .ok .faultl
    | 0x1D#8 => .ok .faultne
    | 0x1E#8 => .ok .faultle
    | 0x1F#8 => .ok .faulto
    | _ => .error .ctrlReservedOpcode

/-- The COBR format (R133, R135, R161). -/
def decodeCobr (w : Word) : Except Reject Instr :=
  if w.getLsbD 0 then .error .cobrReservedBit
  else
    match opField w with
    | 0x20#8 => .ok (.testno (field19 w))
    | 0x21#8 => .ok (.testg (field19 w))
    | 0x22#8 => .ok (.teste (field19 w))
    | 0x23#8 => .ok (.testge (field19 w))
    | 0x24#8 => .ok (.testl (field19 w))
    | 0x25#8 => .ok (.testne (field19 w))
    | 0x26#8 => .ok (.testle (field19 w))
    | 0x27#8 => .ok (.testo (field19 w))
    | 0x30#8 => .ok (.bbc (cobrA w) (field14 w) (cobrDispField w))
    | 0x31#8 => .ok (.cmpobg (cobrA w) (field14 w) (cobrDispField w))
    | 0x32#8 => .ok (.cmpobe (cobrA w) (field14 w) (cobrDispField w))
    | 0x33#8 => .ok (.cmpobge (cobrA w) (field14 w) (cobrDispField w))
    | 0x34#8 => .ok (.cmpobl (cobrA w) (field14 w) (cobrDispField w))
    | 0x35#8 => .ok (.cmpobne (cobrA w) (field14 w) (cobrDispField w))
    | 0x36#8 => .ok (.cmpoble (cobrA w) (field14 w) (cobrDispField w))
    | 0x37#8 => .ok (.bbs (cobrA w) (field14 w) (cobrDispField w))
    | 0x38#8 => .ok (.cmpibno (cobrA w) (field14 w) (cobrDispField w))
    | 0x39#8 => .ok (.cmpibg (cobrA w) (field14 w) (cobrDispField w))
    | 0x3A#8 => .ok (.cmpibe (cobrA w) (field14 w) (cobrDispField w))
    | 0x3B#8 => .ok (.cmpibge (cobrA w) (field14 w) (cobrDispField w))
    | 0x3C#8 => .ok (.cmpibl (cobrA w) (field14 w) (cobrDispField w))
    | 0x3D#8 => .ok (.cmpibne (cobrA w) (field14 w) (cobrDispField w))
    | 0x3E#8 => .ok (.cmpible (cobrA w) (field14 w) (cobrDispField w))
    | 0x3F#8 => .ok (.cmpibo (cobrA w) (field14 w) (cobrDispField w))
    | _ => .error .cobrReservedOpcode

/-- A REG index that names no instruction: in an FPU range (R172), or plainly unnamed (R170). -/
def regReject (index : BitVec 12) : Reject :=
  if (0x680 ≤ index.toNat && index.toNat ≤ 0x6EF) || (0x78B ≤ index.toNat && index.toNat ≤ 0x79F)
  then .fpu else .regUnnamed

/-- The REG format (R140, R162, R171, R620). -/
def decodeReg (w : Word) : Except Reject Instr :=
  match regIndex w with
  | 0x580#12 => .ok (.notbit (regA w) (regB w) (field19 w))
  | 0x581#12 => .ok (.and (regA w) (regB w) (field19 w))
  | 0x582#12 => .ok (.andnot (regA w) (regB w) (field19 w))
  | 0x583#12 => .ok (.setbit (regA w) (regB w) (field19 w))
  | 0x584#12 => .ok (.notand (regA w) (regB w) (field19 w))
  | 0x585#12 => .ok (.filler585 (regA w) (regB w) (field19 w))
  | 0x586#12 => .ok (.xor (regA w) (regB w) (field19 w))
  | 0x587#12 => .ok (.or (regA w) (regB w) (field19 w))
  | 0x588#12 => .ok (.nor (regA w) (regB w) (field19 w))
  | 0x589#12 => .ok (.xnor (regA w) (regB w) (field19 w))
  | 0x58A#12 => .ok (.not (regA w) (field19 w))
  | 0x58B#12 => .ok (.ornot (regA w) (regB w) (field19 w))
  | 0x58C#12 => .ok (.clrbit (regA w) (regB w) (field19 w))
  | 0x58D#12 => .ok (.notor (regA w) (regB w) (field19 w))
  | 0x58E#12 => .ok (.nand (regA w) (regB w) (field19 w))
  | 0x58F#12 => .ok (.alterbit (regA w) (regB w) (field19 w))
  | 0x590#12 => .ok (.addo (regA w) (regB w) (field19 w))
  | 0x591#12 => .ok (.addi (regA w) (regB w) (field19 w))
  | 0x592#12 => .ok (.subo (regA w) (regB w) (field19 w))
  | 0x593#12 => .ok (.subi (regA w) (regB w) (field19 w))
  | 0x594#12 => .ok (.cmpob (regA w) (regB w))
  | 0x595#12 => .ok (.cmpib (regA w) (regB w))
  | 0x596#12 => .ok (.cmpos (regA w) (regB w))
  | 0x597#12 => .ok (.cmpis (regA w) (regB w))
  | 0x598#12 => .ok (.shro (regA w) (regB w) (field19 w))
  | 0x59A#12 => .ok (.shrdi (regA w) (regB w) (field19 w))
  | 0x59B#12 => .ok (.shri (regA w) (regB w) (field19 w))
  | 0x59C#12 => .ok (.shlo (regA w) (regB w) (field19 w))
  | 0x59D#12 => .ok (.rotate (regA w) (regB w) (field19 w))
  | 0x59E#12 => .ok (.shli (regA w) (regB w) (field19 w))
  | 0x5A0#12 => .ok (.cmpo (regA w) (regB w))
  | 0x5A1#12 => .ok (.cmpi (regA w) (regB w))
  | 0x5A2#12 => .ok (.concmpo (regA w) (regB w))
  | 0x5A3#12 => .ok (.concmpi (regA w) (regB w))
  | 0x5A4#12 => .ok (.cmpinco (regA w) (regB w) (field19 w))
  | 0x5A5#12 => .ok (.cmpinci (regA w) (regB w) (field19 w))
  | 0x5A6#12 => .ok (.cmpdeco (regA w) (regB w) (field19 w))
  | 0x5A7#12 => .ok (.cmpdeci (regA w) (regB w) (field19 w))
  | 0x5AC#12 => .ok (.scanbyte (regA w) (regB w))
  | 0x5AD#12 => .ok (.bswap (regA w) (field19 w))
  | 0x5AE#12 => .ok (.chkbit (regA w) (regB w))
  | 0x5B0#12 => .ok (.addc (regA w) (regB w) (field19 w))
  | 0x5B2#12 => .ok (.subc (regA w) (regB w) (field19 w))
  | 0x5B4#12 => .ok .intdis
  | 0x5B5#12 => .ok .inten
  | 0x5CC#12 => .ok (.mov (regA w) (field19 w))
  | 0x5D8#12 => .ok (.eshro (regA w) (regB w) (field19 w))
  | 0x5DC#12 => .ok (.movl (regA w) (field19 w))
  | 0x5EC#12 => .ok (.movt (regA w) (field19 w))
  | 0x5FC#12 => .ok (.movq (regA w) (field19 w))
  | 0x610#12 => .ok (.atmod (regA w) (regB w) (field19 w))
  | 0x612#12 => .ok (.atadd (regA w) (regB w) (field19 w))
  | 0x640#12 => .ok (.spanbit (regA w) (field19 w))
  | 0x641#12 => .ok (.scanbit (regA w) (field19 w))
  | 0x645#12 => .ok (.modac (regA w) (regB w) (field19 w))
  | 0x650#12 => .ok (.modify (regA w) (regB w) (field19 w))
  | 0x651#12 => .ok (.extract (regA w) (regB w) (field19 w))
  | 0x654#12 => .ok (.modtc (regA w) (regB w) (field19 w))
  | 0x655#12 => .ok (.modpc (regA w) (regB w) (field19 w))
  | 0x660#12 => .ok (.calls (regA w))
  | 0x66B#12 => .ok .mark
  | 0x66C#12 => .ok .fmark
  | 0x66D#12 => .ok .flushreg
  | 0x66F#12 => .ok .syncf
  | 0x670#12 => .ok (.emul (regA w) (regB w) (field19 w))
  | 0x671#12 => .ok (.ediv (regA w) (regB w) (field19 w))
  | 0x701#12 => .ok (.mulo (regA w) (regB w) (field19 w))
  | 0x708#12 => .ok (.remo (regA w) (regB w) (field19 w))
  | 0x70B#12 => .ok (.divo (regA w) (regB w) (field19 w))
  | 0x741#12 => .ok (.muli (regA w) (regB w) (field19 w))
  | 0x748#12 => .ok (.remi (regA w) (regB w) (field19 w))
  | 0x749#12 => .ok (.modi (regA w) (regB w) (field19 w))
  | 0x74B#12 => .ok (.divi (regA w) (regB w) (field19 w))
  | 0x780#12 => .ok (.addono (regA w) (regB w) (field19 w))
  | 0x781#12 => .ok (.addino (regA w) (regB w) (field19 w))
  | 0x782#12 => .ok (.subono (regA w) (regB w) (field19 w))
  | 0x783#12 => .ok (.subino (regA w) (regB w) (field19 w))
  | 0x784#12 => .ok (.selno (regA w) (regB w) (field19 w))
  | 0x790#12 => .ok (.addog (regA w) (regB w) (field19 w))
  | 0x791#12 => .ok (.addig (regA w) (regB w) (field19 w))
  | 0x792#12 => .ok (.subog (regA w) (regB w) (field19 w))
  | 0x793#12 => .ok (.subig (regA w) (regB w) (field19 w))
  | 0x794#12 => .ok (.selg (regA w) (regB w) (field19 w))
  | 0x7A0#12 => .ok (.addoe (regA w) (regB w) (field19 w))
  | 0x7A1#12 => .ok (.addie (regA w) (regB w) (field19 w))
  | 0x7A2#12 => .ok (.suboe (regA w) (regB w) (field19 w))
  | 0x7A3#12 => .ok (.subie (regA w) (regB w) (field19 w))
  | 0x7A4#12 => .ok (.sele (regA w) (regB w) (field19 w))
  | 0x7B0#12 => .ok (.addoge (regA w) (regB w) (field19 w))
  | 0x7B1#12 => .ok (.addige (regA w) (regB w) (field19 w))
  | 0x7B2#12 => .ok (.suboge (regA w) (regB w) (field19 w))
  | 0x7B3#12 => .ok (.subige (regA w) (regB w) (field19 w))
  | 0x7B4#12 => .ok (.selge (regA w) (regB w) (field19 w))
  | 0x7C0#12 => .ok (.addol (regA w) (regB w) (field19 w))
  | 0x7C1#12 => .ok (.addil (regA w) (regB w) (field19 w))
  | 0x7C2#12 => .ok (.subol (regA w) (regB w) (field19 w))
  | 0x7C3#12 => .ok (.subil (regA w) (regB w) (field19 w))
  | 0x7C4#12 => .ok (.sell (regA w) (regB w) (field19 w))
  | 0x7D0#12 => .ok (.addone (regA w) (regB w) (field19 w))
  | 0x7D1#12 => .ok (.addine (regA w) (regB w) (field19 w))
  | 0x7D2#12 => .ok (.subone (regA w) (regB w) (field19 w))
  | 0x7D3#12 => .ok (.subine (regA w) (regB w) (field19 w))
  | 0x7D4#12 => .ok (.selne (regA w) (regB w) (field19 w))
  | 0x7E0#12 => .ok (.addole (regA w) (regB w) (field19 w))
  | 0x7E1#12 => .ok (.addile (regA w) (regB w) (field19 w))
  | 0x7E2#12 => .ok (.subole (regA w) (regB w) (field19 w))
  | 0x7E3#12 => .ok (.subile (regA w) (regB w) (field19 w))
  | 0x7E4#12 => .ok (.selle (regA w) (regB w) (field19 w))
  | 0x7F0#12 => .ok (.addoo (regA w) (regB w) (field19 w))
  | 0x7F1#12 => .ok (.addio (regA w) (regB w) (field19 w))
  | 0x7F2#12 => .ok (.suboo (regA w) (regB w) (field19 w))
  | 0x7F3#12 => .ok (.subio (regA w) (regB w) (field19 w))
  | 0x7F4#12 => .ok (.selo (regA w) (regB w) (field19 w))
  | _ => .error (regReject (regIndex w))

/-- The MEM operand of a first word and its displacement word; mode 6 has none (R151, R152). -/
def decodeMemOperand (w disp : Word) : Option MemOperand :=
  match modeField w with
  | 0x0#4 | 0x1#4 | 0x2#4 | 0x3#4 => some (.offset (offsetField w))
  | 0x4#4 => some (.base (field14 w))
  | 0x5#4 => some (.ipDisp disp)
  | 0x6#4 => none
  | 0x7#4 => some (.baseIndex (field14 w) (field0 w) (scaleField w))
  | 0x8#4 | 0x9#4 | 0xA#4 | 0xB#4 => some (.baseOffset (field14 w) (offsetField w))
  | 0xC#4 => some (.disp disp)
  | 0xD#4 => some (.baseDisp (field14 w) disp)
  | 0xE#4 => some (.indexDisp (field0 w) (scaleField w) disp)
  | _ => some (.baseIndexDisp (field14 w) (field0 w) (scaleField w) disp)

/-- The MEM format (R150, R163, R700). -/
def decodeMem (w disp : Word) : Except Reject Instr :=
  match decodeMemOperand w disp with
  | none => .error .memMode6
  | some mem =>
    match opField w with
    | 0x80#8 => .ok (.ldob mem (field19 w))
    | 0x82#8 => .ok (.stob (field19 w) mem)
    | 0x84#8 => .ok (.bx mem)
    | 0x85#8 => .ok (.balx mem (field19 w))
    | 0x86#8 => .ok (.callx mem)
    | 0x88#8 => .ok (.ldos mem (field19 w))
    | 0x8A#8 => .ok (.stos (field19 w) mem)
    | 0x8C#8 => .ok (.lda mem (field19 w))
    | 0x90#8 => .ok (.ld mem (field19 w))
    | 0x92#8 => .ok (.st (field19 w) mem)
    | 0x98#8 => .ok (.ldl mem (field19 w))
    | 0x9A#8 => .ok (.stl (field19 w) mem)
    | 0xA0#8 => .ok (.ldt mem (field19 w))
    | 0xA2#8 => .ok (.stt (field19 w) mem)
    | 0xB0#8 => .ok (.ldq mem (field19 w))
    | 0xB2#8 => .ok (.stq (field19 w) mem)
    | 0xC0#8 => .ok (.ldib mem (field19 w))
    | 0xC2#8 => .ok (.stib (field19 w) mem)
    | 0xC8#8 => .ok (.ldis mem (field19 w))
    | 0xCA#8 => .ok (.stis (field19 w) mem)
    | _ => .error .memUnnamed

/-- The instruction of a first word and a displacement word (read only where the length is 8), by
format (R121). -/
def decodeWords (w disp : Word) : Except Reject Instr :=
  if (opField w).toNat < 0x20 then decodeCtrl w
  else if (opField w).toNat < 0x40 then decodeCobr w
  else if (opField w).toNat < 0x80 then decodeReg w
  else decodeMem w disp

/-- A little-endian word off the front of a byte list (R86). -/
def takeWord : List Byte → Option (Word × List Byte)
  | b0 :: b1 :: b2 :: b3 :: rest => some (b3 ++ b2 ++ b1 ++ b0, rest)
  | _ => none

/-- The instruction at the front of a byte list, with the bytes after it. The displacement word
follows the first (R125). -/
def decode (bytes : List Byte) : Except Reject (Instr × List Byte) :=
  match takeWord bytes with
  | none => .error .truncated
  | some (w, rest) =>
    if instrLength w = 8 then
      match takeWord rest with
      | none => .error .truncated
      | some (disp, rest) => (decodeWords w disp).map (·, rest)
    else (decodeWords w 0).map (·, rest)

/-! ### Encoding -/

/-- A CTRL word: T and the reserved bit 0 (R130). -/
def ctrlWord (op : BitVec 8) (disp : BitVec 22) : Word := op ++ disp ++ 0#2

/-- The 5-bit field of a source operand. -/
def Src.field : Src → BitVec 5
  | .reg r => r
  | .lit v => v

/-- The mode bit of a source operand: 1 for a literal. -/
def Src.modeBit : Src → BitVec 1
  | .reg _ => 0
  | .lit _ => 1

/-- A COBR word: T and S2 0 (R133). -/
def cobrWord (op : BitVec 8) (a : Src) (b : Reg) (disp : BitVec 11) : Word :=
  op ++ a.field ++ b ++ a.modeBit ++ disp ++ 0#2

/-- A REG word: M3, S2 and S1 0 (R140). -/
def regWord (index : BitVec 12) (a b : Src) (c : Reg) : Word :=
  index.extractLsb' 4 8 ++ c ++ b.field ++ 0#1 ++ b.modeBit ++ a.modeBit ++ index.extractLsb' 0 4 ++
    0#2 ++ a.field

/-- A MEMA word: `md` is bit 13, bit 12 is 0 (R151). -/
def memaWord (op : BitVec 8) (c base : Reg) (md : BitVec 1) (off : BitVec 12) : Word :=
  op ++ c ++ base ++ md ++ 0#1 ++ off

/-- A MEMB word: bits 6:5 are 0 (R151). -/
def membWord (op : BitVec 8) (c base : Reg) (mode : BitVec 4) (scale : BitVec 3) (index : Reg) :
    Word :=
  op ++ c ++ base ++ mode ++ scale ++ 0#2 ++ index

/-- The words of a MEM instruction: fields its mode does not use are 0 (R152, R153). -/
def memWords (op : BitVec 8) (c : Reg) : MemOperand → List Word
  | .offset off => [memaWord op c 0 0 off]
  | .baseOffset base off => [memaWord op c base 1 off]
  | .base base => [membWord op c base 0x4 0 0]
  | .ipDisp disp => [membWord op c 0 0x5 0 0, disp]
  | .baseIndex base index scale => [membWord op c base 0x7 scale index]
  | .disp disp => [membWord op c 0 0xC 0 0, disp]
  | .baseDisp base disp => [membWord op c base 0xD 0 0, disp]
  | .indexDisp index scale disp => [membWord op c 0 0xE scale index, disp]
  | .baseIndexDisp base index scale disp => [membWord op c base 0xF scale index, disp]

/-- The words of an instruction; a field it does not use is 0 (R160 to R163). -/
def encode : Instr → List Word
  | .b disp => [ctrlWord 0x08 disp]
  | .call disp => [ctrlWord 0x09 disp]
  | .ret => [ctrlWord 0x0A 0]
  | .bal disp => [ctrlWord 0x0B disp]
  | .bno disp => [ctrlWord 0x10 disp]
  | .bg disp => [ctrlWord 0x11 disp]
  | .be disp => [ctrlWord 0x12 disp]
  | .bge disp => [ctrlWord 0x13 disp]
  | .bl disp => [ctrlWord 0x14 disp]
  | .bne disp => [ctrlWord 0x15 disp]
  | .ble disp => [ctrlWord 0x16 disp]
  | .bo disp => [ctrlWord 0x17 disp]
  | .faultno => [ctrlWord 0x18 0]
  | .faultg => [ctrlWord 0x19 0]
  | .faulte => [ctrlWord 0x1A 0]
  | .faultge => [ctrlWord 0x1B 0]
  | .faultl => [ctrlWord 0x1C 0]
  | .faultne => [ctrlWord 0x1D 0]
  | .faultle => [ctrlWord 0x1E 0]
  | .faulto => [ctrlWord 0x1F 0]
  | .testno dst => [cobrWord 0x20 (.reg dst) 0 0]
  | .testg dst => [cobrWord 0x21 (.reg dst) 0 0]
  | .teste dst => [cobrWord 0x22 (.reg dst) 0 0]
  | .testge dst => [cobrWord 0x23 (.reg dst) 0 0]
  | .testl dst => [cobrWord 0x24 (.reg dst) 0 0]
  | .testne dst => [cobrWord 0x25 (.reg dst) 0 0]
  | .testle dst => [cobrWord 0x26 (.reg dst) 0 0]
  | .testo dst => [cobrWord 0x27 (.reg dst) 0 0]
  | .bbc a b disp => [cobrWord 0x30 a b disp]
  | .cmpobg a b disp => [cobrWord 0x31 a b disp]
  | .cmpobe a b disp => [cobrWord 0x32 a b disp]
  | .cmpobge a b disp => [cobrWord 0x33 a b disp]
  | .cmpobl a b disp => [cobrWord 0x34 a b disp]
  | .cmpobne a b disp => [cobrWord 0x35 a b disp]
  | .cmpoble a b disp => [cobrWord 0x36 a b disp]
  | .bbs a b disp => [cobrWord 0x37 a b disp]
  | .cmpibno a b disp => [cobrWord 0x38 a b disp]
  | .cmpibg a b disp => [cobrWord 0x39 a b disp]
  | .cmpibe a b disp => [cobrWord 0x3A a b disp]
  | .cmpibge a b disp => [cobrWord 0x3B a b disp]
  | .cmpibl a b disp => [cobrWord 0x3C a b disp]
  | .cmpibne a b disp => [cobrWord 0x3D a b disp]
  | .cmpible a b disp => [cobrWord 0x3E a b disp]
  | .cmpibo a b disp => [cobrWord 0x3F a b disp]
  | .notbit a b c => [regWord 0x580 a b c]
  | .and a b c => [regWord 0x581 a b c]
  | .andnot a b c => [regWord 0x582 a b c]
  | .setbit a b c => [regWord 0x583 a b c]
  | .notand a b c => [regWord 0x584 a b c]
  | .filler585 a b c => [regWord 0x585 a b c]
  | .xor a b c => [regWord 0x586 a b c]
  | .or a b c => [regWord 0x587 a b c]
  | .nor a b c => [regWord 0x588 a b c]
  | .xnor a b c => [regWord 0x589 a b c]
  | .not a c => [regWord 0x58A a (.reg 0) c]
  | .ornot a b c => [regWord 0x58B a b c]
  | .clrbit a b c => [regWord 0x58C a b c]
  | .notor a b c => [regWord 0x58D a b c]
  | .nand a b c => [regWord 0x58E a b c]
  | .alterbit a b c => [regWord 0x58F a b c]
  | .addo a b c => [regWord 0x590 a b c]
  | .addi a b c => [regWord 0x591 a b c]
  | .subo a b c => [regWord 0x592 a b c]
  | .subi a b c => [regWord 0x593 a b c]
  | .cmpob a b => [regWord 0x594 a b 0]
  | .cmpib a b => [regWord 0x595 a b 0]
  | .cmpos a b => [regWord 0x596 a b 0]
  | .cmpis a b => [regWord 0x597 a b 0]
  | .shro a b c => [regWord 0x598 a b c]
  | .shrdi a b c => [regWord 0x59A a b c]
  | .shri a b c => [regWord 0x59B a b c]
  | .shlo a b c => [regWord 0x59C a b c]
  | .rotate a b c => [regWord 0x59D a b c]
  | .shli a b c => [regWord 0x59E a b c]
  | .cmpo a b => [regWord 0x5A0 a b 0]
  | .cmpi a b => [regWord 0x5A1 a b 0]
  | .concmpo a b => [regWord 0x5A2 a b 0]
  | .concmpi a b => [regWord 0x5A3 a b 0]
  | .cmpinco a b c => [regWord 0x5A4 a b c]
  | .cmpinci a b c => [regWord 0x5A5 a b c]
  | .cmpdeco a b c => [regWord 0x5A6 a b c]
  | .cmpdeci a b c => [regWord 0x5A7 a b c]
  | .scanbyte a b => [regWord 0x5AC a b 0]
  | .bswap a c => [regWord 0x5AD a (.reg 0) c]
  | .chkbit a b => [regWord 0x5AE a b 0]
  | .addc a b c => [regWord 0x5B0 a b c]
  | .subc a b c => [regWord 0x5B2 a b c]
  | .intdis => [regWord 0x5B4 (.reg 0) (.reg 0) 0]
  | .inten => [regWord 0x5B5 (.reg 0) (.reg 0) 0]
  | .mov a c => [regWord 0x5CC a (.reg 0) c]
  | .eshro a b c => [regWord 0x5D8 a b c]
  | .movl a c => [regWord 0x5DC a (.reg 0) c]
  | .movt a c => [regWord 0x5EC a (.reg 0) c]
  | .movq a c => [regWord 0x5FC a (.reg 0) c]
  | .atmod a b c => [regWord 0x610 a b c]
  | .atadd a b c => [regWord 0x612 a b c]
  | .spanbit a c => [regWord 0x640 a (.reg 0) c]
  | .scanbit a c => [regWord 0x641 a (.reg 0) c]
  | .modac a b c => [regWord 0x645 a b c]
  | .modify a b c => [regWord 0x650 a b c]
  | .extract a b c => [regWord 0x651 a b c]
  | .modtc a b c => [regWord 0x654 a b c]
  | .modpc a b c => [regWord 0x655 a b c]
  | .calls a => [regWord 0x660 a (.reg 0) 0]
  | .mark => [regWord 0x66B (.reg 0) (.reg 0) 0]
  | .fmark => [regWord 0x66C (.reg 0) (.reg 0) 0]
  | .flushreg => [regWord 0x66D (.reg 0) (.reg 0) 0]
  | .syncf => [regWord 0x66F (.reg 0) (.reg 0) 0]
  | .emul a b c => [regWord 0x670 a b c]
  | .ediv a b c => [regWord 0x671 a b c]
  | .mulo a b c => [regWord 0x701 a b c]
  | .remo a b c => [regWord 0x708 a b c]
  | .divo a b c => [regWord 0x70B a b c]
  | .muli a b c => [regWord 0x741 a b c]
  | .remi a b c => [regWord 0x748 a b c]
  | .modi a b c => [regWord 0x749 a b c]
  | .divi a b c => [regWord 0x74B a b c]
  | .addono a b c => [regWord 0x780 a b c]
  | .addino a b c => [regWord 0x781 a b c]
  | .subono a b c => [regWord 0x782 a b c]
  | .subino a b c => [regWord 0x783 a b c]
  | .selno a b c => [regWord 0x784 a b c]
  | .addog a b c => [regWord 0x790 a b c]
  | .addig a b c => [regWord 0x791 a b c]
  | .subog a b c => [regWord 0x792 a b c]
  | .subig a b c => [regWord 0x793 a b c]
  | .selg a b c => [regWord 0x794 a b c]
  | .addoe a b c => [regWord 0x7A0 a b c]
  | .addie a b c => [regWord 0x7A1 a b c]
  | .suboe a b c => [regWord 0x7A2 a b c]
  | .subie a b c => [regWord 0x7A3 a b c]
  | .sele a b c => [regWord 0x7A4 a b c]
  | .addoge a b c => [regWord 0x7B0 a b c]
  | .addige a b c => [regWord 0x7B1 a b c]
  | .suboge a b c => [regWord 0x7B2 a b c]
  | .subige a b c => [regWord 0x7B3 a b c]
  | .selge a b c => [regWord 0x7B4 a b c]
  | .addol a b c => [regWord 0x7C0 a b c]
  | .addil a b c => [regWord 0x7C1 a b c]
  | .subol a b c => [regWord 0x7C2 a b c]
  | .subil a b c => [regWord 0x7C3 a b c]
  | .sell a b c => [regWord 0x7C4 a b c]
  | .addone a b c => [regWord 0x7D0 a b c]
  | .addine a b c => [regWord 0x7D1 a b c]
  | .subone a b c => [regWord 0x7D2 a b c]
  | .subine a b c => [regWord 0x7D3 a b c]
  | .selne a b c => [regWord 0x7D4 a b c]
  | .addole a b c => [regWord 0x7E0 a b c]
  | .addile a b c => [regWord 0x7E1 a b c]
  | .subole a b c => [regWord 0x7E2 a b c]
  | .subile a b c => [regWord 0x7E3 a b c]
  | .selle a b c => [regWord 0x7E4 a b c]
  | .addoo a b c => [regWord 0x7F0 a b c]
  | .addio a b c => [regWord 0x7F1 a b c]
  | .suboo a b c => [regWord 0x7F2 a b c]
  | .subio a b c => [regWord 0x7F3 a b c]
  | .selo a b c => [regWord 0x7F4 a b c]
  | .ldob mem c => memWords 0x80 c mem
  | .stob c mem => memWords 0x82 c mem
  | .bx mem => memWords 0x84 0 mem
  | .balx mem c => memWords 0x85 c mem
  | .callx mem => memWords 0x86 0 mem
  | .ldos mem c => memWords 0x88 c mem
  | .stos c mem => memWords 0x8A c mem
  | .lda mem c => memWords 0x8C c mem
  | .ld mem c => memWords 0x90 c mem
  | .st c mem => memWords 0x92 c mem
  | .ldl mem c => memWords 0x98 c mem
  | .stl c mem => memWords 0x9A c mem
  | .ldt mem c => memWords 0xA0 c mem
  | .stt c mem => memWords 0xA2 c mem
  | .ldq mem c => memWords 0xB0 c mem
  | .stq c mem => memWords 0xB2 c mem
  | .ldib mem c => memWords 0xC0 c mem
  | .stib c mem => memWords 0xC2 c mem
  | .ldis mem c => memWords 0xC8 c mem
  | .stis c mem => memWords 0xCA c mem

/-- The four bytes of a word, the least significant first (R86). -/
def wordBytes (w : Word) : List Byte :=
  [w.extractLsb' 0 8, w.extractLsb' 8 8, w.extractLsb' 16 8, w.extractLsb' 24 8]

/-- The bytes of an instruction in memory order. -/
def encodeBytes (i : Instr) : List Byte := (encode i).flatMap wordBytes

/-! ### The opcode table's numbering -/

/-- The eight bytes, the longest instruction, of the low `nbits` bits of `w`: bit 0 is the least
significant of the first word, the bits above `nbits` are 0. -/
def tableBytes (nbits w : Nat) : List Byte :=
  let v := BitVec.ofNat 64 (w % 2 ^ nbits)
  wordBytes (v.extractLsb' 0 32) ++ wordBytes (v.extractLsb' 32 32)

/-- The instruction the decoder reads from `nbits` bits numbered as the opcode table numbers them. -/
def decodeTableWord (nbits w : Nat) : Option Instr :=
  match decode (tableBytes nbits w) with
  | .ok (i, _) => some i
  | .error _ => none

end Sys2Proof
end

