-- ==== Sys2Proof/Machine/Alu.lean ====
section
/-! DEFINITION. The bit and arithmetic primitives of i960_alu (40_primitives.md section 1): pure
functions over words. -/

namespace Sys2Proof.Machine

/-! ### Bits -/

/-- R200: bit `pos mod 32` of `x`. -/
def bitSelect (x pos : Word) : Bool := x.getLsbD (pos.toNat % 32)

/-- R201: the word whose one set bit is `pos mod 32`. -/
def bitMask (pos : Word) : Word := 1#32 <<< (pos.toNat % 32)

/-- R202: the low `count` bits of `x >> (pos mod 32)`, all of them for a count of 32 or more. -/
def extractBits (x pos count : Word) : Word :=
  let v := x >>> (pos.toNat % 32)
  if 32 ≤ count.toNat then v else v &&& (1#32 <<< count.toNat - 1#32)

/-- R203: the bits of `new` where `mask` is 1, of `old` elsewhere. -/
def modifyBits (old new mask : Word) : Word := (old &&& ~~~mask) ||| (new &&& mask)

/-- R366: bit `pos mod 32` of `x` set or cleared. -/
def alterBit (x pos : Word) (value : Bool) : Word :=
  if value then x ||| bitMask pos else x &&& ~~~(bitMask pos)

/-- R550: the index of the most significant 1 bit of a non-zero word. -/
def msbIndex (v : Word) : Word := BitVec.ofNat 32 v.toNat.log2

/-- R471: the bytes in the opposite order. -/
def byteSwap (v : Word) : Word :=
  v.extractLsb' 0 8 ++ v.extractLsb' 8 8 ++ v.extractLsb' 16 8 ++ v.extractLsb' 24 8

/-- R470: some byte of `x` equals the byte of `y` in the same place. -/
def anyByteEqual (x y : Word) : Bool :=
  [0, 8, 16, 24].any fun k => x.extractLsb' k 8 == y.extractLsb' k 8

/-! ### Narrow values -/

/-- R12, R209: the low 8 bits, zero-extended. -/
def zext8 (v : Word) : Word := (v.extractLsb' 0 8).setWidth 32

/-- R12, R209: the low 16 bits, zero-extended. -/
def zext16 (v : Word) : Word := (v.extractLsb' 0 16).setWidth 32

/-- R12, R209: the low 8 bits, sign-extended. -/
def sext8 (v : Word) : Word := (v.extractLsb' 0 8).signExtend 32

/-- R12, R209: the low 16 bits, sign-extended. -/
def sext16 (v : Word) : Word := (v.extractLsb' 0 16).signExtend 32

/-- R209: an integer fits in a signed field of `n` bits. -/
def fitsSigned (n : Nat) (i : Int) : Bool := -(2 ^ (n - 1)) ≤ i && i ≤ 2 ^ (n - 1) - 1

/-! ### Carry chain and overflow -/

/-- R206: the exact sum with carry in, as result and carry out. -/
def adc (x y : Word) (cin : Bool) : Word × Bool :=
  let sum := x.toNat + y.toNat + cin.toNat
  (BitVec.ofNat 32 sum, 2 ^ 32 ≤ sum)

/-- R206: `x - y - 1 + cin`; the carry out 1 means no borrow. -/
def sbb (x y : Word) (cin : Bool) : Word × Bool := adc x (~~~y) cin

/-- R207: the exact signed sum is outside the signed 32-bit range. -/
def addOverflows (a b : Word) (cin : Bool) : Bool :=
  !fitsSigned 32 (a.toInt + b.toInt + cin.toNat)

/-- R207: the exact signed `b - a - 1 + cin` is outside the signed 32-bit range. -/
def subOverflows (b a : Word) (cin : Bool) : Bool :=
  !fitsSigned 32 (b.toInt - a.toInt - 1 + cin.toNat)

/-! ### Shifts (R410); `n` is the whole 32-bit count -/

/-- R411: 0 for a count of 32 or more. -/
def shiftRightOrdinal (b n : Word) : Word := if 32 ≤ n.toNat then 0 else b >>> n.toNat

/-- R414: 0 for a count of 32 or more. -/
def shiftLeftOrdinal (b n : Word) : Word := if 32 ≤ n.toNat then 0 else b <<< n.toNat

/-- R413: arithmetic, the count saturating at 31. -/
def shiftRightInteger (b n : Word) : Word := b.sshiftRight (min n.toNat 31)

/-- R412: as `shiftRightInteger`, rounded toward zero. -/
def shiftRightDividing (b n : Word) : Word :=
  let k := min n.toNat 31
  let r := b.sshiftRight k
  if b.msb && (b &&& (1#32 <<< k - 1#32)) != 0 then r + 1 else r

/-- R415: rotation left by `n mod 32`. -/
def rotateLeft (b n : Word) : Word := (b <<< (n.toNat % 32)) ||| (b >>> ((-n).toNat % 32))

/-- R416: the exact signed product `b * 2^n` is outside the range; for a count of 32 or more, `b` is
not 0. -/
def shiftLeftOverflows (b n : Word) : Bool :=
  if 32 ≤ n.toNat then b != 0 else !fitsSigned 32 (b.toInt * 2 ^ n.toNat)

/-- R505: the low 32 bits of the 64-bit `hi:lo` shifted right by `n mod 32`. -/
def extendedShiftRight (hi lo n : Word) : Word :=
  ((hi ++ lo : BitVec 64) >>> (n.toNat % 32)).extractLsb' 0 32

/-! ### Multiply and divide (R600); `a` is the divisor or multiplier -/

/-- R601: the exact unsigned product, low word first. -/
def wideProduct (a b : Word) : Word × Word :=
  let p := BitVec.ofNat 64 (a.toNat * b.toNat)
  (p.extractLsb' 0 32, p.extractLsb' 32 32)

/-- R606: the exact signed product. -/
def signedProduct (a b : Word) : Int := a.toInt * b.toInt

/-- R609: the quotient truncated toward zero. -/
def divideInteger (b a : Word) : Word := BitVec.ofInt 32 (b.toInt.tdiv a.toInt)

/-- R607: the remainder with the sign of the dividend. -/
def remainderInteger (b a : Word) : Word :=
  BitVec.ofInt 32 (b.toInt - b.toInt.tdiv a.toInt * a.toInt)

/-- R608: the remainder, moved by the divisor where it is not 0 and the signs differ. -/
def moduloInteger (b a : Word) : Word :=
  let r := b.toInt - b.toInt.tdiv a.toInt * a.toInt
  BitVec.ofInt 32 (if r ≠ 0 ∧ (a.toInt < 0) ≠ (b.toInt < 0) then r + a.toInt else r)

end Sys2Proof.Machine
end

