-- ==== Sys2Proof/Machine/Flags.lean ====
section
/-! DEFINITION. The condition-code encoder (40_primitives.md section 3) and the fields of AC and PC
(R40, R50): pure functions over the control words. -/

namespace Sys2Proof.Machine

/-! ### Fields -/

/-- CC, AC[2:0] (R40). -/
def ccOf (ac : Word) : BitVec 3 := ac.extractLsb' 0 3

/-- R41, R225: `v` in AC[2:0], AC[31:3] preserved. -/
def withCc (ac : Word) (v : BitVec 3) : Word := ac.extractLsb' 3 29 ++ v

/-- AC[1], the carry and interpolation bit (R42). -/
def carryOf (ac : Word) : Bool := ac.getLsbD 1

/-- OF, AC[8] (R40). -/
def ofOf (ac : Word) : Bool := ac.getLsbD 8

/-- R762: `AC[8] <- 1`, the other bits unchanged. -/
def withOf (ac : Word) : Word := ac ||| 0x100#32

/-- OM, AC[12] (R40). -/
def omOf (ac : Word) : Bool := ac.getLsbD 12

/-- NIF, AC[15]; stored, with no effect (R40, R768). -/
def nifOf (ac : Word) : Bool := ac.getLsbD 15

/-- TE, PC[0]; stored, with no effect (R50). -/
def teOf (pc : Word) : Bool := pc.getLsbD 0

/-- EM, PC[1]: 1 is supervisor mode (R50, R51). -/
def emOf (pc : Word) : Bool := pc.getLsbD 1

/-- TFP, PC[10]; stored, with no effect (R50). -/
def tfpOf (pc : Word) : Bool := pc.getLsbD 10

/-- S, PC[13]; stored, with no effect (R50). -/
def stateOf (pc : Word) : Bool := pc.getLsbD 13

/-- PRI, PC[20:16]; stored, with no effect (R50, R780). -/
def priOf (pc : Word) : BitVec 5 := pc.extractLsb' 16 5

/-! ### Conditions -/

/-- The conditions of R132. -/
inductive Cond where
  | no | g | e | ge | l | ne | le | o
deriving DecidableEq, Repr

/-- The condition field `w[26:24]` (R132). -/
def Cond.mask : Cond → BitVec 3
  | .no => 0
  | .g => 1
  | .e => 2
  | .ge => 3
  | .l => 4
  | .ne => 5
  | .le => 6
  | .o => 7

/-- `check_cond` (R230). -/
def checkCond (c : Cond) (ac : Word) : Bool :=
  if c.mask = 0 then ccOf ac == 0 else (c.mask &&& ccOf ac) != 0

/-! ### Compares -/

/-- Signedness of a compare (R226). -/
inductive Signedness where
  | ordinal | integer
deriving DecidableEq, Repr

/-- `a < b` in the signedness asked for. -/
def lessThan : Signedness → Word → Word → Bool
  | .ordinal, a, b => a.toNat < b.toNat
  | .integer, a, b => a.toInt < b.toInt

/-- `cmp` (R226): 4 less, 2 equal, 1 greater. -/
def cmpCode (sg : Signedness) (a b : Word) : BitVec 3 :=
  if lessThan sg a b then 4 else if a = b then 2 else 1

/-- `concmp` (R227): the new AC. -/
def concmpAc (sg : Signedness) (a b ac : Word) : Word :=
  if (ccOf ac).getLsbD 2 then ac else withCc ac (if lessThan sg b a then 1 else 2)

/-- The 2-or-0 code of `bbc`, `bbs`, `chkbit`, `scanbyte`, `scanbit` and `spanbit` (R41). -/
def matchCode (found : Bool) : BitVec 3 := if found then 2 else 0

/-- R240: carry out in bit 1, signed overflow in bit 0, bit 2 clear. -/
def carryCode (co v : Bool) : BitVec 3 := 0#1 ++ BitVec.ofBool co ++ BitVec.ofBool v

end Sys2Proof.Machine
end

