-- ==== Sys2Proof/Config.lean ====
section
/-! DEFINITION. The implementation parameters the spec leaves open (R11): their values, and the
environment's supervisor-call handler. -/

namespace Sys2Proof.Config

/-- R356, D11: the neighbour the REG filler 0x585 behaves as. -/
inductive Filler585 where
  /-- as 0x584 `notand` (the spec's default) -/
  | notand
  /-- as 0x586 `xor` -/
  | xor
deriving DecidableEq, Repr

/-- R90, D3: what a misaligned data access does. -/
inductive MisalignedData where
  /-- the bytes are composed, with no fault (the spec's default) -/
  | compose
  /-- the step is refused -/
  | refuse
deriving DecidableEq, Repr

/-- R762, D26: whether an instruction that raises integer overflow has committed its effect. -/
inductive OverflowWrite where
  /-- the effect is committed before the fault (the spec's default) -/
  | written
  /-- nothing is committed -/
  | unchanged
deriving DecidableEq, Repr

/-- The open parameters of R11 that an instruction reads. A step never changes them (log 3). -/
structure Params where
  filler585 : Filler585
  misalignedData : MisalignedData
  overflowWrite : OverflowWrite
deriving DecidableEq, Repr

/-- The values R356, R90 and R762 name as the spec's defaults. -/
def Params.default : Params :=
  { filler585 := .notand, misalignedData := .compose, overflowWrite := .written }

/-- The state the core owns (R62): `x[0..31]`, `ip`, AC, PC, TC. -/
structure CoreState where
  x : Vector Word 32
  ip : Word
  ac : Word
  pc : Word
  tc : Word
deriving DecidableEq, Repr, Inhabited

/-- What the environment's `calls(vector)` procedure answers (R6, R575): the core's next state with
the bytes it stored, in order, or a fault with its code and no effect before it (log 5). -/
inductive CallsAnswer where
  | resume (core : CoreState) (stores : List (Word × Byte))
  | fault (code : Word)
deriving DecidableEq, Repr, Inhabited

/-- The parameter `CallsHandler` of R11 (D9): a function of the vector and the state at the
hand-off. Nothing is known of it, so a claim holds for every handler (log 5). -/
opaque callsHandler (vector : Word) (core : CoreState) (mem : List Host.Cell) : CallsAnswer

end Sys2Proof.Config
end

