-- ==== Sys2Proof/Machine/State.lean ====
section
/-! DEFINITION. The machine's state as plain data, the ways a step can stop, and the state after
reset. -/

namespace Sys2Proof.Machine

open Sys2Proof.Config

/-- Memory: (address, byte) pairs in one canonical form, `Memory.wf` of Machine/Ops.lean (R80, R82,
log 2). -/
abbrev Memory := List Host.Cell

/-- The state of the machine: the core's registers (R62), the memory lock (R60), the memory image
(R82), the parameters of R11 and the supervisor-call port (R6). -/
structure State where
  /-- the general registers r0..r15, g0..g15 (R30) -/
  x : Vector Word 32
  /-- the instruction pointer (R35) -/
  ip : Word
  /-- the arithmetic controls AC (R40) -/
  ac : Word
  /-- the process controls PC (R50) -/
  pc : Word
  /-- the trace controls TC (R55) -/
  tc : Word
  /-- the memory lock is held (R60); between instructions only another master can hold it (log 8) -/
  lockHeld : Bool
  /-- the memory image, the interrupt-control register among it (R82, R95) -/
  mem : Memory
  /-- the parameter `halt_ip` (R805) -/
  haltIp : Option Word
  /-- the parameters `Filler585`, `MisalignedData` and `OverflowWrite` (R11, log 3) -/
  params : Params
  /-- the model's own field: the vector `calls` handed to the environment, which has not answered
  yet (R20, log 4) -/
  callsPort : Option Word
deriving DecidableEq, Repr

/-- The five architectural faults (R760); their codes are `FaultType.code`. -/
inductive FaultType where
  | invalidOpcode
  | integerOverflow
  | divisionByZero
  | constraintRange
  | typeMismatch
deriving DecidableEq, Repr

/-- Why the machine stops with a fault. -/
inductive Fault where
  /-- An instruction reported an architectural fault (R765): which one, `pre_ip`, and the state it
  leaves (R761, R766). Raised by `step` for an invalid opcode and by the meanings for the other four.
  Safe: the spec ends the run here (D7). -/
  | raised (fault : FaultType) (preIp : Word) (after : State)
  /-- The environment's `CallsHandler` answered a fault with this code (R575, R806). Raised by `step`
  on a pending call. Safe: the spec ends the run here. That `after` is the state of the hand-off with
  the port empty is the model's choice, unsafe (log 5). -/
  | callsHandler (code : Word) (after : State)
  /-- An atomic instruction while another master holds the memory lock: no step is enabled (R103).
  Raised by `atmod` and `atadd`. Safe: the hardware waits where the model stops (log 8). -/
  | stuckOnLock
deriving DecidableEq, Repr

/-- Why a step has no meaning: the closed list of R20. All are safe: they err towards unprovable. -/
inductive Refusal where
  /-- Raised by `exec` for an instruction that has no meaning yet. Safe. -/
  | notModelled (mnemonic : String)
  /-- Raised by `step` for `ip[1:0] != 0` at a fetch (R93, D4). Safe. -/
  | unalignedFetch
  /-- Raised by `ret` for `PFP[2:0] != 0` (R257, D8). Safe. -/
  | retVariant
  /-- Raised where a register cannot name a group (R142, D17). Safe. -/
  | unalignedGroup
  /-- Raised where a literal stands for a register group (R142, D17). Safe. -/
  | literalGroup
  /-- Raised by `ediv` for a quotient of 2^32 or more (R602, D23). Safe. -/
  | edivQuotientOverflow
  /-- Raised by a misaligned data access when `MisalignedData = refuse` (R90, D3). Safe. -/
  | misalignedData
deriving DecidableEq, Repr

/-- The outcome of a step of this machine (R20; `Calls` is a next state, log 4). -/
abbrev Result := Host.Outcome State Fault Refusal

/-- R800: the state a run starts from. The parameter `LaunchState` gives every register; the host
gives the memory image, `halt_ip` and the other parameters; the lock is not held. -/
def State.launch (l : CoreState) (mem : Memory) (haltIp : Option Word) (params : Params) : State :=
  { x := l.x, ip := l.ip, ac := l.ac, pc := l.pc, tc := l.tc, lockHeld := false, mem := mem,
    haltIp := haltIp, params := params, callsPort := none }

/-- The state after reset. The lock is as R65 says and the parameters are the spec's defaults; the
spec gives no other value, and every register is 0 (log 1), memory reads 0 (log 2), and the run has
no end address (log 3). -/
def State.reset : State :=
  State.launch { x := Vector.replicate 32 0, ip := 0, ac := 0, pc := 0, tc := 0 } [] none
    Params.default

end Sys2Proof.Machine
end

