-- ==== Sys2Proof/Machine/Ops.lean ====
section
/-! DEFINITION. The named operations over memory and registers, raising a fault, the overflow policy,
call and return, the atomic sequence, the fetch and the environment's answer to `calls`. -/

namespace Sys2Proof.Machine

open Sys2Proof.Config

/-! ### Memory (20_memory.md) -/

/-- What an address no entry lists reads as (log 2). -/
def Memory.unlisted : Byte := 0

/-- The byte at an address. -/
def Memory.byteAt : Memory → Nat → Byte
  | [], _ => Memory.unlisted
  | (k, v) :: rest, a => if k = a then v else Memory.byteAt rest a

/-- A cell put before the first one of a higher address. -/
def Memory.insert : Memory → Nat → Byte → Memory
  | [], a, v => [(a, v)]
  | (k, w) :: rest, a, v =>
    if a < k then (a, v) :: (k, w) :: rest else (k, w) :: Memory.insert rest a v

/-- The memory with one byte written: no entry for it where it reads as an unlisted one. -/
def Memory.setByte (m : Memory) (a : Nat) (v : Byte) : Memory :=
  let rest := m.filter fun c => c.1 != a
  if v = Memory.unlisted then rest else Memory.insert rest a v

/-- The canonical form from an address up: addresses strictly rising, below 2^32, no byte that an
unlisted address reads as. -/
def Memory.wfFrom (lo : Nat) : Memory → Bool
  | [] => true
  | (a, v) :: rest =>
    lo ≤ a && a < 2 ^ 32 && v != Memory.unlisted && Memory.wfFrom (a + 1) rest

/-- The canonical form of memory. -/
def Memory.wf (m : Memory) : Bool := Memory.wfFrom 0 m

/-- The width of one memory access (R4). -/
inductive Width where
  | byte | short | word
deriving DecidableEq, Repr

/-- The width in bytes. -/
def Width.bytes : Width → Nat
  | .byte => 1
  | .short => 2
  | .word => 4

/-- `MemRead` (R82): little-endian, zero-extended; byte addresses wrap modulo 2^32. -/
def Memory.load (m : Memory) (addr : Word) : Width → Word
  | .byte => (m.byteAt addr.toNat).setWidth 32
  | .short => (m.byteAt (addr + 1).toNat ++ m.byteAt addr.toNat).setWidth 32
  | .word =>
    m.byteAt (addr + 3).toNat ++ m.byteAt (addr + 2).toNat ++ m.byteAt (addr + 1).toNat ++
      m.byteAt addr.toNat

/-- Bytes written at rising addresses, which wrap modulo 2^32. -/
def Memory.storeBytes (m : Memory) (addr : Word) : List Byte → Memory
  | [] => m
  | v :: rest => Memory.storeBytes (m.setByte addr.toNat v) (addr + 1) rest

/-- `MemWrite` (R82): the low bytes of the value, little-endian. -/
def Memory.store (m : Memory) (addr : Word) (n : Width) (v : Word) : Memory :=
  m.storeBytes addr ((wordBytes v).take n.bytes)

/-- Bytes written one by one where their addresses say. -/
def Memory.storeCells (m : Memory) : List (Word × Byte) → Memory
  | [] => m
  | (a, v) :: rest => Memory.storeCells (m.setByte a.toNat v) rest

/-- The interrupt-control register's address (R95). -/
def iconAddress : Word := 0xFF008510

/-- Bit 10 of the interrupt-control register, the global interrupt enable (R95). -/
def iconEnableBit : Word := 0x400

/-! ### Registers -/

/-- The byte at an address of the state's memory. -/
def State.byteAt (s : State) (addr : Word) : Byte := s.mem.byteAt addr.toNat

/-- `x[r]` (R30). No register is hard-wired (R32). -/
def State.reg (s : State) (r : Reg) : Word := s.x[r.toNat]'r.isLt

/-- `x[r] <- v`. -/
def State.setReg (s : State) (r : Reg) (v : Word) : State :=
  { s with x := s.x.set r.toNat v r.isLt }

/-- `ip <- v` (R251). -/
def State.setIp (s : State) (v : Word) : State := { s with ip := v }

/-- `AC <- v`. -/
def State.setAc (s : State) (v : Word) : State := { s with ac := v }

/-- `PC <- v`. -/
def State.setPc (s : State) (v : Word) : State := { s with pc := v }

/-- `TC <- v`. -/
def State.setTc (s : State) (v : Word) : State := { s with tc := v }

/-- The memory image replaced. -/
def State.setMem (s : State) (m : Memory) : State := { s with mem := m }

/-- `set_cc(v)` (R225). -/
def State.setCc (s : State) (v : BitVec 3) : State := s.setAc (withCc s.ac v)

/-- R126: `ip` past an instruction of `len` bytes, modulo 2^32. -/
def State.advance (s : State) (len : Nat) : State := s.setIp (s.ip + BitVec.ofNat 32 len)

/-- The registers `x[r]`, `x[r+1]`, .. of a group of `n` (R142). -/
def State.regs (s : State) (r : Reg) : Nat → List Word
  | 0 => []
  | n + 1 => s.reg r :: State.regs s (r + 1) n

/-- Consecutive registers written in ascending order (R142). -/
def State.setRegs (s : State) (r : Reg) : List Word → State
  | [] => s
  | v :: rest => State.setRegs (s.setReg r v) (r + 1) rest

/-! ### Data accesses (R90, R94, R101) -/

/-- R90: the memory port refuses the access. -/
def State.portRefuses (s : State) (addr : Word) (n : Width) : Bool :=
  s.params.misalignedData == .refuse && addr.toNat % n.bytes != 0

/-- A data read. -/
def State.read (s : State) (addr : Word) (n : Width) : Except Refusal Word :=
  if s.portRefuses addr n then .error .misalignedData else .ok (s.mem.load addr n)

/-- A data write. -/
def State.write (s : State) (addr : Word) (n : Width) (v : Word) : Except Refusal State :=
  if s.portRefuses addr n then .error .misalignedData else .ok (s.setMem (s.mem.store addr n v))

/-- `n` words read at ascending addresses (R101). -/
def State.readWords (s : State) (addr : Word) : Nat → Except Refusal (List Word)
  | 0 => .ok []
  | n + 1 =>
    match s.read addr .word with
    | .error r => .error r
    | .ok v =>
      match State.readWords s (addr + 4) n with
      | .error r => .error r
      | .ok vs => .ok (v :: vs)

/-- Words written at ascending addresses (R101). -/
def State.writeWords (s : State) (addr : Word) : List Word → Except Refusal State
  | [] => .ok s
  | v :: rest =>
    match s.write addr .word v with
    | .error r => .error r
    | .ok t => State.writeWords t (addr + 4) rest

/-! ### Outcomes -/

/-- What follows an access that may be refused. -/
def orRefuse {α : Type} (e : Except Refusal α) (k : α → Result) : Result :=
  match e with
  | .ok v => k v
  | .error r => .refused r

/-- The fault codes: type in the high 16 bits, subtype in the low 16 (R760). -/
def FaultType.code : FaultType → Word
  | .invalidOpcode => 0x00020001
  | .integerOverflow => 0x00030001
  | .divisionByZero => 0x00030002
  | .constraintRange => 0x00050001
  | .typeMismatch => 0x000A0001

/-- Taking a fault (R765): the reporter is called and the instruction ends. Nothing is saved and no
mode changes (R770); the run ends in the state given (R766). -/
def raise (f : FaultType) (preIp : Word) (after : State) : Result := .fault (.raised f preIp after)

/-- The integer-overflow policy (R762) on the state after the fetch. -/
def overflowEvent (preIp : Word) (s : State) (effect : State → Except Refusal State) : Result :=
  if omOf s.ac then orRefuse (effect s) fun t => .next (t.setAc (withOf t.ac))
  else
    match s.params.overflowWrite with
    | .written => orRefuse (effect s) fun t => raise .integerOverflow preIp t
    | .unchanged => raise .integerOverflow preIp s

/-- The effect of an instruction that detected an overflow or did not (R763). -/
def commit (overflow : Bool) (preIp : Word) (s : State) (effect : State → Except Refusal State) :
    Result :=
  if overflow then overflowEvent preIp s effect else orRefuse (effect s) .next

/-- `require_supervisor` (R764): in user mode the type-mismatch fault, and nothing else. -/
def requireSupervisor (s after : State) (k : Result) : Result :=
  if emOf s.pc then k else raise .typeMismatch s.ip after

/-- Division by zero is raised before anything is written (R600). -/
def requireDivisor (divisor : Word) (s after : State) (k : Result) : Result :=
  if divisor = 0 then raise .divisionByZero s.ip after else k

/-! ### The memory lock (R100) -/

/-- `Lock()` on a lock that is free. -/
def State.lock (s : State) : State := { s with lockHeld := true }

/-- `Unlock()`. -/
def State.unlock (s : State) : State := { s with lockHeld := false }

/-- The atomic sequence of R510 on the state after the fetch: the word at `addr` becomes `f` of it
under the lock, and the old word goes to `c`. The address is word-aligned, so the port never refuses
it. A lock that another master holds is never acquired (R103, log 8). -/
def atomicModify (addr : Word) (f : Word → Word) (c : Reg) (s : State) : Result :=
  if s.lockHeld then .fault .stuckOnLock
  else
    let locked := s.lock
    let old := locked.mem.load addr .word
    let written := locked.setMem (locked.mem.store addr .word (f old))
    .next (written.unlock.setReg c old)

/-! ### Call and return -/

/-- The frame alignment of R256: the next multiple of 64, modulo 2^32. -/
def nextFrame (sp : Word) : Word := (sp + 63) &&& ~~~63#32

/-- `call_proc` (R256) on the state after the fetch. -/
def callProc (target : Word) (s : State) : Result :=
  let newFp := nextFrame (s.reg .sp)
  let saved := s.setReg .rip s.ip
  let oldFp := saved.reg .fp
  orRefuse (saved.writeWords oldFp (saved.regs 0 16)) fun t =>
    .next ((((t.setReg .pfp oldFp).setReg .fp newFp).setReg .sp (newFp + 64)).setIp target)

/-- `ret_proc` (R257) on the state after the fetch. It is the only return (R772): AC, PC and TC are
not restored. -/
def retProc (s : State) : Result :=
  if (s.reg .pfp).extractLsb' 0 3 != 0 then .refused .retVariant
  else
    let newFp := s.reg .pfp &&& ~~~63#32
    let framed := s.setReg .fp newFp
    orRefuse (framed.readWords newFp 16) fun vs =>
      let t := framed.setRegs 0 vs
      .next (t.setIp (t.reg .rip))

/-! ### Fetch and the environment -/

/-- The bytes of the instruction at `ip`: its word, and where its length is 8 the displacement word
after it (R120, R125). -/
def State.fetchBytes (s : State) : List Byte :=
  let w := s.mem.load s.ip .word
  wordBytes w ++
    if instrLength w = 8 then wordBytes (s.mem.load (s.ip + 4) .word) else []

/-- The length of the instruction at `ip`, which an invalid opcode has too (R700, R740). -/
def State.fetchLength (s : State) : Nat := instrLength (s.mem.load s.ip .word)

/-- R120: `ip` may be fetched at. -/
def State.ipAligned (s : State) : Bool := s.ip.extractLsb' 0 2 == 0

/-- The registers the core owns (R62). -/
def State.core (s : State) : CoreState := { x := s.x, ip := s.ip, ac := s.ac, pc := s.pc, tc := s.tc }

/-- The environment's answer to the vector a `calls` handed over (R575, R806, log 5). DESIGN CHOICE:
where the answer is a fault, the state left is that of the hand-off with the port empty; the spec says
only `a fault` (log 5). -/
def answerCalls (vector : Word) (s : State) : Result :=
  match callsHandler vector s.core s.mem with
  | .resume core stores =>
    .next { s with
      x := core.x, ip := core.ip, ac := core.ac, pc := core.pc, tc := core.tc
      mem := s.mem.storeCells stores, callsPort := none }
  | .fault code => .fault (.callsHandler code { s with callsPort := none })

end Sys2Proof.Machine
end

