-- ==== Sys2Proof/Machine/Operands.lean ====
section
/-! DEFINITION. Operand values, branch targets, effective addresses, register groups, and the shapes
of effect the meanings share. Every `s` is the state before the fetch advance: `s.ip` is `pre_ip`
(log 6). -/

namespace Sys2Proof.Machine

/-! ### Values -/

/-- The value of a source operand (R134, R141). -/
def srcValue (s : State) : Src → Word
  | .reg r => s.reg r
  | .lit v => v.setWidth 32

/-- The CTRL target: the 24-bit byte displacement sign-extended and added to `pre_ip` (R130). -/
def ctrlTarget (disp : BitVec 22) (s : State) : Word := s.ip + (disp ++ 0#2).signExtend 32

/-- The COBR target: the 13-bit byte displacement sign-extended and added to `pre_ip` (R133). -/
def cobrTarget (disp : BitVec 11) (s : State) : Word := s.ip + (disp ++ 0#2).signExtend 32

/-- The length of a MEM instruction by its operand form (R125, R152). -/
def memLength : MemOperand → Nat
  | .offset _ | .baseOffset _ _ | .base _ | .baseIndex _ _ _ => 4
  | .ipDisp _ | .disp _ | .baseDisp _ _ | .indexDisp _ _ _ | .baseIndexDisp _ _ _ _ => 8

/-- The effective address (R152); every sum wraps modulo 2^32. -/
def efa (s : State) : MemOperand → Word
  | .offset off => off.setWidth 32
  | .baseOffset base off => s.reg base + off.setWidth 32
  | .base base => s.reg base
  | .ipDisp disp => s.ip + 8 + disp
  | .baseIndex base index scale => s.reg base + s.reg index <<< scale.toNat
  | .disp disp => disp
  | .baseDisp base disp => s.reg base + disp
  | .indexDisp index scale disp => s.reg index <<< scale.toNat + disp
  | .baseIndexDisp base index scale disp => s.reg base + s.reg index <<< scale.toNat + disp

/-! ### Register groups (R142, R500) -/

/-- R142: the register may name a group of `n`. -/
def groupAligned (n : Nat) (r : Reg) : Bool := r.toNat % (if n ≤ 2 then 2 else 4) == 0

/-- R500: the step is refused where the register cannot name a group of `n`. -/
def requireGroup (n : Nat) (r : Reg) (k : Result) : Result :=
  if groupAligned n r then k else .refused .unalignedGroup

/-- R500: a group source is a register. -/
def requireReg (a : Src) (k : Reg → Result) : Result :=
  match a with
  | .reg r => k r
  | .lit _ => .refused .literalGroup

/-! ### Shapes of effect -/

/-- A 4-byte instruction that does nothing else. -/
def nothing (s : State) : Result := .next (s.advance 4)

/-- A 4-byte instruction that writes one register. -/
def writeReg (c : Reg) (v : Word) (s : State) : Result := .next ((s.advance 4).setReg c v)

/-- A 4-byte instruction that writes the condition code. -/
def writeCc (code : BitVec 3) (s : State) : Result := .next ((s.advance 4).setCc code)

/-- A 4-byte instruction that writes the condition code and one register. -/
def writeCcReg (code : BitVec 3) (c : Reg) (v : Word) (s : State) : Result :=
  .next (((s.advance 4).setCc code).setReg c v)

/-- A 4-byte instruction that writes one register under the overflow policy (R762). -/
def writeChecked (overflow : Bool) (c : Reg) (v : Word) (s : State) : Result :=
  commit overflow s.ip (s.advance 4) fun t => .ok (t.setReg c v)

/-- A 4-byte instruction that acts only where a condition holds (R620). -/
def whenCond (cond : Cond) (s : State) (k : Result) : Result :=
  if checkCond cond s.ac then k else nothing s

end Sys2Proof.Machine
end

