-- ==== Sys2Proof/Machine/Arith.lean ====
section
/-! DEFINITION. Add, subtract, carry and shifts (44_reg_arith_shift.md). -/

namespace Sys2Proof.Machine

/-- R401: `addo`, modulo 2^32. -/
def execAddo (a b : Src) (c : Reg) (s : State) : Result :=
  writeReg c (srcValue s a + srcValue s b) s

/-- R402: `addi`, under the overflow policy. -/
def execAddi (a b : Src) (c : Reg) (s : State) : Result :=
  writeChecked (addOverflows (srcValue s a) (srcValue s b) false) c (srcValue s a + srcValue s b) s

/-- R403: `subo`, `b - a` modulo 2^32. -/
def execSubo (a b : Src) (c : Reg) (s : State) : Result :=
  writeReg c (srcValue s b - srcValue s a) s

/-- R404: `subi`, `b - a` under the overflow policy. -/
def execSubi (a b : Src) (c : Reg) (s : State) : Result :=
  writeChecked (subOverflows (srcValue s b) (srcValue s a) true) c (srcValue s b - srcValue s a) s

/-- R405: `addc`, carry in from AC[1], carry and overflow into CC. -/
def execAddc (a b : Src) (c : Reg) (s : State) : Result :=
  let cin := carryOf s.ac
  let r := adc (srcValue s a) (srcValue s b) cin
  writeCcReg (carryCode r.2 (addOverflows (srcValue s a) (srcValue s b) cin)) c r.1 s

/-- R406: `subc`, `b - a - 1` plus the carry in. -/
def execSubc (a b : Src) (c : Reg) (s : State) : Result :=
  let cin := carryOf s.ac
  let r := sbb (srcValue s b) (srcValue s a) cin
  writeCcReg (carryCode r.2 (subOverflows (srcValue s b) (srcValue s a) cin)) c r.1 s

/-- R411: `shro`, `b` by the count `a`. -/
def execShro (a b : Src) (c : Reg) (s : State) : Result :=
  writeReg c (shiftRightOrdinal (srcValue s b) (srcValue s a)) s

/-- R412: `shrdi`, `b` by the count `a`. -/
def execShrdi (a b : Src) (c : Reg) (s : State) : Result :=
  writeReg c (shiftRightDividing (srcValue s b) (srcValue s a)) s

/-- R413: `shri`, `b` by the count `a`. -/
def execShri (a b : Src) (c : Reg) (s : State) : Result :=
  writeReg c (shiftRightInteger (srcValue s b) (srcValue s a)) s

/-- R414: `shlo`, `b` by the count `a`. -/
def execShlo (a b : Src) (c : Reg) (s : State) : Result :=
  writeReg c (shiftLeftOrdinal (srcValue s b) (srcValue s a)) s

/-- R415: `rotate`, left, `b` by the count `a`. -/
def execRotate (a b : Src) (c : Reg) (s : State) : Result :=
  writeReg c (rotateLeft (srcValue s b) (srcValue s a)) s

/-- R416: `shli`, `b` by the count `a` under the overflow policy. -/
def execShli (a b : Src) (c : Reg) (s : State) : Result :=
  writeChecked (shiftLeftOverflows (srcValue s b) (srcValue s a)) c (shiftLeftOrdinal (srcValue s b) (srcValue s a)) s

end Sys2Proof.Machine
end

