-- ==== Sys2Proof/Machine/Cobr.lean ====
section
/-! DEFINITION. The COBR instructions (42_cobr.md). -/

namespace Sys2Proof.Machine

/-- R310 to R317: 1 or 0 in the destination, by the condition. -/
def testWhen (cond : Cond) (dst : Reg) (s : State) : Result :=
  writeReg dst (if checkCond cond s.ac then 1 else 0) s

/-- R302: branch where bit `a mod 32` of `b` is `c0`; CC is 2 there, else 0. -/
def bitBranch (c0 : Bool) (a : Src) (b : Reg) (disp : BitVec 11) (s : State) : Result :=
  let found := bitSelect (s.reg b) (srcValue s a) == c0
  let next := (s.advance 4).setCc (matchCode found)
  .next (if found then next.setIp (cobrTarget disp s) else next)

/-- R301: compare, write CC, branch where the condition holds of the new CC. -/
def compareBranch (sg : Signedness) (cond : Cond) (a : Src) (b : Reg) (disp : BitVec 11) (s : State) :
    Result :=
  let next := (s.advance 4).setCc (cmpCode sg (srcValue s a) (s.reg b))
  .next (if checkCond cond next.ac then next.setIp (cobrTarget disp s) else next)

/-- R310: `testno`. -/
def execTestno (dst : Reg) (s : State) : Result := testWhen .no dst s

/-- R311: `testg`. -/
def execTestg (dst : Reg) (s : State) : Result := testWhen .g dst s

/-- R312: `teste`. -/
def execTeste (dst : Reg) (s : State) : Result := testWhen .e dst s

/-- R313: `testge`. -/
def execTestge (dst : Reg) (s : State) : Result := testWhen .ge dst s

/-- R314: `testl`. -/
def execTestl (dst : Reg) (s : State) : Result := testWhen .l dst s

/-- R315: `testne`. -/
def execTestne (dst : Reg) (s : State) : Result := testWhen .ne dst s

/-- R316: `testle`. -/
def execTestle (dst : Reg) (s : State) : Result := testWhen .le dst s

/-- R317: `testo`. -/
def execTesto (dst : Reg) (s : State) : Result := testWhen .o dst s

/-- R320: `bbc`, branch if the bit is clear. -/
def execBbc (a : Src) (b : Reg) (disp : BitVec 11) (s : State) : Result :=
  bitBranch false a b disp s

/-- R321: `bbs`, branch if the bit is set. -/
def execBbs (a : Src) (b : Reg) (disp : BitVec 11) (s : State) : Result :=
  bitBranch true a b disp s

/-- R322: `cmpobg`, unsigned. -/
def execCmpobg (a : Src) (b : Reg) (disp : BitVec 11) (s : State) : Result :=
  compareBranch .ordinal .g a b disp s

/-- R323: `cmpobe`, unsigned. -/
def execCmpobe (a : Src) (b : Reg) (disp : BitVec 11) (s : State) : Result :=
  compareBranch .ordinal .e a b disp s

/-- R324: `cmpobge`, unsigned. -/
def execCmpobge (a : Src) (b : Reg) (disp : BitVec 11) (s : State) : Result :=
  compareBranch .ordinal .ge a b disp s

/-- R325: `cmpobl`, unsigned. -/
def execCmpobl (a : Src) (b : Reg) (disp : BitVec 11) (s : State) : Result :=
  compareBranch .ordinal .l a b disp s

/-- R326: `cmpobne`, unsigned. -/
def execCmpobne (a : Src) (b : Reg) (disp : BitVec 11) (s : State) : Result :=
  compareBranch .ordinal .ne a b disp s

/-- R327: `cmpoble`, unsigned. -/
def execCmpoble (a : Src) (b : Reg) (disp : BitVec 11) (s : State) : Result :=
  compareBranch .ordinal .le a b disp s

/-- R330: `cmpibno`, signed. -/
def execCmpibno (a : Src) (b : Reg) (disp : BitVec 11) (s : State) : Result :=
  compareBranch .integer .no a b disp s

/-- R331: `cmpibg`, signed. -/
def execCmpibg (a : Src) (b : Reg) (disp : BitVec 11) (s : State) : Result :=
  compareBranch .integer .g a b disp s

/-- R332: `cmpibe`, signed. -/
def execCmpibe (a : Src) (b : Reg) (disp : BitVec 11) (s : State) : Result :=
  compareBranch .integer .e a b disp s

/-- R333: `cmpibge`, signed. -/
def execCmpibge (a : Src) (b : Reg) (disp : BitVec 11) (s : State) : Result :=
  compareBranch .integer .ge a b disp s

/-- R334: `cmpibl`, signed. -/
def execCmpibl (a : Src) (b : Reg) (disp : BitVec 11) (s : State) : Result :=
  compareBranch .integer .l a b disp s

/-- R335: `cmpibne`, signed. -/
def execCmpibne (a : Src) (b : Reg) (disp : BitVec 11) (s : State) : Result :=
  compareBranch .integer .ne a b disp s

/-- R336: `cmpible`, signed. -/
def execCmpible (a : Src) (b : Reg) (disp : BitVec 11) (s : State) : Result :=
  compareBranch .integer .le a b disp s

/-- R337: `cmpibo`, signed. -/
def execCmpibo (a : Src) (b : Reg) (disp : BitVec 11) (s : State) : Result :=
  compareBranch .integer .o a b disp s

end Sys2Proof.Machine
end

