-- ==== Sys2Proof/Machine/Compare.lean ====
section
/-! DEFINITION. Compares and miscellaneous bit instructions (45_reg_compare_misc.md). -/

namespace Sys2Proof.Machine

/-- R451: `cmpob`, the low 8 bits. -/
def execCmpob (a b : Src) (s : State) : Result :=
  writeCc (cmpCode .ordinal (zext8 (srcValue s a)) (zext8 (srcValue s b))) s

/-- R452: `cmpib`, the low 8 bits. -/
def execCmpib (a b : Src) (s : State) : Result :=
  writeCc (cmpCode .integer (sext8 (srcValue s a)) (sext8 (srcValue s b))) s

/-- R453: `cmpos`, the low 16 bits. -/
def execCmpos (a b : Src) (s : State) : Result :=
  writeCc (cmpCode .ordinal (zext16 (srcValue s a)) (zext16 (srcValue s b))) s

/-- R454: `cmpis`, the low 16 bits. -/
def execCmpis (a b : Src) (s : State) : Result :=
  writeCc (cmpCode .integer (sext16 (srcValue s a)) (sext16 (srcValue s b))) s

/-- R461: `cmpo`. -/
def execCmpo (a b : Src) (s : State) : Result :=
  writeCc (cmpCode .ordinal (srcValue s a) (srcValue s b)) s

/-- R462: `cmpi`. -/
def execCmpi (a b : Src) (s : State) : Result :=
  writeCc (cmpCode .integer (srcValue s a) (srcValue s b)) s

/-- R463: `concmpo`. -/
def execConcmpo (a b : Src) (s : State) : Result :=
  .next ((s.advance 4).setAc (concmpAc .ordinal (srcValue s a) (srcValue s b) s.ac))

/-- R464: `concmpi`. -/
def execConcmpi (a b : Src) (s : State) : Result :=
  .next ((s.advance 4).setAc (concmpAc .integer (srcValue s a) (srcValue s b) s.ac))

/-- R465: `cmpinco`, and `b + 1` into `c` with no overflow. -/
def execCmpinco (a b : Src) (c : Reg) (s : State) : Result :=
  writeCcReg (cmpCode .ordinal (srcValue s a) (srcValue s b)) c (srcValue s b + 1) s

/-- R466: `cmpinci`, and `b + 1` into `c` with no overflow. -/
def execCmpinci (a b : Src) (c : Reg) (s : State) : Result :=
  writeCcReg (cmpCode .integer (srcValue s a) (srcValue s b)) c (srcValue s b + 1) s

/-- R467: `cmpdeco`, and `b - 1` into `c` with no overflow. -/
def execCmpdeco (a b : Src) (c : Reg) (s : State) : Result :=
  writeCcReg (cmpCode .ordinal (srcValue s a) (srcValue s b)) c (srcValue s b - 1) s

/-- R468: `cmpdeci`, and `b - 1` into `c` with no overflow. -/
def execCmpdeci (a b : Src) (c : Reg) (s : State) : Result :=
  writeCcReg (cmpCode .integer (srcValue s a) (srcValue s b)) c (srcValue s b - 1) s

/-- R470: `scanbyte`, some byte of `a` equals the byte of `b` in its place. -/
def execScanbyte (a b : Src) (s : State) : Result :=
  writeCc (matchCode (anyByteEqual (srcValue s a) (srcValue s b))) s

/-- R471: `bswap`. -/
def execBswap (a : Src) (c : Reg) (s : State) : Result := writeReg c (byteSwap (srcValue s a)) s

/-- R472: `chkbit`, bit `a mod 32` of `b`. -/
def execChkbit (a b : Src) (s : State) : Result :=
  writeCc (matchCode (bitSelect (srcValue s b) (srcValue s a))) s

end Sys2Proof.Machine
end

