-- ==== Sys2Proof/Machine/CondOps.lean ====
section
/-! DEFINITION. Conditional add, subtract and select (48_reg_muldiv_cond.md section 2). -/

namespace Sys2Proof.Machine

/-- R630: `addono`. -/
def execAddono (a b : Src) (c : Reg) (s : State) : Result :=
  whenCond .no s (writeReg c (srcValue s a + srcValue s b) s)

/-- R631: `addog`. -/
def execAddog (a b : Src) (c : Reg) (s : State) : Result :=
  whenCond .g s (writeReg c (srcValue s a + srcValue s b) s)

/-- R632: `addoe`. -/
def execAddoe (a b : Src) (c : Reg) (s : State) : Result :=
  whenCond .e s (writeReg c (srcValue s a + srcValue s b) s)

/-- R633: `addoge`. -/
def execAddoge (a b : Src) (c : Reg) (s : State) : Result :=
  whenCond .ge s (writeReg c (srcValue s a + srcValue s b) s)

/-- R634: `addol`. -/
def execAddol (a b : Src) (c : Reg) (s : State) : Result :=
  whenCond .l s (writeReg c (srcValue s a + srcValue s b) s)

/-- R635: `addone`. -/
def execAddone (a b : Src) (c : Reg) (s : State) : Result :=
  whenCond .ne s (writeReg c (srcValue s a + srcValue s b) s)

/-- R636: `addole`. -/
def execAddole (a b : Src) (c : Reg) (s : State) : Result :=
  whenCond .le s (writeReg c (srcValue s a + srcValue s b) s)

/-- R637: `addoo`. -/
def execAddoo (a b : Src) (c : Reg) (s : State) : Result :=
  whenCond .o s (writeReg c (srcValue s a + srcValue s b) s)

/-- R640: `addino`. -/
def execAddino (a b : Src) (c : Reg) (s : State) : Result :=
  whenCond .no s
    (writeChecked (addOverflows (srcValue s a) (srcValue s b) false) c (srcValue s a + srcValue s b) s)

/-- R641: `addig`. -/
def execAddig (a b : Src) (c : Reg) (s : State) : Result :=
  whenCond .g s
    (writeChecked (addOverflows (srcValue s a) (srcValue s b) false) c (srcValue s a + srcValue s b) s)

/-- R642: `addie`. -/
def execAddie (a b : Src) (c : Reg) (s : State) : Result :=
  whenCond .e s
    (writeChecked (addOverflows (srcValue s a) (srcValue s b) false) c (srcValue s a + srcValue s b) s)

/-- R643: `addige`. -/
def execAddige (a b : Src) (c : Reg) (s : State) : Result :=
  whenCond .ge s
    (writeChecked (addOverflows (srcValue s a) (srcValue s b) false) c (srcValue s a + srcValue s b) s)

/-- R644: `addil`. -/
def execAddil (a b : Src) (c : Reg) (s : State) : Result :=
  whenCond .l s
    (writeChecked (addOverflows (srcValue s a) (srcValue s b) false) c (srcValue s a + srcValue s b) s)

/-- R645: `addine`. -/
def execAddine (a b : Src) (c : Reg) (s : State) : Result :=
  whenCond .ne s
    (writeChecked (addOverflows (srcValue s a) (srcValue s b) false) c (srcValue s a + srcValue s b) s)

/-- R646: `addile`. -/
def execAddile (a b : Src) (c : Reg) (s : State) : Result :=
  whenCond .le s
    (writeChecked (addOverflows (srcValue s a) (srcValue s b) false) c (srcValue s a + srcValue s b) s)

/-- R647: `addio`. -/
def execAddio (a b : Src) (c : Reg) (s : State) : Result :=
  whenCond .o s
    (writeChecked (addOverflows (srcValue s a) (srcValue s b) false) c (srcValue s a + srcValue s b) s)

/-- R650: `subono`. -/
def execSubono (a b : Src) (c : Reg) (s : State) : Result :=
  whenCond .no s (writeReg c (srcValue s b - srcValue s a) s)

/-- R651: `subog`. -/
def execSubog (a b : Src) (c : Reg) (s : State) : Result :=
  whenCond .g s (writeReg c (srcValue s b - srcValue s a) s)

/-- R652: `suboe`. -/
def execSuboe (a b : Src) (c : Reg) (s : State) : Result :=
  whenCond .e s (writeReg c (srcValue s b - srcValue s a) s)

/-- R653: `suboge`. -/
def execSuboge (a b : Src) (c : Reg) (s : State) : Result :=
  whenCond .ge s (writeReg c (srcValue s b - srcValue s a) s)

/-- R654: `subol`. -/
def execSubol (a b : Src) (c : Reg) (s : State) : Result :=
  whenCond .l s (writeReg c (srcValue s b - srcValue s a) s)

/-- R655: `subone`. -/
def execSubone (a b : Src) (c : Reg) (s : State) : Result :=
  whenCond .ne s (writeReg c (srcValue s b - srcValue s a) s)

/-- R656: `subole`. -/
def execSubole (a b : Src) (c : Reg) (s : State) : Result :=
  whenCond .le s (writeReg c (srcValue s b - srcValue s a) s)

/-- R657: `suboo`. -/
def execSuboo (a b : Src) (c : Reg) (s : State) : Result :=
  whenCond .o s (writeReg c (srcValue s b - srcValue s a) s)

/-- R660: `subino`. -/
def execSubino (a b : Src) (c : Reg) (s : State) : Result :=
  whenCond .no s
    (writeChecked (subOverflows (srcValue s b) (srcValue s a) true) c (srcValue s b - srcValue s a) s)

/-- R661: `subig`. -/
def execSubig (a b : Src) (c : Reg) (s : State) : Result :=
  whenCond .g s
    (writeChecked (subOverflows (srcValue s b) (srcValue s a) true) c (srcValue s b - srcValue s a) s)

/-- R662: `subie`. -/
def execSubie (a b : Src) (c : Reg) (s : State) : Result :=
  whenCond .e s
    (writeChecked (subOverflows (srcValue s b) (srcValue s a) true) c (srcValue s b - srcValue s a) s)

/-- R663: `subige`. -/
def execSubige (a b : Src) (c : Reg) (s : State) : Result :=
  whenCond .ge s
    (writeChecked (subOverflows (srcValue s b) (srcValue s a) true) c (srcValue s b - srcValue s a) s)

/-- R664: `subil`. -/
def execSubil (a b : Src) (c : Reg) (s : State) : Result :=
  whenCond .l s
    (writeChecked (subOverflows (srcValue s b) (srcValue s a) true) c (srcValue s b - srcValue s a) s)

/-- R665: `subine`. -/
def execSubine (a b : Src) (c : Reg) (s : State) : Result :=
  whenCond .ne s
    (writeChecked (subOverflows (srcValue s b) (srcValue s a) true) c (srcValue s b - srcValue s a) s)

/-- R666: `subile`. -/
def execSubile (a b : Src) (c : Reg) (s : State) : Result :=
  whenCond .le s
    (writeChecked (subOverflows (srcValue s b) (srcValue s a) true) c (srcValue s b - srcValue s a) s)

/-- R667: `subio`. -/
def execSubio (a b : Src) (c : Reg) (s : State) : Result :=
  whenCond .o s
    (writeChecked (subOverflows (srcValue s b) (srcValue s a) true) c (srcValue s b - srcValue s a) s)

/-- R670: `selno`. -/
def execSelno (a b : Src) (c : Reg) (s : State) : Result :=
  writeReg c (if checkCond .no s.ac then srcValue s b else srcValue s a) s

/-- R671: `selg`. -/
def execSelg (a b : Src) (c : Reg) (s : State) : Result :=
  writeReg c (if checkCond .g s.ac then srcValue s b else srcValue s a) s

/-- R672: `sele`. -/
def execSele (a b : Src) (c : Reg) (s : State) : Result :=
  writeReg c (if checkCond .e s.ac then srcValue s b else srcValue s a) s

/-- R673: `selge`. -/
def execSelge (a b : Src) (c : Reg) (s : State) : Result :=
  writeReg c (if checkCond .ge s.ac then srcValue s b else srcValue s a) s

/-- R674: `sell`. -/
def execSell (a b : Src) (c : Reg) (s : State) : Result :=
  writeReg c (if checkCond .l s.ac then srcValue s b else srcValue s a) s

/-- R675: `selne`. -/
def execSelne (a b : Src) (c : Reg) (s : State) : Result :=
  writeReg c (if checkCond .ne s.ac then srcValue s b else srcValue s a) s

/-- R676: `selle`. -/
def execSelle (a b : Src) (c : Reg) (s : State) : Result :=
  writeReg c (if checkCond .le s.ac then srcValue s b else srcValue s a) s

/-- R677: `selo`. -/
def execSelo (a b : Src) (c : Reg) (s : State) : Result :=
  writeReg c (if checkCond .o s.ac then srcValue s b else srcValue s a) s

end Sys2Proof.Machine
end

