-- ==== Sys2Proof/Machine/Control.lean ====
section
/-! DEFINITION. Bit fields, control registers, interrupt control and system (47_reg_bitfield_system.md). -/

namespace Sys2Proof.Machine

/-- R550: the index of the most significant 1 bit and CC 2, or all ones and CC 0. -/
def scanResult (v : Word) (c : Reg) (s : State) : Result :=
  if v = 0 then writeCcReg (matchCode false) c 0xFFFFFFFF s
  else writeCcReg (matchCode true) c (msbIndex v) s

/-- R565: the ICON word rewritten in supervisor mode. Its address is word-aligned, so the port never
refuses it. -/
def rewriteIcon (f : Word → Word) (s : State) : Result :=
  requireSupervisor s (s.advance 4)
    (.next ((s.advance 4).setMem
      (s.mem.store iconAddress .word (f (s.mem.load iconAddress .word)))))

/-- R570: `intdis`, ICON bit 10 set. -/
def execIntdis (s : State) : Result := rewriteIcon (fun v => v ||| iconEnableBit) s

/-- R571: `inten`, ICON bit 10 cleared. -/
def execInten (s : State) : Result := rewriteIcon (fun v => v &&& ~~~iconEnableBit) s

/-- R551: `spanbit`, the most significant 0 of `a`. -/
def execSpanbit (a : Src) (c : Reg) (s : State) : Result := scanResult (~~~(srcValue s a)) c s

/-- R552: `scanbit`, the most significant 1 of `a`. -/
def execScanbit (a : Src) (c : Reg) (s : State) : Result := scanResult (srcValue s a) c s

/-- R560: `modac`, AC under the mask `a` from `b`, the old AC into `c`. -/
def execModac (a b : Src) (c : Reg) (s : State) : Result :=
  .next (((s.advance 4).setAc (modifyBits s.ac (srcValue s b) (srcValue s a))).setReg c s.ac)

/-- R561: `modify`, `c` under the mask `a` from `b`. -/
def execModify (a b : Src) (c : Reg) (s : State) : Result :=
  writeReg c (modifyBits (s.reg c) (srcValue s b) (srcValue s a)) s

/-- R562: `extract`, the field of `c` at position `a` of length `b`. -/
def execExtract (a b : Src) (c : Reg) (s : State) : Result :=
  writeReg c (extractBits (s.reg c) (srcValue s a) (srcValue s b)) s

/-- R563: `modtc`, TC under the mask `a` from `b`, the old TC into `c`. -/
def execModtc (a b : Src) (c : Reg) (s : State) : Result :=
  .next (((s.advance 4).setTc (modifyBits s.tc (srcValue s b) (srcValue s a))).setReg c s.tc)

/-- R564: `modpc`, PC under the mask `b` from `c`, the old PC into `c`; supervisor only for a mask that
is not 0. `a` is ignored. -/
def execModpc (_a b : Src) (c : Reg) (s : State) : Result :=
  let mask := srcValue s b
  let exchange : Result :=
    .next (((s.advance 4).setPc (modifyBits s.pc (s.reg c) mask)).setReg c s.pc)
  if mask = 0 then exchange else requireSupervisor s (s.advance 4) exchange

/-- R575: `calls`, the vector handed to the environment; nothing else changes but `ip` (log 4). -/
def execCalls (a : Src) (s : State) : Result :=
  .next { s.advance 4 with callsPort := some (srcValue s a) }

/-- R576: `mark`, no operation. -/
def execMark (s : State) : Result := nothing s

/-- R577: `fmark`, no operation. -/
def execFmark (s : State) : Result := nothing s

/-- R578: `flushreg`, no operation. -/
def execFlushreg (s : State) : Result := nothing s

/-- R579: `syncf`, no operation. -/
def execSyncf (s : State) : Result := nothing s

end Sys2Proof.Machine
end

