-- ==== Sys2Proof/Machine/Ctrl.lean ====
section
/-! DEFINITION. The CTRL instructions (41_ctrl.md). -/

namespace Sys2Proof.Machine

/-- R251, R250: a conditional branch, to the CTRL target or on to the next instruction. -/
def branchWhen (cond : Cond) (disp : BitVec 22) (s : State) : Result :=
  .next (if checkCond cond s.ac then s.setIp (ctrlTarget disp s) else s.advance 4)

/-- R250, R766: a conditional fault; where it is raised only `ip` has changed. -/
def faultWhen (cond : Cond) (s : State) : Result :=
  if checkCond cond s.ac then raise .constraintRange s.ip (s.advance 4) else nothing s

/-- R260: `b`, branch. -/
def execB (disp : BitVec 22) (s : State) : Result := .next (s.setIp (ctrlTarget disp s))

/-- R261: `call`, the call procedure on the CTRL target. -/
def execCall (disp : BitVec 22) (s : State) : Result := callProc (ctrlTarget disp s) (s.advance 4)

/-- R262: `ret`, the return procedure. -/
def execRet (s : State) : Result := retProc (s.advance 4)

/-- R263: `bal`, branch and link in g14. -/
def execBal (disp : BitVec 22) (s : State) : Result :=
  .next (((s.advance 4).setReg .lp (s.advance 4).ip).setIp (ctrlTarget disp s))

/-- R264: `bno`, branch if no. -/
def execBno (disp : BitVec 22) (s : State) : Result := branchWhen .no disp s

/-- R265: `bg`, branch if g. -/
def execBg (disp : BitVec 22) (s : State) : Result := branchWhen .g disp s

/-- R266: `be`, branch if e. -/
def execBe (disp : BitVec 22) (s : State) : Result := branchWhen .e disp s

/-- R267: `bge`, branch if ge. -/
def execBge (disp : BitVec 22) (s : State) : Result := branchWhen .ge disp s

/-- R268: `bl`, branch if l. -/
def execBl (disp : BitVec 22) (s : State) : Result := branchWhen .l disp s

/-- R269: `bne`, branch if ne. -/
def execBne (disp : BitVec 22) (s : State) : Result := branchWhen .ne disp s

/-- R270: `ble`, branch if le. -/
def execBle (disp : BitVec 22) (s : State) : Result := branchWhen .le disp s

/-- R271: `bo`, branch if o. -/
def execBo (disp : BitVec 22) (s : State) : Result := branchWhen .o disp s

/-- R272: `faultno`, constraint range if no. -/
def execFaultno (s : State) : Result := faultWhen .no s

/-- R273: `faultg`, constraint range if g. -/
def execFaultg (s : State) : Result := faultWhen .g s

/-- R274: `faulte`, constraint range if e. -/
def execFaulte (s : State) : Result := faultWhen .e s

/-- R275: `faultge`, constraint range if ge. -/
def execFaultge (s : State) : Result := faultWhen .ge s

/-- R276: `faultl`, constraint range if l. -/
def execFaultl (s : State) : Result := faultWhen .l s

/-- R277: `faultne`, constraint range if ne. -/
def execFaultne (s : State) : Result := faultWhen .ne s

/-- R278: `faultle`, constraint range if le. -/
def execFaultle (s : State) : Result := faultWhen .le s

/-- R279: `faulto`, constraint range if o. -/
def execFaulto (s : State) : Result := faultWhen .o s

end Sys2Proof.Machine
end

