-- ==== Sys2Proof/Machine/LoadStore.lean ====
section
/-! DEFINITION. The MEM instructions (49_mem.md). -/

namespace Sys2Proof.Machine

/-- R702: a load of one access, widened by `widen`. -/
def loadOne (n : Width) (widen : Word → Word) (mem : MemOperand) (c : Reg) (s : State) : Result :=
  orRefuse (s.read (efa s mem) n) fun v => .next ((s.advance (memLength mem)).setReg c (widen v))

/-- R725 to R727: a load of `n` words; the group check comes first, and every word is read before a
register is written. -/
def loadGroup (n : Nat) (mem : MemOperand) (c : Reg) (s : State) : Result :=
  requireGroup n c <|
    orRefuse (s.readWords (efa s mem) n) fun vs =>
      .next ((s.advance (memLength mem)).setRegs c vs)

/-- R702: a store of one access, truncated to its width. -/
def storeOne (n : Width) (c : Reg) (mem : MemOperand) (s : State) : Result :=
  orRefuse ((s.advance (memLength mem)).write (efa s mem) n (s.reg c)) .next

/-- R732, R733: a signed narrowing store under the overflow policy. -/
def storeChecked (n : Width) (c : Reg) (mem : MemOperand) (s : State) : Result :=
  commit (!fitsSigned (8 * n.bytes) (s.reg c).toInt) s.ip (s.advance (memLength mem)) fun t =>
    t.write (efa s mem) n (s.reg c)

/-- R735 to R737: a store of `n` words; the group check comes first. -/
def storeGroup (n : Nat) (c : Reg) (mem : MemOperand) (s : State) : Result :=
  requireGroup n c <|
    orRefuse ((s.advance (memLength mem)).writeWords (efa s mem) (s.regs c n)) .next

/-- R710: `bx`. -/
def execBx (mem : MemOperand) (s : State) : Result := .next (s.setIp (efa s mem))

/-- R711: `balx`, the link into `c`. -/
def execBalx (mem : MemOperand) (c : Reg) (s : State) : Result :=
  let next := s.advance (memLength mem)
  .next ((next.setReg c next.ip).setIp (efa s mem))

/-- R712: `callx`, the call procedure on the effective address. -/
def execCallx (mem : MemOperand) (s : State) : Result :=
  callProc (efa s mem) (s.advance (memLength mem))

/-- R713: `lda`, the effective address, no memory access. -/
def execLda (mem : MemOperand) (c : Reg) (s : State) : Result :=
  .next ((s.advance (memLength mem)).setReg c (efa s mem))

/-- R720: `ldob`. -/
def execLdob (mem : MemOperand) (c : Reg) (s : State) : Result := loadOne .byte zext8 mem c s

/-- R721: `ldos`. -/
def execLdos (mem : MemOperand) (c : Reg) (s : State) : Result := loadOne .short zext16 mem c s

/-- R722: `ldib`. -/
def execLdib (mem : MemOperand) (c : Reg) (s : State) : Result := loadOne .byte sext8 mem c s

/-- R723: `ldis`. -/
def execLdis (mem : MemOperand) (c : Reg) (s : State) : Result := loadOne .short sext16 mem c s

/-- R724: `ld`. -/
def execLd (mem : MemOperand) (c : Reg) (s : State) : Result := loadOne .word id mem c s

/-- R725: `ldl`, 2 words. -/
def execLdl (mem : MemOperand) (c : Reg) (s : State) : Result := loadGroup 2 mem c s

/-- R726: `ldt`, 3 words. -/
def execLdt (mem : MemOperand) (c : Reg) (s : State) : Result := loadGroup 3 mem c s

/-- R727: `ldq`, 4 words. -/
def execLdq (mem : MemOperand) (c : Reg) (s : State) : Result := loadGroup 4 mem c s

/-- R730: `stob`. -/
def execStob (c : Reg) (mem : MemOperand) (s : State) : Result := storeOne .byte c mem s

/-- R731: `stos`. -/
def execStos (c : Reg) (mem : MemOperand) (s : State) : Result := storeOne .short c mem s

/-- R732: `stib`. -/
def execStib (c : Reg) (mem : MemOperand) (s : State) : Result := storeChecked .byte c mem s

/-- R733: `stis`. -/
def execStis (c : Reg) (mem : MemOperand) (s : State) : Result := storeChecked .short c mem s

/-- R734: `st`. -/
def execSt (c : Reg) (mem : MemOperand) (s : State) : Result := storeOne .word c mem s

/-- R735: `stl`, 2 words. -/
def execStl (c : Reg) (mem : MemOperand) (s : State) : Result := storeGroup 2 c mem s

/-- R736: `stt`, 3 words. -/
def execStt (c : Reg) (mem : MemOperand) (s : State) : Result := storeGroup 3 c mem s

/-- R737: `stq`, 4 words. -/
def execStq (c : Reg) (mem : MemOperand) (s : State) : Result := storeGroup 4 c mem s

end Sys2Proof.Machine
end

