-- ==== Sys2Proof/Machine/Logic.lean ====
section
/-! DEFINITION. The logic and bit instructions (43_reg_logic.md). -/

namespace Sys2Proof.Machine

/-- R351: `b` with bit `a mod 32` inverted. -/
def execNotbit (a b : Src) (c : Reg) (s : State) : Result :=
  writeReg c (srcValue s b ^^^ bitMask (srcValue s a)) s

/-- R352: `and`. -/
def execAnd (a b : Src) (c : Reg) (s : State) : Result :=
  writeReg c (srcValue s a &&& srcValue s b) s

/-- R353: `b` and not `a`. -/
def execAndnot (a b : Src) (c : Reg) (s : State) : Result :=
  writeReg c (srcValue s b &&& ~~~(srcValue s a)) s

/-- R354: `b` with bit `a mod 32` set. -/
def execSetbit (a b : Src) (c : Reg) (s : State) : Result :=
  writeReg c (srcValue s b ||| bitMask (srcValue s a)) s

/-- R355: `a` and not `b`. -/
def execNotand (a b : Src) (c : Reg) (s : State) : Result :=
  writeReg c (srcValue s a &&& ~~~(srcValue s b)) s

/-- R356: the filler 0x585, exactly `notand` or exactly `xor` by the parameter. -/
def execFiller585 (a b : Src) (c : Reg) (s : State) : Result :=
  match s.params.filler585 with
  | .notand => writeReg c (srcValue s a &&& ~~~(srcValue s b)) s
  | .xor => writeReg c (srcValue s a ^^^ srcValue s b) s

/-- R357: `xor`. -/
def execXor (a b : Src) (c : Reg) (s : State) : Result :=
  writeReg c (srcValue s a ^^^ srcValue s b) s

/-- R358: `or`. -/
def execOr (a b : Src) (c : Reg) (s : State) : Result :=
  writeReg c (srcValue s a ||| srcValue s b) s

/-- R359: not (`a` or `b`). -/
def execNor (a b : Src) (c : Reg) (s : State) : Result :=
  writeReg c (~~~(srcValue s a ||| srcValue s b)) s

/-- R360: not (`a` xor `b`). -/
def execXnor (a b : Src) (c : Reg) (s : State) : Result :=
  writeReg c (~~~(srcValue s a ^^^ srcValue s b)) s

/-- R361: not `a`. -/
def execNot (a : Src) (c : Reg) (s : State) : Result := writeReg c (~~~(srcValue s a)) s

/-- R362: `b` or not `a`. -/
def execOrnot (a b : Src) (c : Reg) (s : State) : Result :=
  writeReg c (srcValue s b ||| ~~~(srcValue s a)) s

/-- R363: `b` with bit `a mod 32` cleared. -/
def execClrbit (a b : Src) (c : Reg) (s : State) : Result :=
  writeReg c (srcValue s b &&& ~~~(bitMask (srcValue s a))) s

/-- R364: `a` or not `b`. -/
def execNotor (a b : Src) (c : Reg) (s : State) : Result :=
  writeReg c (srcValue s a ||| ~~~(srcValue s b)) s

/-- R365: not (`a` and `b`). -/
def execNand (a b : Src) (c : Reg) (s : State) : Result :=
  writeReg c (~~~(srcValue s a &&& srcValue s b)) s

/-- R366: bit `a mod 32` of `b` set or cleared as AC[1] says. -/
def execAlterbit (a b : Src) (c : Reg) (s : State) : Result :=
  writeReg c (alterBit (srcValue s b) (srcValue s a) (carryOf s.ac)) s

end Sys2Proof.Machine
end

