-- ==== Sys2Proof/Machine/Move.lean ====
section
/-! DEFINITION. Moves, extended shift and atomics (46_reg_move_atomic.md). -/

namespace Sys2Proof.Machine

/-- R502: `n` words from the group of `a` to the group of `c`; every check precedes every read. -/
def moveGroup (n : Nat) (a : Src) (c : Reg) (s : State) : Result :=
  requireReg a fun r =>
    requireGroup n r (requireGroup n c (.next ((s.advance 4).setRegs c (s.regs r n))))

/-- R501: `mov`. -/
def execMov (a : Src) (c : Reg) (s : State) : Result := writeReg c (srcValue s a) s

/-- R502: `movl`, 2 words. -/
def execMovl (a : Src) (c : Reg) (s : State) : Result := moveGroup 2 a c s

/-- R503: `movt`, 3 words. -/
def execMovt (a : Src) (c : Reg) (s : State) : Result := moveGroup 3 a c s

/-- R504: `movq`, 4 words. -/
def execMovq (a : Src) (c : Reg) (s : State) : Result := moveGroup 4 a c s

/-- R505: `eshro`, the high word in register `b | 1`. -/
def execEshro (a b : Src) (c : Reg) (s : State) : Result :=
  requireReg b fun r =>
    writeReg c (extendedShiftRight (s.reg (r ||| 1)) (s.reg r) (srcValue s a)) s

/-- R520: `atmod`, memory modified under the mask `b` by `x[c]`. -/
def execAtmod (a b : Src) (c : Reg) (s : State) : Result :=
  atomicModify (srcValue s a &&& ~~~3#32) (fun old => modifyBits old (s.reg c) (srcValue s b)) c (s.advance 4)

/-- R521: `atadd`, `b` added to memory. -/
def execAtadd (a b : Src) (c : Reg) (s : State) : Result :=
  atomicModify (srcValue s a &&& ~~~3#32) (fun old => old + srcValue s b) c (s.advance 4)

end Sys2Proof.Machine
end

