-- ==== Sys2Proof/Machine/MulDiv.lean ====
section
/-! DEFINITION. Multiply and divide (48_reg_muldiv_cond.md section 1). -/

namespace Sys2Proof.Machine

/-- R601: `emul`, the product's low word into `c`, its high word into `c+1`. -/
def execEmul (a b : Src) (c : Reg) (s : State) : Result :=
  let p := wideProduct (srcValue s a) (srcValue s b)
  requireGroup 2 c (.next ((s.advance 4).setRegs c [p.1, p.2]))

/-- R602: `ediv`, remainder into `c`, quotient into `c+1`; the groups are checked before the divisor. -/
def execEdiv (a b : Src) (c : Reg) (s : State) : Result :=
  let a := srcValue s a
  requireReg b fun r =>
    requireGroup 2 r <| requireGroup 2 c <|
      requireDivisor a s (s.advance 4) <|
        let dividend := (s.reg (r + 1) ++ s.reg r : BitVec 64).toNat
        if 2 ^ 32 ≤ dividend / a.toNat then .refused .edivQuotientOverflow
        else
          .next ((s.advance 4).setRegs c
            [BitVec.ofNat 32 (dividend % a.toNat), BitVec.ofNat 32 (dividend / a.toNat)])

/-- R603: `mulo`, modulo 2^32. -/
def execMulo (a b : Src) (c : Reg) (s : State) : Result :=
  writeReg c (srcValue s a * srcValue s b) s

/-- R604: `remo`, unsigned. -/
def execRemo (a b : Src) (c : Reg) (s : State) : Result :=
  requireDivisor (srcValue s a) s (s.advance 4) (writeReg c (srcValue s b % srcValue s a) s)

/-- R605: `divo`, unsigned. -/
def execDivo (a b : Src) (c : Reg) (s : State) : Result :=
  requireDivisor (srcValue s a) s (s.advance 4) (writeReg c (srcValue s b / srcValue s a) s)

/-- R606: `muli`, under the overflow policy. -/
def execMuli (a b : Src) (c : Reg) (s : State) : Result :=
  let p := signedProduct (srcValue s a) (srcValue s b)
  writeChecked (!fitsSigned 32 p) c (BitVec.ofInt 32 p) s

/-- R607: `remi`, the sign of the dividend. -/
def execRemi (a b : Src) (c : Reg) (s : State) : Result :=
  requireDivisor (srcValue s a) s (s.advance 4)
    (writeReg c (remainderInteger (srcValue s b) (srcValue s a)) s)

/-- R608: `modi`, the sign of the divisor. -/
def execModi (a b : Src) (c : Reg) (s : State) : Result :=
  requireDivisor (srcValue s a) s (s.advance 4)
    (writeReg c (moduloInteger (srcValue s b) (srcValue s a)) s)

/-- R609: `divi`, toward zero; -2^31 / -1 overflows to 0x80000000. -/
def execDivi (a b : Src) (c : Reg) (s : State) : Result :=
  let overflow := srcValue s b == 0x80000000#32 && srcValue s a == 0xFFFFFFFF#32
  requireDivisor (srcValue s a) s (s.advance 4)
    (writeChecked overflow c (divideInteger (srcValue s b) (srcValue s a)) s)

end Sys2Proof.Machine
end

