-- ==== Sys2Proof/Machine/Dispatch.lean ====
section
/-! DEFINITION. The meaning of each instruction. -/

namespace Sys2Proof.Machine

def exec (i : Instr) (s : State) : Host.Outcome State Fault Refusal :=
  match i with
  | .b disp => Sys2Proof.Machine.execB disp s
  | .call disp => Sys2Proof.Machine.execCall disp s
  | .ret => Sys2Proof.Machine.execRet s
  | .bal disp => Sys2Proof.Machine.execBal disp s
  | .bno disp => Sys2Proof.Machine.execBno disp s
  | .bg disp => Sys2Proof.Machine.execBg disp s
  | .be disp => Sys2Proof.Machine.execBe disp s
  | .bge disp => Sys2Proof.Machine.execBge disp s
  | .bl disp => Sys2Proof.Machine.execBl disp s
  | .bne disp => Sys2Proof.Machine.execBne disp s
  | .ble disp => Sys2Proof.Machine.execBle disp s
  | .bo disp => Sys2Proof.Machine.execBo disp s
  | .faultno => Sys2Proof.Machine.execFaultno s
  | .faultg => Sys2Proof.Machine.execFaultg s
  | .faulte => Sys2Proof.Machine.execFaulte s
  | .faultge => Sys2Proof.Machine.execFaultge s
  | .faultl => Sys2Proof.Machine.execFaultl s
  | .faultne => Sys2Proof.Machine.execFaultne s
  | .faultle => Sys2Proof.Machine.execFaultle s
  | .faulto => Sys2Proof.Machine.execFaulto s
  | .testno dst => Sys2Proof.Machine.execTestno dst s
  | .testg dst => Sys2Proof.Machine.execTestg dst s
  | .teste dst => Sys2Proof.Machine.execTeste dst s
  | .testge dst => Sys2Proof.Machine.execTestge dst s
  | .testl dst => Sys2Proof.Machine.execTestl dst s
  | .testne dst => Sys2Proof.Machine.execTestne dst s
  | .testle dst => Sys2Proof.Machine.execTestle dst s
  | .testo dst => Sys2Proof.Machine.execTesto dst s
  | .bbc a b disp => Sys2Proof.Machine.execBbc a b disp s
  | .cmpobg a b disp => Sys2Proof.Machine.execCmpobg a b disp s
  | .cmpobe a b disp => Sys2Proof.Machine.execCmpobe a b disp s
  | .cmpobge a b disp => Sys2Proof.Machine.execCmpobge a b disp s
  | .cmpobl a b disp => Sys2Proof.Machine.execCmpobl a b disp s
  | .cmpobne a b disp => Sys2Proof.Machine.execCmpobne a b disp s
  | .cmpoble a b disp => Sys2Proof.Machine.execCmpoble a b disp s
  | .bbs a b disp => Sys2Proof.Machine.execBbs a b disp s
  | .cmpibno a b disp => Sys2Proof.Machine.execCmpibno a b disp s
  | .cmpibg a b disp => Sys2Proof.Machine.execCmpibg a b disp s
  | .cmpibe a b disp => Sys2Proof.Machine.execCmpibe a b disp s
  | .cmpibge a b disp => Sys2Proof.Machine.execCmpibge a b disp s
  | .cmpibl a b disp => Sys2Proof.Machine.execCmpibl a b disp s
  | .cmpibne a b disp => Sys2Proof.Machine.execCmpibne a b disp s
  | .cmpible a b disp => Sys2Proof.Machine.execCmpible a b disp s
  | .cmpibo a b disp => Sys2Proof.Machine.execCmpibo a b disp s
  | .notbit a b c => Sys2Proof.Machine.execNotbit a b c s
  | .and a b c => Sys2Proof.Machine.execAnd a b c s
  | .andnot a b c => Sys2Proof.Machine.execAndnot a b c s
  | .setbit a b c => Sys2Proof.Machine.execSetbit a b c s
  | .notand a b c => Sys2Proof.Machine.execNotand a b c s
  | .filler585 a b c => Sys2Proof.Machine.execFiller585 a b c s
  | .xor a b c => Sys2Proof.Machine.execXor a b c s
  | .or a b c => Sys2Proof.Machine.execOr a b c s
  | .nor a b c => Sys2Proof.Machine.execNor a b c s
  | .xnor a b c => Sys2Proof.Machine.execXnor a b c s
  | .not a c => Sys2Proof.Machine.execNot a c s
  | .ornot a b c => Sys2Proof.Machine.execOrnot a b c s
  | .clrbit a b c => Sys2Proof.Machine.execClrbit a b c s
  | .notor a b c => Sys2Proof.Machine.execNotor a b c s
  | .nand a b c => Sys2Proof.Machine.execNand a b c s
  | .alterbit a b c => Sys2Proof.Machine.execAlterbit a b c s
  | .addo a b c => Sys2Proof.Machine.execAddo a b c s
  | .addi a b c => Sys2Proof.Machine.execAddi a b c s
  | .subo a b c => Sys2Proof.Machine.execSubo a b c s
  | .subi a b c => Sys2Proof.Machine.execSubi a b c s
  | .cmpob a b => Sys2Proof.Machine.execCmpob a b s
  | .cmpib a b => Sys2Proof.Machine.execCmpib a b s
  | .cmpos a b => Sys2Proof.Machine.execCmpos a b s
  | .cmpis a b => Sys2Proof.Machine.execCmpis a b s
  | .shro a b c => Sys2Proof.Machine.execShro a b c s
  | .shrdi a b c => Sys2Proof.Machine.execShrdi a b c s
  | .shri a b c => Sys2Proof.Machine.execShri a b c s
  | .shlo a b c => Sys2Proof.Machine.execShlo a b c s
  | .rotate a b c => Sys2Proof.Machine.execRotate a b c s
  | .shli a b c => Sys2Proof.Machine.execShli a b c s
  | .cmpo a b => Sys2Proof.Machine.execCmpo a b s
  | .cmpi a b => Sys2Proof.Machine.execCmpi a b s
  | .concmpo a b => Sys2Proof.Machine.execConcmpo a b s
  | .concmpi a b => Sys2Proof.Machine.execConcmpi a b s
  | .cmpinco a b c => Sys2Proof.Machine.execCmpinco a b c s
  | .cmpinci a b c => Sys2Proof.Machine.execCmpinci a b c s
  | .cmpdeco a b c => Sys2Proof.Machine.execCmpdeco a b c s
  | .cmpdeci a b c => Sys2Proof.Machine.execCmpdeci a b c s
  | .scanbyte a b => Sys2Proof.Machine.execScanbyte a b s
  | .bswap a c => Sys2Proof.Machine.execBswap a c s
  | .chkbit a b => Sys2Proof.Machine.execChkbit a b s
  | .addc a b c => Sys2Proof.Machine.execAddc a b c s
  | .subc a b c => Sys2Proof.Machine.execSubc a b c s
  | .intdis => Sys2Proof.Machine.execIntdis s
  | .inten => Sys2Proof.Machine.execInten s
  | .mov a c => Sys2Proof.Machine.execMov a c s
  | .eshro a b c => Sys2Proof.Machine.execEshro a b c s
  | .movl a c => Sys2Proof.Machine.execMovl a c s
  | .movt a c => Sys2Proof.Machine.execMovt a c s
  | .movq a c => Sys2Proof.Machine.execMovq a c s
  | .atmod a b c => Sys2Proof.Machine.execAtmod a b c s
  | .atadd a b c => Sys2Proof.Machine.execAtadd a b c s
  | .spanbit a c => Sys2Proof.Machine.execSpanbit a c s
  | .scanbit a c => Sys2Proof.Machine.execScanbit a c s
  | .modac a b c => Sys2Proof.Machine.execModac a b c s
  | .modify a b c => Sys2Proof.Machine.execModify a b c s
  | .extract a b c => Sys2Proof.Machine.execExtract a b c s
  | .modtc a b c => Sys2Proof.Machine.execModtc a b c s
  | .modpc a b c => Sys2Proof.Machine.execModpc a b c s
  | .calls a => Sys2Proof.Machine.execCalls a s
  | .mark => Sys2Proof.Machine.execMark s
  | .fmark => Sys2Proof.Machine.execFmark s
  | .flushreg => Sys2Proof.Machine.execFlushreg s
  | .syncf => Sys2Proof.Machine.execSyncf s
  | .emul a b c => Sys2Proof.Machine.execEmul a b c s
  | .ediv a b c => Sys2Proof.Machine.execEdiv a b c s
  | .mulo a b c => Sys2Proof.Machine.execMulo a b c s
  | .remo a b c => Sys2Proof.Machine.execRemo a b c s
  | .divo a b c => Sys2Proof.Machine.execDivo a b c s
  | .muli a b c => Sys2Proof.Machine.execMuli a b c s
  | .remi a b c => Sys2Proof.Machine.execRemi a b c s
  | .modi a b c => Sys2Proof.Machine.execModi a b c s
  | .divi a b c => Sys2Proof.Machine.execDivi a b c s
  | .addono a b c => Sys2Proof.Machine.execAddono a b c s
  | .addino a b c => Sys2Proof.Machine.execAddino a b c s
  | .subono a b c => Sys2Proof.Machine.execSubono a b c s
  | .subino a b c => Sys2Proof.Machine.execSubino a b c s
  | .selno a b c => Sys2Proof.Machine.execSelno a b c s
  | .addog a b c => Sys2Proof.Machine.execAddog a b c s
  | .addig a b c => Sys2Proof.Machine.execAddig a b c s
  | .subog a b c => Sys2Proof.Machine.execSubog a b c s
  | .subig a b c => Sys2Proof.Machine.execSubig a b c s
  | .selg a b c => Sys2Proof.Machine.execSelg a b c s
  | .addoe a b c => Sys2Proof.Machine.execAddoe a b c s
  | .addie a b c => Sys2Proof.Machine.execAddie a b c s
  | .suboe a b c => Sys2Proof.Machine.execSuboe a b c s
  | .subie a b c => Sys2Proof.Machine.execSubie a b c s
  | .sele a b c => Sys2Proof.Machine.execSele a b c s
  | .addoge a b c => Sys2Proof.Machine.execAddoge a b c s
  | .addige a b c => Sys2Proof.Machine.execAddige a b c s
  | .suboge a b c => Sys2Proof.Machine.execSuboge a b c s
  | .subige a b c => Sys2Proof.Machine.execSubige a b c s
  | .selge a b c => Sys2Proof.Machine.execSelge a b c s
  | .addol a b c => Sys2Proof.Machine.execAddol a b c s
  | .addil a b c => Sys2Proof.Machine.execAddil a b c s
  | .subol a b c => Sys2Proof.Machine.execSubol a b c s
  | .subil a b c => Sys2Proof.Machine.execSubil a b c s
  | .sell a b c => Sys2Proof.Machine.execSell a b c s
  | .addone a b c => Sys2Proof.Machine.execAddone a b c s
  | .addine a b c => Sys2Proof.Machine.execAddine a b c s
  | .subone a b c => Sys2Proof.Machine.execSubone a b c s
  | .subine a b c => Sys2Proof.Machine.execSubine a b c s
  | .selne a b c => Sys2Proof.Machine.execSelne a b c s
  | .addole a b c => Sys2Proof.Machine.execAddole a b c s
  | .addile a b c => Sys2Proof.Machine.execAddile a b c s
  | .subole a b c => Sys2Proof.Machine.execSubole a b c s
  | .subile a b c => Sys2Proof.Machine.execSubile a b c s
  | .selle a b c => Sys2Proof.Machine.execSelle a b c s
  | .addoo a b c => Sys2Proof.Machine.execAddoo a b c s
  | .addio a b c => Sys2Proof.Machine.execAddio a b c s
  | .suboo a b c => Sys2Proof.Machine.execSuboo a b c s
  | .subio a b c => Sys2Proof.Machine.execSubio a b c s
  | .selo a b c => Sys2Proof.Machine.execSelo a b c s
  | .ldob mem c => Sys2Proof.Machine.execLdob mem c s
  | .stob c mem => Sys2Proof.Machine.execStob c mem s
  | .bx mem => Sys2Proof.Machine.execBx mem s
  | .balx mem c => Sys2Proof.Machine.execBalx mem c s
  | .callx mem => Sys2Proof.Machine.execCallx mem s
  | .ldos mem c => Sys2Proof.Machine.execLdos mem c s
  | .stos c mem => Sys2Proof.Machine.execStos c mem s
  | .lda mem c => Sys2Proof.Machine.execLda mem c s
  | .ld mem c => Sys2Proof.Machine.execLd mem c s
  | .st c mem => Sys2Proof.Machine.execSt c mem s
  | .ldl mem c => Sys2Proof.Machine.execLdl mem c s
  | .stl c mem => Sys2Proof.Machine.execStl c mem s
  | .ldt mem c => Sys2Proof.Machine.execLdt mem c s
  | .stt c mem => Sys2Proof.Machine.execStt c mem s
  | .ldq mem c => Sys2Proof.Machine.execLdq mem c s
  | .stq c mem => Sys2Proof.Machine.execStq c mem s
  | .ldib mem c => Sys2Proof.Machine.execLdib mem c s
  | .stib c mem => Sys2Proof.Machine.execStib c mem s
  | .ldis mem c => Sys2Proof.Machine.execLdis mem c s
  | .stis c mem => Sys2Proof.Machine.execStis c mem s

end Sys2Proof.Machine
end

