-- ==== Sys2Proof/Machine/Step.lean ====
section
/-! DEFINITION. One step of the machine, and the placing of one instruction where it is fetched. -/

namespace Sys2Proof.Machine

/-- One step (R3, R20). A call handed to the environment is answered first (R806); at `halt_ip` the
run has ended and nothing changes (R805, log 7); else the instruction at `ip` is fetched, decoded
and executed, or its fault raised (R120, R170, R767). -/
def step (s : State) : Host.Outcome State Fault Refusal :=
  match s.callsPort with
  | some vector => answerCalls vector s
  | none =>
    if s.haltIp = some s.ip then .next s
    else if s.ipAligned then
      match decode s.fetchBytes with
      | .ok (i, _) => exec i s
      | .error _ => raise .invalidOpcode s.ip (s.advance s.fetchLength)
    else .refused .unalignedFetch

/-- The state with one instruction, numbered as the opcode table numbers its bits, at `ip`; `ip` made
one that may be fetched at, and no call pending or run ended there (log 13). -/
def State.withFetchWord (s : State) (nbits w : Nat) : State :=
  let ip := s.ip &&& ~~~3#32
  { s with
    ip := ip
    callsPort := none
    haltIp := if s.haltIp = some ip then none else s.haltIp
    mem := s.mem.storeBytes ip (tableBytes nbits w) }

end Sys2Proof.Machine
end

