-- ==== Sys2Proof/Safety.lean ====
section
/-! DEFINITION. The terms the statements are written in: the invariant of a state, what an
instruction may change, conditions and values read off the spec's tables, and the words that are no
instruction. -/

namespace Sys2Proof.Machine

open Sys2Proof.Config

/-! ### Invariant and frame -/

/-- What holds between instructions: memory is in its canonical form (log 2) and the memory lock is
free (R60). -/
def State.Inv (s : State) : Prop := s.mem.wf = true ∧ s.lockHeld = false

/-- The addresses of `n` bytes from `addr` up, modulo 2^32 (R82). -/
def span (addr : Word) (n : Nat) : List Word := (List.range n).map fun k => addr + BitVec.ofNat 32 k

/-- What an instruction may change besides `ip`: registers, bits of the control registers, bytes of
memory and the supervisor-call port. -/
structure Scope where
  regs : List Reg := []
  ac : Word := 0
  pc : Word := 0
  tc : Word := 0
  bytes : List Word := []
  port : Bool := false

/-- Everything outside the scope, `ip` aside, is the same in both states. -/
structure Frame (w : Scope) (s t : State) : Prop where
  regs : ∀ r, r ∉ w.regs → t.reg r = s.reg r
  ac : t.ac &&& ~~~w.ac = s.ac &&& ~~~w.ac
  pc : t.pc &&& ~~~w.pc = s.pc &&& ~~~w.pc
  tc : t.tc &&& ~~~w.tc = s.tc &&& ~~~w.tc
  bytes : ∀ a, a ∉ w.bytes → t.byteAt a = s.byteAt a
  port : w.port = false → t.callsPort = s.callsPort
  lockHeld : t.lockHeld = s.lockHeld
  haltIp : t.haltIp = s.haltIp
  params : t.params = s.params

/-- The registers of a group of `n` (R142). -/
def groupRegs (r : Reg) (n : Nat) : List Reg := (List.range n).map fun k => r + BitVec.ofNat 5 k

/-- The window a call saves, the four registers it writes (R34, R256). -/
def callScope (s : State) : Scope :=
  { regs := [.pfp, .sp, .rip, .fp], bytes := span (s.reg .fp) 64 }

/-- What each instruction may change (R34, R41, R50, R55, R81 and its own rule). `s` is the state it
executes in. -/
def scope (s : State) : Instr → Scope
  | .b .. | .bno .. | .bg .. | .be .. | .bge .. | .bl .. | .bne .. | .ble .. | .bo .. | .faultno
  | .faultg | .faulte | .faultge | .faultl | .faultne | .faultle | .faulto | .mark | .fmark
  | .flushreg | .syncf | .bx .. =>
    {}
  | .call .. | .callx .. =>
    callScope s
  | .ret => { regs := .fp :: groupRegs 0 16 }
  | .bal _ => { regs := [.lp] }
  | .calls _ => { port := true }
  | .modac _ _ c => { regs := [c], ac := BitVec.allOnes 32 }
  | .modtc _ _ c => { regs := [c], tc := BitVec.allOnes 32 }
  | .modpc _ _ c => { regs := [c], pc := BitVec.allOnes 32 }
  | .intdis | .inten =>
    { bytes := span iconAddress 4 }
  | .bbc .. | .bbs .. | .cmpobg .. | .cmpobe .. | .cmpobge .. | .cmpobl .. | .cmpobne ..
  | .cmpoble .. | .cmpibno .. | .cmpibg .. | .cmpibe .. | .cmpibge .. | .cmpibl .. | .cmpibne ..
  | .cmpible .. | .cmpibo .. | .cmpob .. | .cmpib .. | .cmpos .. | .cmpis .. | .cmpo .. | .cmpi ..
  | .concmpo .. | .concmpi .. | .scanbyte .. | .chkbit .. =>
    { ac := 7 }
  | .testno c | .testg c | .teste c | .testge c | .testl c | .testne c | .testle c | .testo c =>
    { regs := [c] }
  | .cmpinco _ _ c | .cmpinci _ _ c | .cmpdeco _ _ c | .cmpdeci _ _ c | .addc _ _ c | .subc _ _ c =>
    { regs := [c], ac := 7 }
  | .spanbit _ c | .scanbit _ c =>
    { regs := [c], ac := 7 }
  | .addi _ _ c | .subi _ _ c | .shli _ _ c | .muli _ _ c | .divi _ _ c | .addino _ _ c
  | .addig _ _ c | .addie _ _ c | .addige _ _ c | .addil _ _ c | .addine _ _ c | .addile _ _ c
  | .addio _ _ c | .subino _ _ c | .subig _ _ c | .subie _ _ c | .subige _ _ c | .subil _ _ c
  | .subine _ _ c | .subile _ _ c | .subio _ _ c =>
    { regs := [c], ac := 0x100 }
  | .notbit _ _ c | .and _ _ c | .andnot _ _ c | .setbit _ _ c | .notand _ _ c | .filler585 _ _ c
  | .xor _ _ c | .or _ _ c | .nor _ _ c | .xnor _ _ c | .ornot _ _ c | .clrbit _ _ c | .notor _ _ c
  | .nand _ _ c | .alterbit _ _ c | .addo _ _ c | .subo _ _ c | .shro _ _ c | .shrdi _ _ c
  | .shri _ _ c | .shlo _ _ c | .rotate _ _ c | .eshro _ _ c | .modify _ _ c | .extract _ _ c
  | .mulo _ _ c | .remo _ _ c | .divo _ _ c | .remi _ _ c | .modi _ _ c | .addono _ _ c
  | .addog _ _ c | .addoe _ _ c | .addoge _ _ c | .addol _ _ c | .addone _ _ c | .addole _ _ c
  | .addoo _ _ c | .subono _ _ c | .subog _ _ c | .suboe _ _ c | .suboge _ _ c | .subol _ _ c
  | .subone _ _ c | .subole _ _ c | .suboo _ _ c | .selno _ _ c | .selg _ _ c | .sele _ _ c
  | .selge _ _ c | .sell _ _ c | .selne _ _ c | .selle _ _ c | .selo _ _ c =>
    { regs := [c] }
  | .not _ c | .bswap _ c | .mov _ c =>
    { regs := [c] }
  | .balx _ c | .lda _ c | .ldob _ c | .ldos _ c | .ldib _ c | .ldis _ c | .ld _ c =>
    { regs := [c] }
  | .movl _ c =>
    { regs := groupRegs c 2 }
  | .ldl _ c =>
    { regs := groupRegs c 2 }
  | .movt _ c | .ldt _ c =>
    { regs := groupRegs c 3 }
  | .movq _ c | .ldq _ c =>
    { regs := groupRegs c 4 }
  | .emul _ _ c | .ediv _ _ c =>
    { regs := groupRegs c 2 }
  | .atmod a _ c | .atadd a _ c =>
    { regs := [c], bytes := span (srcValue s a &&& ~~~3#32) 4 }
  | .stob _ m => { bytes := span (efa s m) 1 }
  | .stos _ m => { bytes := span (efa s m) 2 }
  | .st _ m => { bytes := span (efa s m) 4 }
  | .stl _ m => { bytes := span (efa s m) 8 }
  | .stt _ m => { bytes := span (efa s m) 12 }
  | .stq _ m => { bytes := span (efa s m) 16 }
  | .stib _ m => { ac := 0x100, bytes := span (efa s m) 1 }
  | .stis _ m => { ac := 0x100, bytes := span (efa s m) 2 }

/-! ### Conditions and values -/

/-- The condition `cc` (R132) holds of AC, as the table of R231 has it. -/
abbrev ConditionTrue (cc : Nat) (ac : Word) : Prop :=
  (cc = 0 ∧ ac.toNat % 8 = 0) ∨ (cc ≠ 0 ∧ cc &&& (ac.toNat % 8) ≠ 0)

/-- Less 4, equal 2, greater 1 (R226), of exact integers. -/
def orderCode (x y : Int) : BitVec 3 := if x < y then 4 else if x = y then 2 else 1

/-- The signed 32-bit range (R207). -/
abbrev FitsWord (r : Int) : Prop := -2147483648 ≤ r ∧ r ≤ 2147483647

/-- The signed 16-bit range (R209). -/
abbrev FitsShort (r : Int) : Prop := -32768 ≤ r ∧ r ≤ 32767

/-- The signed 8-bit range (R209). -/
abbrev FitsByte (r : Int) : Prop := -128 ≤ r ∧ r ≤ 127

/-- The `n` bytes from `addr` up as one number, the lowest byte least significant (R82, R85). -/
def State.valueAt (s : State) (addr : Word) : Nat → Nat
  | 0 => 0
  | n + 1 => (s.byteAt addr).toNat + 256 * State.valueAt s (addr + 1) n

/-- The memory port takes an access of `n` bytes at `addr` (R90). -/
abbrev Accessible (s : State) (addr : Word) (n : Nat) : Prop :=
  s.params.misalignedData = .compose ∨ addr.toNat % n = 0

/-- The supervisor-only operations (R51): `intdis`, `inten`, and `modpc` with a mask that is not 0. -/
def Privileged (s : State) (i : Instr) : Prop :=
  i = .intdis ∨ i = .inten ∨ ∃ a b c, i = .modpc a b c ∧ srcValue s b ≠ 0

/-- The overflow conditions of the table of R763. -/
def OverflowDetected (s : State) (i : Instr) : Prop :=
  (∃ a b c, ¬FitsWord ((srcValue s a).toInt + (srcValue s b).toInt) ∧ (i = .addi a b c ∨
    ∃ p ∈ ([(0, .addino), (1, .addig), (2, .addie), (3, .addige), (4, .addil), (5, .addine),
      (6, .addile), (7, .addio)] : List (Nat × (Src → Src → Reg → Instr))),
      ConditionTrue p.1 s.ac ∧ i = p.2 a b c)) ∨
  (∃ a b c, ¬FitsWord ((srcValue s b).toInt - (srcValue s a).toInt) ∧ (i = .subi a b c ∨
    ∃ p ∈ ([(0, .subino), (1, .subig), (2, .subie), (3, .subige), (4, .subil), (5, .subine),
      (6, .subile), (7, .subio)] : List (Nat × (Src → Src → Reg → Instr))),
      ConditionTrue p.1 s.ac ∧ i = p.2 a b c)) ∨
  (∃ a b c, i = .shli a b c ∧
    if (srcValue s a).toNat < 32 then
      ¬FitsWord ((srcValue s b).toInt * 2 ^ (srcValue s a).toNat)
    else srcValue s b ≠ 0) ∨
  (∃ a b c, i = .muli a b c ∧ ¬FitsWord ((srcValue s a).toInt * (srcValue s b).toInt)) ∨
  (∃ a b c, i = .divi a b c ∧ srcValue s b = 0x80000000 ∧ srcValue s a = 0xFFFFFFFF) ∨
  (∃ c m, (i = .stib c m ∧ ¬FitsByte (s.reg c).toInt) ∨
    (i = .stis c m ∧ ¬FitsShort (s.reg c).toInt))

/-! ### Outcomes -/

/-- The length of an instruction in bytes (R125). -/
def lengthOf (i : Instr) : Word := BitVec.ofNat 32 (4 * (encode i).length)

/-- An outcome with `f` applied to the state in it. -/
def mapState (f : State → State) : Result → Result
  | .next t => .next (f t)
  | .fault (.raised e p u) => .fault (.raised e p (f u))
  | .fault (.callsHandler code u) => .fault (.callsHandler code (f u))
  | .fault .stuckOnLock => .fault .stuckOnLock
  | .refused r => .refused r

/-- The overflow policy (R762) for a 4-byte instruction whose exact result is `r` and whose
destination is `c`: `r` where it fits, else its low 32 bits with OF set where OM masks the overflow,
else the IntegerOverflow fault, the result written before it or not as `OverflowWrite` says. -/
def ChecksOverflow (i : Instr) (r : Int) (c : Reg) (s : State) : Prop :=
  (FitsWord r → ∃ t, exec i s = .next t ∧ (t.reg c).toInt = r ∧ t.ip = s.ip + 4 ∧
    Frame { regs := [c] } s t) ∧
  (¬FitsWord r → omOf s.ac = true → ∃ t, exec i s = .next t ∧ t.reg c = BitVec.ofInt 32 r ∧
    ofOf t.ac = true ∧ t.ip = s.ip + 4 ∧ Frame { regs := [c], ac := 0x100 } s t) ∧
  (¬FitsWord r → omOf s.ac = false → ∃ u, exec i s = .fault (.raised .integerOverflow s.ip u) ∧
    u.reg c = (if s.params.overflowWrite = .written then BitVec.ofInt 32 r else s.reg c) ∧
    u.ip = s.ip + 4 ∧ Frame { regs := [c] } s u)

/-- The overflow policy (R762) for `stib` and `stis`, which store `n` bytes: the value fits, or it
overflows and is masked, or it overflows and faults, the bytes stored before it or not as
`OverflowWrite` says. -/
def StoreChecksOverflow (i : Instr) (fits : Prop) (n : Nat) (c : Reg) (m : MemOperand) (s : State) :
    Prop :=
  let e := efa s m
  let stores (t : State) : Prop :=
    (∀ k < n, t.byteAt (e + BitVec.ofNat 32 k) = (s.reg c).extractLsb' (8 * k) 8) ∧
      t.ip = s.ip + lengthOf i
  (fits → ∃ t, exec i s = .next t ∧ stores t ∧ Frame { bytes := span e n } s t) ∧
  (¬fits → omOf s.ac = true → ∃ t, exec i s = .next t ∧ stores t ∧ ofOf t.ac = true ∧
    Frame { ac := 0x100, bytes := span e n } s t) ∧
  (¬fits → omOf s.ac = false → s.params.overflowWrite = .written →
    ∃ u, exec i s = .fault (.raised .integerOverflow s.ip u) ∧ stores u ∧
      Frame { bytes := span e n } s u) ∧
  (¬fits → omOf s.ac = false → s.params.overflowWrite = .unchanged →
    exec i s = .fault (.raised .integerOverflow s.ip (s.setIp (s.ip + lengthOf i))))

/-! ### Words that are no instruction -/

/-- The REG indices R162 names, the filler 0x585 among them. -/
def namedRegIndices : List Nat :=
  [0x580, 0x581, 0x582, 0x583, 0x584, 0x585, 0x586, 0x587, 0x588, 0x589, 0x58A, 0x58B, 0x58C, 0x58D,
  0x58E, 0x58F, 0x590, 0x591, 0x592, 0x593, 0x594, 0x595, 0x596, 0x597, 0x598, 0x59A, 0x59B, 0x59C,
  0x59D, 0x59E, 0x5A0, 0x5A1, 0x5A2, 0x5A3, 0x5A4, 0x5A5, 0x5A6, 0x5A7, 0x5AC, 0x5AD, 0x5AE, 0x5B0,
  0x5B2, 0x5B4, 0x5B5, 0x5CC, 0x5D8, 0x5DC, 0x5EC, 0x5FC, 0x610, 0x612, 0x640, 0x641, 0x645, 0x650,
  0x651, 0x654, 0x655, 0x660, 0x66B, 0x66C, 0x66D, 0x66F, 0x670, 0x671, 0x701, 0x708, 0x70B, 0x741,
  0x748, 0x749, 0x74B, 0x780, 0x781, 0x782, 0x783, 0x784, 0x790, 0x791, 0x792, 0x793, 0x794, 0x7A0,
  0x7A1, 0x7A2, 0x7A3, 0x7A4, 0x7B0, 0x7B1, 0x7B2, 0x7B3, 0x7B4, 0x7C0, 0x7C1, 0x7C2, 0x7C3, 0x7C4,
  0x7D0, 0x7D1, 0x7D2, 0x7D3, 0x7D4, 0x7E0, 0x7E1, 0x7E2, 0x7E3, 0x7E4, 0x7F0, 0x7F1, 0x7F2, 0x7F3,
  0x7F4]

/-- The MEM opcodes R163 names. -/
def namedMemOpcodes : List Nat :=
  [0x80, 0x82, 0x84, 0x85, 0x86, 0x88, 0x8A, 0x8C, 0x90, 0x92, 0x98, 0x9A, 0xA0, 0xA2, 0xB0, 0xB2,
  0xC0, 0xC2, 0xC8, 0xCA]

/-- R170: the first words that raise invalid opcode, read off as numbers. -/
abbrev InvalidWord (w : Word) : Prop :=
  let n := w.toNat
  let op := n / 2 ^ 24
  (op < 0x20 ∧ (op < 0x08 ∨ (0x0C ≤ op ∧ op < 0x10) ∨ n % 2 = 1)) ∨
    (0x20 ≤ op ∧ op < 0x40 ∧ ((0x28 ≤ op ∧ op < 0x30) ∨ n % 2 = 1)) ∨
    (0x40 ≤ op ∧ op < 0x80 ∧ 16 * op + n / 2 ^ 7 % 16 ∉ namedRegIndices) ∨
    (0x80 ≤ op ∧ (n / 2 ^ 10 % 16 = 6 ∨ op ∉ namedMemOpcodes))

end Sys2Proof.Machine
end

