-- ==== Sys2Proof/WellFormed.lean ====
section
/-! DEFINITION. Well-formed instructions: the register-group conditions of R142. The decoder enforces
none of them (R142); an instruction that breaks one is refused when it is executed (R500). -/

namespace Sys2Proof

/-- R142: a register that may name a group of two. -/
def Reg.evenGroup (r : Reg) : Bool := r.toNat % 2 == 0

/-- R142: a register that may name a group of three or four. -/
def Reg.quadGroup (r : Reg) : Bool := r.toNat % 4 == 0

/-- R142: a group source is a register, and one that may name the group. -/
def Src.group (ok : Reg → Bool) : Src → Bool
  | .reg r => ok r
  | .lit _ => false

/-- R142: every register group the instruction names is a group. Every other instruction is well
formed. -/
def Instr.wf : Instr → Bool
  | .movl a c => a.group Reg.evenGroup && c.evenGroup
  | .movt a c => a.group Reg.quadGroup && c.quadGroup
  | .movq a c => a.group Reg.quadGroup && c.quadGroup
  | .eshro _ src _ => src.group (fun _ => true)
  | .emul _ _ c => c.evenGroup
  | .ediv _ src c => src.group Reg.evenGroup && c.evenGroup
  | .ldl _ c => c.evenGroup
  | .ldt _ c => c.quadGroup
  | .ldq _ c => c.quadGroup
  | .stl c _ => c.evenGroup
  | .stt c _ => c.quadGroup
  | .stq c _ => c.quadGroup
  | .b .. | .call .. | .ret | .bal .. | .bno .. | .bg .. | .be .. | .bge .. | .bl .. | .bne ..
  | .ble .. | .bo .. | .faultno | .faultg | .faulte | .faultge | .faultl | .faultne | .faultle
  | .faulto | .testno .. | .testg .. | .teste .. | .testge .. | .testl .. | .testne ..
  | .testle .. | .testo .. | .bbc .. | .cmpobg .. | .cmpobe .. | .cmpobge .. | .cmpobl ..
  | .cmpobne .. | .cmpoble .. | .bbs .. | .cmpibno .. | .cmpibg .. | .cmpibe .. | .cmpibge ..
  | .cmpibl .. | .cmpibne .. | .cmpible .. | .cmpibo .. | .notbit .. | .and .. | .andnot ..
  | .setbit .. | .notand .. | .filler585 .. | .xor .. | .or .. | .nor .. | .xnor .. | .not ..
  | .ornot .. | .clrbit .. | .notor .. | .nand .. | .alterbit .. | .addo .. | .addi .. | .subo ..
  | .subi .. | .cmpob .. | .cmpib .. | .cmpos .. | .cmpis .. | .shro .. | .shrdi .. | .shri ..
  | .shlo .. | .rotate .. | .shli .. | .cmpo .. | .cmpi .. | .concmpo .. | .concmpi ..
  | .cmpinco .. | .cmpinci .. | .cmpdeco .. | .cmpdeci .. | .scanbyte .. | .bswap .. | .chkbit ..
  | .addc .. | .subc .. | .intdis | .inten | .mov .. | .atmod .. | .atadd .. | .spanbit ..
  | .scanbit .. | .modac .. | .modify .. | .extract .. | .modtc .. | .modpc .. | .calls ..
  | .mark | .fmark | .flushreg | .syncf | .mulo .. | .remo .. | .divo .. | .muli .. | .remi ..
  | .modi .. | .divi .. | .addono .. | .addino .. | .subono .. | .subino .. | .selno ..
  | .addog .. | .addig .. | .subog .. | .subig .. | .selg .. | .addoe .. | .addie .. | .suboe ..
  | .subie .. | .sele .. | .addoge .. | .addige .. | .suboge .. | .subige .. | .selge ..
  | .addol .. | .addil .. | .subol .. | .subil .. | .sell .. | .addone .. | .addine ..
  | .subone .. | .subine .. | .selne .. | .addole .. | .addile .. | .subole .. | .subile ..
  | .selle .. | .addoo .. | .addio .. | .suboo .. | .subio .. | .selo .. | .ldob .. | .stob ..
  | .bx .. | .balx .. | .callx .. | .ldos .. | .stos .. | .lda .. | .ld .. | .st .. | .ldib ..
  | .stib .. | .ldis .. | .stis .. => true

end Sys2Proof
end

