-- ==== Sys2Proof/Certificates/Slice0/Obligations.lean ====
section
/-! DEFINITION. The statements for the provers, each a numbered rule of the spec or what follows from
several; OBLIGATIONS.json says which. -/

open Sys2Proof Sys2Proof.Machine Sys2Proof.Config

/-- The bytes of b, testl, addi, notbit with a literal, lda with base, scaled index and
displacement, and stib, written out from the field tables and the spec's examples, decode to those
instructions with those operands. (30_encoding.md sections 2 to 6, 41_ctrl.md section 3, 49_mem.md
section 1.) -/
def Obligations.WrittenWordsDecode : Prop :=
  decode [0x00, 0x01, 0x00, 0x08] = .ok (.b 0x40, []) ∧
    decode [0x00, 0x00, 0x30, 0x24] = .ok (.testl 6, []) ∧
    decode [0x84, 0x40, 0x31, 0x59] = .ok (.addi (.reg 4) (.reg 5) 6, []) ∧
    decode [0x05, 0x48, 0x31, 0x58] = .ok (.notbit (.lit 5) (.reg 5) 6, []) ∧
    decode [0x06, 0x7D, 0x39, 0x8C, 0x00, 0x01, 0x00, 0x00] =
      .ok (.lda (.baseIndexDisp 5 6 2 0x100) 7, []) ∧
    decode [0x00, 0x60, 0x41, 0xC2] = .ok (.stib 8 (.baseOffset 5 0), [])

/-- For every instruction, with every operand at every value its encoding admits, decoding its
bytes followed by any bytes gives the instruction and those bytes. (30_encoding.md sections 1 to
6.) -/
def Obligations.DecodeEncodeAgree : Prop :=
  ∀ (i : Instr) (rest : List Byte), decode (encodeBytes i ++ rest) = .ok (i, rest)

/-- Neither the instruction decoded nor its length depends on: the T bit of CTRL and COBR; the
displacement of ret and fault<cc>; the fields test<cc> does not use; M3, S1 and S2 of REG and the
REG fields an instruction does not use (fb and M2 of not, bswap, the moves, spanbit and scanbit,
fc of the compares that write no register, scanbyte and chkbit, both of calls, all of the
instructions with no operands); bits 6:5 of MEMB, the abase, index and scale a MEM mode does not
use, and fc of bx and callx. (Operand a of modpc is kept by the syntax and read by no meaning:
ModpcExchangesPc.) (30_encoding.md sections 2 to 5 and 7, 41_ctrl.md sections 3 and 5, 42_cobr.md
section 2, 45_reg_compare_misc.md sections 1 to 3, 46_reg_move_atomic.md section 2,
47_reg_bitfield_system.md sections 1, 3 and 4, 49_mem.md sections 1 and 2.) -/
def Obligations.IgnoredBitsDoNotMatter : Prop :=
  ∀ w v d : Word,
    let same : Prop := decodeWords w d = decodeWords v d ∧ instrLength w = instrLength v
    ((opField w).toNat < 0x40 → w &&& ~~~0x2#32 = v &&& ~~~0x2#32 → same) ∧
      ((opField w = 0x0A ∨ (0x18 ≤ (opField w).toNat ∧ (opField w).toNat < 0x20)) →
        w &&& 0xFF000001#32 = v &&& 0xFF000001#32 → same) ∧
      (0x20 ≤ (opField w).toNat → (opField w).toNat < 0x28 →
        w &&& 0xFFF80001#32 = v &&& 0xFFF80001#32 → same) ∧
      (0x40 ≤ (opField w).toNat → (opField w).toNat < 0x80 →
        w &&& ~~~0x2060#32 = v &&& ~~~0x2060#32 → same) ∧
      (∀ p ∈ ([([0x58A, 0x5AD, 0x5CC, 0x5DC, 0x5EC, 0x5FC, 0x640, 0x641], 0x7F060),
          ([0x594, 0x595, 0x596, 0x597, 0x5A0, 0x5A1, 0x5A2, 0x5A3, 0x5AC, 0x5AE], 0xF82060),
          ([0x660], 0xFFF060), ([0x5B4, 0x5B5, 0x66B, 0x66C, 0x66D, 0x66F], 0xFFF87F)] :
          List (List (BitVec 12) × Word)),
        regIndex w ∈ p.1 → w &&& ~~~p.2 = v &&& ~~~p.2 → same) ∧
      (∀ p ∈ ([([0x0, 0x1, 0x2, 0x3], 0x7C000), ([0x4, 0xD], 0x3FF), ([0x5, 0xC], 0x7C3FF),
          ([0xE], 0x7C060), ([0x6, 0x7, 0xF], 0x60)] : List (List (BitVec 4) × Word)),
        0x80 ≤ (opField w).toNat → modeField w ∈ p.1 → w &&& ~~~p.2 = v &&& ~~~p.2 → same) ∧
      (opField w = 0x84 ∨ opField w = 0x86 →
        w &&& ~~~0xF80000#32 = v &&& ~~~0xF80000#32 → same)

/-- An instruction is 8 bytes exactly where bits 31 and 12 of its first word are set and the mode
is 0x5, 0xC, 0xD, 0xE or 0xF, and 4 bytes otherwise. (R127.) -/
def Obligations.LengthFromFirstWord : Prop :=
  ∀ w : Word, instrLength w =
    if w.getLsbD 31 = true ∧ w.getLsbD 12 = true ∧
        w.extractLsb' 10 4 ∈ [0x5#4, 0xC#4, 0xD#4, 0xE#4, 0xF#4] then 8 else 4

/-- At an aligned ip where the run has not ended and no call is pending: where the word fetched is
one of the reserved encodings, the step raises InvalidOpcode and only ip has changed; every other
word decodes to an instruction. (R170.) -/
def Obligations.InvalidOpcodesAreExactlyTheReserved : Prop :=
  ∀ s : State, s.callsPort = none → s.haltIp ≠ some s.ip → s.ip.toNat % 4 = 0 →
    let w := s.mem.load s.ip .word
    (InvalidWord w → step s = .fault (.raised .invalidOpcode s.ip
      (s.setIp (s.ip + BitVec.ofNat 32 (instrLength w))))) ∧
    (¬InvalidWord w → ∃ i rest, decode s.fetchBytes = .ok (i, rest))

/-- Where no call is pending, the run has not ended, ip is aligned and the bytes at ip decode to
an instruction, the step is exec of that instruction at that state: nothing is added around it
(exec itself advances ip). (30_encoding.md section 1, 70_reset_and_hazards.md section 3.) -/
def Obligations.StepRunsTheDecodedInstruction : Prop :=
  ∀ (s : State) (i : Instr) (rest : List Byte), s.callsPort = none → s.haltIp ≠ some s.ip →
    s.ipAligned = true → decode s.fetchBytes = .ok (i, rest) → step s = exec i s

/-- Where no call is pending, the run has not ended, ip is aligned and the bytes of an
instruction's encoding stand in memory from ip up, the step is exec of that instruction.
(30_encoding.md section 1, 20_memory.md section 2, 70_reset_and_hazards.md section 3.) -/
def Obligations.EncodedInstructionRuns : Prop :=
  ∀ (s : State) (i : Instr), s.callsPort = none → s.haltIp ≠ some s.ip → s.ip.toNat % 4 = 0 →
    (∀ k (h : k < (encodeBytes i).length),
      s.byteAt (s.ip + BitVec.ofNat 32 k) = (encodeBytes i)[k]) →
    step s = exec i s

/-- Where no call is pending and the run has not ended, a step at an ip with low bits set is
refused UnalignedFetch. The bytes fetched are those at ip, ip+1, and so on for the length; the
displacement word is at ip + 4, aligned where ip is. (R93.) -/
def Obligations.FetchNeedsAnAlignedIp : Prop :=
  ∀ s : State,
    (s.callsPort = none → s.haltIp ≠ some s.ip → s.ip.toNat % 4 ≠ 0 →
      step s = .refused .unalignedFetch) ∧
    s.fetchBytes =
      (List.range s.fetchLength).map (fun k => s.byteAt (s.ip + BitVec.ofNat 32 k)) ∧
    (s.ip.toNat % 4 = 0 → (s.ip + 4).toNat % 4 = 0)

/-- Where st stores to the address of the next instruction a word that is a 4-byte instruction,
the step after it runs the instruction that word decodes to, with no fence. (The run has not ended
there and no call is pending.) (20_memory.md section 6, 70_reset_and_hazards.md section 4.) -/
def Obligations.StoreIsSeenByTheNextFetch : Prop :=
  ∀ (s : State) (c : Reg) (m : MemOperand) (i : Instr), s.callsPort = none →
    efa s m = s.ip + lengthOf (.st c m) → (efa s m).toNat % 4 = 0 →
    s.haltIp ≠ some (efa s m) → encode i = [s.reg c] →
    ∃ t, exec (.st c m) s = .next t ∧ step t = exec i t

/-- The model's choices (log 7, log 4, log 5): at halt_ip, with no call pending, a step changes
nothing. A pending call is answered by the handler: its core registers and stores are taken and
the port is empty, or the step ends with the fault it answers, in the state of the hand-off with
the port empty. (70_reset_and_hazards.md section 3, 60_exceptions.md section 5.) -/
def Obligations.RunBoundaries : Prop :=
  ∀ s : State,
    (s.callsPort = none → s.haltIp = some s.ip → step s = .next s) ∧
    ∀ v, s.callsPort = some v →
      (∀ core stores, callsHandler v s.core s.mem = .resume core stores →
        ∃ t, step s = .next t ∧ t.core = core ∧ t.callsPort = none ∧
          t.mem = s.mem.storeCells stores ∧ t.lockHeld = s.lockHeld ∧ t.haltIp = s.haltIp ∧
          t.params = s.params) ∧
      (∀ code, callsHandler v s.core s.mem = .fault code →
        step s = .fault (.callsHandler code { s with callsPort := none }))

/-- calls completes with the full 32-bit value of its operand, register or literal, at the
supervisor-call port and ip past it; nothing else changes. (That the port is a field of State read
by the next step is the model's choice, log 4.) (47_reg_bitfield_system.md section 4, 00_scope.md
sections 1.2 and 6.) -/
def Obligations.CallsHandsItsOperandToTheEnvironment : Prop :=
  ∀ (a : Src) (s : State), ∃ t, exec (.calls a) s = .next t ∧
    t.callsPort = some (srcValue s a) ∧ t.ip = s.ip + 4 ∧ Frame { port := true } s t

/-- After reset the memory lock is not held (the spec's value); every register, ip, AC, PC and TC
are 0 and every byte reads 0 (the model's choices, log 1 and log 2); the parameters are the spec's
defaults and no end address is set (log 3). (10_state.md section 8, 70_reset_and_hazards.md
section 1.) -/
def Obligations.ResetValues : Prop :=
  State.reset.lockHeld = false ∧ (∀ r : Reg, State.reset.reg r = 0) ∧ State.reset.ip = 0 ∧
    State.reset.ac = 0 ∧ State.reset.pc = 0 ∧ State.reset.tc = 0 ∧
    (∀ a : Word, State.reset.byteAt a = 0) ∧ State.reset.params = Params.default ∧
    State.reset.haltIp = none ∧ State.reset.callsPort = none

/-- The state after reset has a free memory lock, and a memory in its canonical form. The
canonical form is the model's choice, log 2: the spec gives memory no representation. (10_state.md
sections 7 and 8.) -/
def Obligations.ResetMeetsTheInvariant : Prop :=
  State.reset.Inv

/-- From every state whose memory is in its canonical form and whose lock is free, a step that
answers a next state answers one with a canonical memory and a free lock, whatever the instruction
and whatever the environment answers to a call. The canonical form is the model's choice, log 2;
that no answer takes the lock, and that an answer's stores are written byte by byte as the core's
are, is the model's choice, log 5. (10_state.md section 7, 20_memory.md section 6,
60_exceptions.md section 5.) -/
def Obligations.StepKeepsTheInvariant : Prop :=
  ∀ s t : State, s.Inv → step s = .next t → t.Inv

/-- Whatever the instruction and its operands, a next state of exec differs from the state before
only in ip and in what scope lists for the instruction: its destination registers, the control
register bits it writes, the bytes it stores (their addresses computed from the state before), the
supervisor-call port for calls. (10_state.md sections 1, 3, 4 and 5, 20_memory.md section 1.) -/
def Obligations.EveryInstructionKeepsToItsScope : Prop :=
  ∀ (i : Instr) (s t : State), exec i s = .next t → Frame (scope s i) s t

/-- If an instruction changes PC, it is modpc with a mask that is not 0 and PC.EM is 1; in user
mode no instruction changes PC. (10_state.md section 4, 60_exceptions.md section 6.) -/
def Obligations.OnlyModpcWritesPcAndOnlyInSupervisorMode : Prop :=
  ∀ (i : Instr) (s t : State), exec i s = .next t → t.pc ≠ s.pc →
    emOf s.pc = true ∧ ∃ a b c, i = .modpc a b c ∧ srcValue s b ≠ 0

/-- In user mode intdis, inten and modpc with a mask that is not 0 raise TypeMismatch and only ip
has changed; no other instruction, and none in supervisor mode, raises it. (R764.) -/
def Obligations.SupervisorCheckIsExactlyThePrivileged : Prop :=
  ∀ (i : Instr) (s : State),
    (Privileged s i → s.pc.getLsbD 1 = false →
      exec i s = .fault (.raised .typeMismatch s.ip (s.setIp (s.ip + 4)))) ∧
    (¬(Privileged s i ∧ s.pc.getLsbD 1 = false) →
      ∀ p u, exec i s ≠ .fault (.raised .typeMismatch p u))

/-- An instruction that completes and clears OF is modac; one that completes and sets OF is modac,
or it is one of the table of R763, its overflow condition holds, and OM is set. An instruction
that faults leaves OF as it was. (R43.) -/
def Obligations.OverflowFlagIsSticky : Prop :=
  ∀ (i : Instr) (s : State),
    (∀ t, exec i s = .next t → ofOf s.ac = true → ofOf t.ac = false →
      ∃ a b c, i = .modac a b c) ∧
    (∀ t, exec i s = .next t → ofOf s.ac = false → ofOf t.ac = true →
      (omOf s.ac = true ∧ OverflowDetected s i) ∨ ∃ a b c, i = .modac a b c) ∧
    (∀ e p u, exec i s = .fault (.raised e p u) → ofOf u.ac = ofOf s.ac)

/-- Every instruction but modtc does the same whatever TC holds and leaves TC as it was; modtc
exchanges it under its mask, all 32 bits storable, and returns the old value. (R55.) -/
def Obligations.TraceControlsHaveNoEffect : Prop :=
  (∀ (i : Instr) (s : State) (v : Word), (∀ a b c, i ≠ .modtc a b c) →
    exec i (s.setTc v) = mapState (fun t => t.setTc v) (exec i s)) ∧
  (∀ (a b : Src) (c : Reg) (s : State), ∃ t, exec (.modtc a b c) s = .next t ∧
    (∀ k < 32, t.tc.getLsbD k =
      if (srcValue s a).getLsbD k then (srcValue s b).getLsbD k else s.tc.getLsbD k) ∧
    t.reg c = s.tc ∧ t.ip = s.ip + 4 ∧ Frame { regs := [c], tc := BitVec.allOnes 32 } s t)

/-- Every instruction but modpc does the same in two states whose PC differs outside EM (TE, TFP,
S, PRI and the unnamed bits), and every instruction but modac in two whose AC differs outside CC,
OF and OM (NIF and the unnamed bits); the bits stay as they were. (10_state.md sections 3 and 4,
60_exceptions.md section 4.) -/
def Obligations.StorageOnlyControlBitsHaveNoEffect : Prop :=
  (∀ (i : Instr) (s : State) (v : Word), (∀ a b c, i ≠ .modpc a b c) →
    v.getLsbD 1 = s.pc.getLsbD 1 →
    exec i (s.setPc v) = mapState (fun t => t.setPc v) (exec i s)) ∧
  (∀ (i : Instr) (s : State) (m : Word), (∀ a b c, i ≠ .modac a b c) → m &&& 0x1107#32 = 0 →
    exec i (s.setAc (s.ac ^^^ m)) = mapState (fun t => t.setAc (t.ac ^^^ m)) (exec i s))

/-- If CC is 0, 1, 2 or 4 before an instruction other than addc, subc and modac that completes, it
is one of them after; and every instruction but modac preserves the bits of AC outside CC and OF.
(10_state.md section 3, 40_primitives.md section 3.) -/
def Obligations.ConditionCodeStaysOneOfTheFourValues : Prop :=
  ∀ (i : Instr) (s t : State), exec i s = .next t → (∀ a b c, i ≠ .modac a b c) →
    t.ac &&& ~~~0x107#32 = s.ac &&& ~~~0x107#32 ∧
      ((∀ a b c, i ≠ .addc a b c) → (∀ a b c, i ≠ .subc a b c) →
        ccOf s.ac ∈ [0#3, 1#3, 2#3, 4#3] → ccOf t.ac ∈ [0#3, 1#3, 2#3, 4#3])

/-- From an ip that is word aligned every instruction but ret, bx, balx and callx, whose target is
a value of a register or of memory, leaves ip word aligned. (10_state.md section 2, 41_ctrl.md
section 1, 42_cobr.md section 1.) -/
def Obligations.TransfersByDisplacementStayAligned : Prop :=
  ∀ (i : Instr) (s t : State), exec i s = .next t → s.ip.toNat % 4 = 0 → i ≠ .ret →
    (∀ m, i ≠ .bx m) → (∀ m c, i ≠ .balx m c) → (∀ m, i ≠ .callx m) → t.ip.toNat % 4 = 0

/-- A step that raises a fault names the instruction's address and leaves ip past it. Every fault
but IntegerOverflow changes nothing else. IntegerOverflow leaves nothing else changed under
OverflowWrite = unchanged; under written it leaves what the instruction does with the overflow
masked, but for AC, which is unchanged. Only stib and stis have written memory. (R766.) -/
def Obligations.FaultsLeaveWhatWasCommitted : Prop :=
  ∀ (s : State) (e : FaultType) (p : Word) (u : State), step s = .fault (.raised e p u) →
    p = s.ip ∧ u.ip = s.ip + BitVec.ofNat 32 s.fetchLength ∧
    (e ≠ .integerOverflow → u = s.setIp u.ip) ∧
    (e = .integerOverflow → s.params.overflowWrite = .unchanged → u = s.setIp u.ip) ∧
    (e = .integerOverflow → s.params.overflowWrite = .written →
      ∃ i rest t, decode s.fetchBytes = .ok (i, rest) ∧
        exec i (s.setAc (s.ac ||| 0x1000#32)) = .next t ∧ u = t.setAc s.ac ∧
        ((∃ c m, i = .stib c m ∨ i = .stis c m) ∨ u.mem = s.mem))

/-- exec refuses an instruction only as RetVariant (ret with PFP[2:0] not 0), as UnalignedGroup or
LiteralGroup (an ill-formed register group), as EdivQuotientOverflow (ediv), or as MisalignedData
where that parameter is refuse; and it is stuck only in an atomic instruction while the lock is
held. (That the stuck step is an outcome of its own, the fault stuckOnLock, is the model's reading
of R103, log 8.) (00_scope.md section 6, 20_memory.md sections 3 and 6, 30_encoding.md section 4,
41_ctrl.md section 2, 46_reg_move_atomic.md sections 1 to 3, 48_reg_muldiv_cond.md section 1,
60_exceptions.md sections 4 and 5.) -/
def Obligations.RefusalsAreTheClosedList : Prop :=
  ∀ (i : Instr) (s : State),
    (∀ r, exec i s = .refused r →
      (r = .retVariant ∧ i = .ret ∧ (s.reg .pfp).extractLsb' 0 3 ≠ 0) ∨
      ((r = .unalignedGroup ∨ r = .literalGroup) ∧ i.wf = false) ∨
      (r = .edivQuotientOverflow ∧ ∃ a b c, i = .ediv a b c) ∨
      (r = .misalignedData ∧ s.params.misalignedData = .refuse)) ∧
    (exec i s = .fault .stuckOnLock →
      s.lockHeld = true ∧ ∃ a b c, i = .atmod a b c ∨ i = .atadd a b c)

/-- The instruction is refused LiteralGroup where a group source is a literal, else UnalignedGroup
where a group register is odd (two words) or no multiple of 4 (three, four), exactly where it is
not well formed; a well-formed one is refused for neither reason. eshro refuses a literal b and no
register. (That an ill-formed instruction decodes and the step refuses it, a literal first, is log
15.) (30_encoding.md section 4, 46_reg_move_atomic.md sections 1 to 3, 48_reg_muldiv_cond.md
section 1, 49_mem.md sections 3 and 4, 60_exceptions.md section 4.) -/
def Obligations.IllFormedGroupsAreRefused : Prop :=
  ∀ (i : Instr) (s : State),
    (i.wf = false → exec i s = .refused .literalGroup ∨ exec i s = .refused .unalignedGroup) ∧
    (i.wf = true → exec i s ≠ .refused .literalGroup ∧ exec i s ≠ .refused .unalignedGroup) ∧
    (exec i s = .refused .literalGroup ↔
      ∃ (a : Src) (v : BitVec 5) (c : Reg), i = .movl (.lit v) c ∨ i = .movt (.lit v) c ∨
        i = .movq (.lit v) c ∨ i = .eshro a (.lit v) c ∨ i = .ediv a (.lit v) c)

/-- The codes of InvalidOpcode, IntegerOverflow, DivisionByZero, ConstraintRange and TypeMismatch
are the table's, and each packs the type in its high 16 bits and the subtype in its low 16.
(60_exceptions.md section 1.) -/
def Obligations.FaultCodes : Prop :=
  [FaultType.invalidOpcode, .integerOverflow, .divisionByZero, .constraintRange,
      .typeMismatch].map (fun f => (f.code.toNat, f.code.toNat / 2 ^ 16, f.code.toNat % 2 ^ 16)) =
    [(0x00020001, 2, 1), (0x00030001, 3, 1), (0x00030002, 3, 2), (0x00050001, 5, 1),
      (0x000A0001, 10, 1)]

/-- After the word 0x11223344 is written at an address, the byte there is 0x44, the byte after it
0x33, the short there 0x3344 and the short two bytes on 0x1122, at every address and in every
memory. (R87.) -/
def Obligations.MixedWidthReadsAreLittleEndian : Prop :=
  ∀ (m : Memory) (a : Word),
    let n := m.store a .word 0x11223344
    n.load a .byte = 0x44 ∧ n.load (a + 1) .byte = 0x33 ∧ n.load a .short = 0x3344 ∧
      n.load (a + 2) .short = 0x1122

/-- For every first word, displacement word and state: mode 6 has no operand; in every other mode
the effective address is ip + 8 + disp in mode 5, else the sum of the base where F has bit 1, the
index shifted by the scale code where bit 0, and the displacement word or the 12-bit offset where
bit 2; and the length is 8 where F has bit 3. (30_encoding.md section 5, 49_mem.md section 1.) -/
def Obligations.EffectiveAddressFollowsTheModeTable : Prop :=
  ∀ (w disp : Word) (s : State),
    let mode := w.toNat / 2 ^ 10 % 16
    let f := [4, 4, 4, 4, 2, 8, 0, 3, 6, 6, 6, 6, 12, 14, 13, 15].getD mode 0
    (decodeMemOperand w disp = none ↔ mode = 6) ∧
    ∀ m, decodeMemOperand w disp = some m →
      memLength m = (if f.testBit 3 then 8 else 4) ∧
      efa s m =
        if mode = 5 then s.ip + 8 + disp
        else
          (if f.testBit 1 then s.reg (field14 w) else 0) +
            (if f.testBit 0 then s.reg (field0 w) <<< (w.toNat / 2 ^ 7 % 8) else 0) +
            (if f.testBit 2 then
              (if f.testBit 3 then disp else BitVec.ofNat 32 (w.toNat % 2 ^ 12)) else 0)

/-- With lo <= hi, comparing x with lo and then, conditionally, x with hi leaves CC 4 where x <
lo, 2 where lo <= x <= hi and 1 where x > hi, for the ordinal and for the integer pair of
instructions. (R228.) -/
def Obligations.RangeCheckIdiom : Prop :=
  ∀ (x lo hi : Src) (s : State),
    ((srcValue s lo).toNat ≤ (srcValue s hi).toNat → ∃ t u, exec (.cmpo x lo) s = .next t ∧ exec (.concmpo x hi) t = .next u ∧
        ((srcValue s x).toNat < (srcValue s lo).toNat → ccOf u.ac = 4) ∧
        ((srcValue s lo).toNat ≤ (srcValue s x).toNat → (srcValue s x).toNat ≤ (srcValue s hi).toNat → ccOf u.ac = 2) ∧
        ((srcValue s hi).toNat < (srcValue s x).toNat → ccOf u.ac = 1)) ∧
    ((srcValue s lo).toInt ≤ (srcValue s hi).toInt → ∃ t u, exec (.cmpi x lo) s = .next t ∧ exec (.concmpi x hi) t = .next u ∧
        ((srcValue s x).toInt < (srcValue s lo).toInt → ccOf u.ac = 4) ∧
        ((srcValue s lo).toInt ≤ (srcValue s x).toInt → (srcValue s x).toInt ≤ (srcValue s hi).toInt → ccOf u.ac = 2) ∧
        ((srcValue s hi).toInt < (srcValue s x).toInt → ccOf u.ac = 1))

/-- Setting a bit after clearing it gives the value with the bit set; inverting a bit twice gives
the value back; checking the bit after setting it gives CC 2, after clearing it CC 0. The position
operand is not the register written. (R204.) -/
def Obligations.BitPrimitiveLaws : Prop :=
  ∀ (p x : Src) (c : Reg) (s : State), p ≠ .reg c →
    (∃ t u v, exec (.clrbit p x c) s = .next t ∧ exec (.setbit p (.reg c) c) t = .next u ∧
      u.reg c = srcValue s x ||| 1#32 <<< ((srcValue s p).toNat % 32) ∧
      exec (.chkbit p (.reg c)) u = .next v ∧ ccOf v.ac = 2) ∧
    (∃ t u, exec (.clrbit p x c) s = .next t ∧ exec (.chkbit p (.reg c)) t = .next u ∧
      ccOf u.ac = 0) ∧
    (∃ t u, exec (.notbit p x c) s = .next t ∧ exec (.notbit p (.reg c) c) t = .next u ∧
      u.reg c = srcValue s x)

/-- b and bal go to ip plus the signed byte displacement, modulo 2^32; bal links ip + 4 in g14. bx
and balx go to the effective address; balx links the address of the next instruction in its
register. lda writes the effective address and goes on. Nothing else changes. (41_ctrl.md sections
1 and 3, 49_mem.md section 2.) -/
def Obligations.BranchesLinksAndAddresses : Prop :=
  (∀ (d : BitVec 22) (s : State), ∃ t, exec (.b d) s = .next t ∧
    t.ip = s.ip + BitVec.ofInt 32 (4 * d.toInt) ∧ Frame {} s t) ∧
  (∀ (d : BitVec 22) (s : State), ∃ t, exec (.bal d) s = .next t ∧
    t.ip = s.ip + BitVec.ofInt 32 (4 * d.toInt) ∧ t.reg 30 = s.ip + 4 ∧
    Frame { regs := [30] } s t) ∧
  (∀ (m : MemOperand) (s : State), ∃ t, exec (.bx m) s = .next t ∧ t.ip = efa s m ∧
    Frame {} s t) ∧
  (∀ (m : MemOperand) (c : Reg) (s : State), ∃ t, exec (.balx m c) s = .next t ∧
    t.ip = efa s m ∧ t.reg c = s.ip + lengthOf (.balx m c) ∧ Frame { regs := [c] } s t) ∧
  (∀ (m : MemOperand) (c : Reg) (s : State), ∃ t, exec (.lda m c) s = .next t ∧
    t.reg c = efa s m ∧ t.ip = s.ip + lengthOf (.lda m c) ∧ Frame { regs := [c] } s t)

/-- Each of the eight b<cc> goes to ip plus its displacement where the condition holds of CC by
the table, else on to the next instruction, and changes nothing else. Each of the eight test<cc>
writes 1 in its register where it holds, else 0, and changes nothing else. (41_ctrl.md section 4,
42_cobr.md section 2, 40_primitives.md section 3.) -/
def Obligations.ConditionalBranchesAndTests : Prop :=
  (∀ p ∈ ([(0, .bno), (1, .bg), (2, .be), (3, .bge), (4, .bl), (5, .bne), (6, .ble),
      (7, .bo)] : List (Nat × (BitVec 22 → Instr))),
    ∀ (d : BitVec 22) (s : State), ∃ t, exec (p.2 d) s = .next t ∧
      t.ip = (if ConditionTrue p.1 s.ac then s.ip + BitVec.ofInt 32 (4 * d.toInt)
        else s.ip + 4) ∧ Frame {} s t) ∧
  (∀ p ∈ ([(0, .testno), (1, .testg), (2, .teste), (3, .testge), (4, .testl), (5, .testne),
      (6, .testle), (7, .testo)] : List (Nat × (Reg → Instr))),
    ∀ (c : Reg) (s : State), ∃ t, exec (p.2 c) s = .next t ∧
      t.reg c = (if ConditionTrue p.1 s.ac then 1 else 0) ∧ t.ip = s.ip + 4 ∧
      Frame { regs := [c] } s t)

/-- Each of the eight fault<cc> raises ConstraintRange with only ip changed where the condition
holds of CC by the table; else it completes with only ip changed. (41_ctrl.md section 5,
60_exceptions.md sections 1 and 4.) -/
def Obligations.ConditionalFaults : Prop :=
  ∀ p ∈ ([(0, .faultno), (1, .faultg), (2, .faulte), (3, .faultge), (4, .faultl), (5, .faultne),
      (6, .faultle), (7, .faulto)] : List (Nat × Instr)), ∀ s : State,
    (ConditionTrue p.1 s.ac →
      exec p.2 s = .fault (.raised .constraintRange s.ip (s.setIp (s.ip + 4)))) ∧
    (¬ConditionTrue p.1 s.ac → ∃ t, exec p.2 s = .next t ∧ t.ip = s.ip + 4 ∧ Frame {} s t)

/-- bbc branches where bit a mod 32 of b is 0 and bbs where it is 1; CC is 2 where it branches and
0 where it goes on. Nothing else changes. (R302.) -/
def Obligations.BitTestBranches : Prop :=
  ∀ p ∈ ([(false, .bbc), (true, .bbs)] : List (Bool × (Src → Reg → BitVec 11 → Instr))),
    ∀ (a : Src) (b : Reg) (d : BitVec 11) (s : State),
      let found := (s.reg b).getLsbD ((srcValue s a).toNat % 32) = p.1
      ∃ t, exec (p.2 a b d) s = .next t ∧ ccOf t.ac = (if found then 2 else 0) ∧
        t.ip = (if found then s.ip + BitVec.ofInt 32 (4 * d.toInt) else s.ip + 4) ∧
        Frame { ac := 7 } s t

/-- Each writes 4, 2 or 1 in CC as a is less than, equal to or greater than b, as unsigned numbers
for cmpob and signed ones for cmpib, and branches where the condition shares a bit with that code:
cmpibno never, cmpibo always. Nothing else changes. (R301.) -/
def Obligations.CompareAndBranch : Prop :=
  (∀ p ∈ ([(1, .cmpobg), (2, .cmpobe), (3, .cmpobge), (4, .cmpobl), (5, .cmpobne),
      (6, .cmpoble)] : List (Nat × (Src → Reg → BitVec 11 → Instr))),
    ∀ (a : Src) (b : Reg) (d : BitVec 11) (s : State),
      let code := orderCode (srcValue s a).toNat (s.reg b).toNat
      ∃ t, exec (p.2 a b d) s = .next t ∧ ccOf t.ac = code ∧
        t.ip = (if p.1 &&& code.toNat ≠ 0 then s.ip + BitVec.ofInt 32 (4 * d.toInt)
          else s.ip + 4) ∧ Frame { ac := 7 } s t) ∧
  (∀ p ∈ ([(0, .cmpibno), (1, .cmpibg), (2, .cmpibe), (3, .cmpibge), (4, .cmpibl), (5, .cmpibne),
      (6, .cmpible), (7, .cmpibo)] : List (Nat × (Src → Reg → BitVec 11 → Instr))),
    ∀ (a : Src) (b : Reg) (d : BitVec 11) (s : State),
      let code := orderCode (srcValue s a).toInt (s.reg b).toInt
      ∃ t, exec (p.2 a b d) s = .next t ∧ ccOf t.ac = code ∧
        t.ip = (if p.1 &&& code.toNat ≠ 0 then s.ip + BitVec.ofInt 32 (4 * d.toInt)
          else s.ip + 4) ∧ Frame { ac := 7 } s t) ∧
  (∀ (a : Src) (b : Reg) (d : BitVec 11) (s : State),
    (∃ t, exec (.cmpibno a b d) s = .next t ∧ t.ip = s.ip + 4) ∧
    ∃ t, exec (.cmpibo a b d) s = .next t ∧ t.ip = s.ip + BitVec.ofInt 32 (4 * d.toInt))

/-- Each bitwise row gives, at every bit, the value of its truth table at the bits of a and b, the
filler that of its neighbour by Filler585; notbit, setbit, clrbit and alterbit act on bit a mod 32
of b (inverted, 1, 0, AC[1]) and pass the other bits through. Only the destination and ip change.
(R370.) -/
def Obligations.LogicTruthTables : Prop :=
  (∀ p ∈ ([(.and, fun a b => a && b), (.andnot, fun a b => b && !a), (.notand, fun a b => a && !b),
      (.xor, fun a b => a != b), (.or, fun a b => a || b), (.nor, fun a b => !(a || b)),
      (.xnor, fun a b => a == b), (fun a _ c => .not a c, fun a _ => !a), (.ornot, fun a b => b || !a),
      (.notor, fun a b => a || !b),
      (.nand, fun a b => !(a && b))] : List ((Src → Src → Reg → Instr) × (Bool → Bool → Bool))),
    ∀ (a b : Src) (c : Reg) (s : State), ∃ t, exec (p.1 a b c) s = .next t ∧
      (∀ k < 32, (t.reg c).getLsbD k = p.2 ((srcValue s a).getLsbD k) ((srcValue s b).getLsbD k)) ∧
      t.ip = s.ip + 4 ∧ Frame { regs := [c] } s t) ∧
  (∀ (a b : Src) (c : Reg) (s : State), ∃ t, exec (.filler585 a b c) s = .next t ∧
    (∀ k < 32, (t.reg c).getLsbD k =
      if s.params.filler585 = .notand then (srcValue s a).getLsbD k && !(srcValue s b).getLsbD k
      else (srcValue s a).getLsbD k != (srcValue s b).getLsbD k) ∧
    t.ip = s.ip + 4 ∧ Frame { regs := [c] } s t) ∧
  (∀ p ∈ ([(.notbit, fun old _ => !old), (.setbit, fun _ _ => true), (.clrbit, fun _ _ => false),
      (.alterbit, fun _ carry => carry)] : List ((Src → Src → Reg → Instr) × (Bool → Bool → Bool))),
    ∀ (a b : Src) (c : Reg) (s : State), ∃ t, exec (p.1 a b c) s = .next t ∧
      (∀ k < 32, (t.reg c).getLsbD k =
        if k = (srcValue s a).toNat % 32 then p.2 ((srcValue s b).getLsbD k) (s.ac.getLsbD 1)
        else (srcValue s b).getLsbD k) ∧
      t.ip = s.ip + 4 ∧ Frame { regs := [c] } s t)

/-- The destination holds the unsigned sum, the difference b - a, the product, modulo 2^32; no
flag and no other register changes and nothing faults. (44_reg_arith_shift.md section 1,
48_reg_muldiv_cond.md section 1.) -/
def Obligations.OrdinalArithmeticWraps : Prop :=
  ∀ p ∈ ([(.addo, fun a b => a + b), (.subo, fun a b => b - a), (.mulo, fun a b => a * b)] :
      List ((Src → Src → Reg → Instr) × (Int → Int → Int))),
    ∀ (a b : Src) (c : Reg) (s : State), ∃ t, exec (p.1 a b c) s = .next t ∧
      ((t.reg c).toNat : Int) = p.2 (srcValue s a).toNat (srcValue s b).toNat % 2 ^ 32 ∧
      t.ip = s.ip + 4 ∧ Frame { regs := [c] } s t

/-- Each addo<cc> and subo<cc> writes the sum, or b - a, modulo 2^32 where its condition holds of
CC by the table and else writes nothing; each sel<cc> writes b where it holds, else a. Nothing
else but ip changes. (48_reg_muldiv_cond.md section 2, 40_primitives.md section 3.) -/
def Obligations.ConditionalOrdinalArithmeticAndSelect : Prop :=
  (∀ p ∈ ([(0, .addono), (1, .addog), (2, .addoe), (3, .addoge), (4, .addol), (5, .addone),
      (6, .addole), (7, .addoo)] : List (Nat × (Src → Src → Reg → Instr))),
    ∀ (a b : Src) (c : Reg) (s : State), ∃ t, exec (p.2 a b c) s = .next t ∧
      t.reg c = (if ConditionTrue p.1 s.ac then srcValue s a + srcValue s b else s.reg c) ∧
      t.ip = s.ip + 4 ∧ Frame { regs := [c] } s t) ∧
  (∀ p ∈ ([(0, .subono), (1, .subog), (2, .suboe), (3, .suboge), (4, .subol), (5, .subone),
      (6, .subole), (7, .suboo)] : List (Nat × (Src → Src → Reg → Instr))),
    ∀ (a b : Src) (c : Reg) (s : State), ∃ t, exec (p.2 a b c) s = .next t ∧
      t.reg c = (if ConditionTrue p.1 s.ac then srcValue s b - srcValue s a else s.reg c) ∧
      t.ip = s.ip + 4 ∧ Frame { regs := [c] } s t) ∧
  (∀ p ∈ ([(0, .selno), (1, .selg), (2, .sele), (3, .selge), (4, .sell), (5, .selne), (6, .selle),
      (7, .selo)] : List (Nat × (Src → Src → Reg → Instr))),
    ∀ (a b : Src) (c : Reg) (s : State), ∃ t, exec (p.2 a b c) s = .next t ∧
      t.reg c = (if ConditionTrue p.1 s.ac then srcValue s b else srcValue s a) ∧
      t.ip = s.ip + 4 ∧ Frame { regs := [c] } s t)

/-- addi, subi (b - a), muli, shli (b times 2^count; for counts of 32 and more 0, an overflow
unless b is 0) and divi (truncated, by a divisor that is not 0) write the exact result where it
fits the signed range; else, with OM set, its low 32 bits with OF set; else they raise
IntegerOverflow, the result written before it or not as OverflowWrite says. (60_exceptions.md
section 2, 44_reg_arith_shift.md sections 1 and 3, 48_reg_muldiv_cond.md section 1.) -/
def Obligations.IntegerArithmeticChecksOverflow : Prop :=
  ∀ (a b : Src) (c : Reg) (s : State),
    let x := (srcValue s a).toInt
    let y := (srcValue s b).toInt
    ChecksOverflow (.addi a b c) (x + y) c s ∧ ChecksOverflow (.subi a b c) (y - x) c s ∧
      ChecksOverflow (.muli a b c) (x * y) c s ∧
      ((srcValue s a).toNat < 32 →
        ChecksOverflow (.shli a b c) (y * 2 ^ (srcValue s a).toNat) c s) ∧
      (32 ≤ (srcValue s a).toNat → ChecksOverflow (.shli a b c) (y * 2 ^ 32) c s) ∧
      (x ≠ 0 → ChecksOverflow (.divi a b c) (y.tdiv x) c s)

/-- Each of the eight addi<cc> and the eight subi<cc> acts under the overflow policy as addi or
subi where its condition holds of CC by the table; else it completes with only ip changed and no
overflow detected. (48_reg_muldiv_cond.md section 2, 60_exceptions.md section 2.) -/
def Obligations.ConditionalIntegerArithmetic : Prop :=
  (∀ p ∈ ([(0, .addino), (1, .addig), (2, .addie), (3, .addige), (4, .addil), (5, .addine),
      (6, .addile), (7, .addio)] : List (Nat × (Src → Src → Reg → Instr))),
    ∀ (a b : Src) (c : Reg) (s : State),
      (ConditionTrue p.1 s.ac →
        ChecksOverflow (p.2 a b c) ((srcValue s a).toInt + (srcValue s b).toInt) c s) ∧
      (¬ConditionTrue p.1 s.ac →
        ∃ t, exec (p.2 a b c) s = .next t ∧ t.ip = s.ip + 4 ∧ Frame {} s t)) ∧
  (∀ p ∈ ([(0, .subino), (1, .subig), (2, .subie), (3, .subige), (4, .subil), (5, .subine),
      (6, .subile), (7, .subio)] : List (Nat × (Src → Src → Reg → Instr))),
    ∀ (a b : Src) (c : Reg) (s : State),
      (ConditionTrue p.1 s.ac →
        ChecksOverflow (p.2 a b c) ((srcValue s b).toInt - (srcValue s a).toInt) c s) ∧
      (¬ConditionTrue p.1 s.ac →
        ∃ t, exec (p.2 a b c) s = .next t ∧ t.ip = s.ip + 4 ∧ Frame {} s t))

/-- addc writes the low 32 bits of a + b + carry in, subc those of b + not a + carry in, the carry
in being AC[1]; CC becomes twice the carry out plus the signed overflow of a + b + carry in, or of
b - a - 1 + carry in. Nothing else changes and nothing faults. (44_reg_arith_shift.md section 2,
40_primitives.md sections 2 and 3.) -/
def Obligations.AddAndSubtractWithCarry : Prop :=
  ∀ (a b : Src) (c : Reg) (s : State),
    let x := srcValue s a
    let y := srcValue s b
    let cin : Nat := if s.ac.getLsbD 1 then 1 else 0
    (∃ t, exec (.addc a b c) s = .next t ∧
      (t.reg c).toNat = (x.toNat + y.toNat + cin) % 2 ^ 32 ∧
      (ccOf t.ac).toNat = 2 * ((x.toNat + y.toNat + cin) / 2 ^ 32) +
        (if FitsWord (x.toInt + y.toInt + cin) then 0 else 1) ∧
      t.ip = s.ip + 4 ∧ Frame { regs := [c], ac := 7 } s t) ∧
    (∃ t, exec (.subc a b c) s = .next t ∧
      (t.reg c).toNat = (y.toNat + (2 ^ 32 - 1 - x.toNat) + cin) % 2 ^ 32 ∧
      (ccOf t.ac).toNat = 2 * ((y.toNat + (2 ^ 32 - 1 - x.toNat) + cin) / 2 ^ 32) +
        (if FitsWord (y.toInt - x.toInt - 1 + cin) then 0 else 1) ∧
      t.ip = s.ip + 4 ∧ Frame { regs := [c], ac := 7 } s t)

/-- With the count the whole operand a: shro and shlo give b divided by, and times, 2^count (0
from 32 up); shri the floor, and shrdi the truncation, of the signed b by 2^min(count, 31); rotate
moves bit k of b to bit k + count mod 32; eshro gives the low word of the 64-bit value in
registers b | 1 and b shifted right by count mod 32. (44_reg_arith_shift.md section 3,
46_reg_move_atomic.md section 3.) -/
def Obligations.ShiftsAndRotates : Prop :=
  ∀ (a b : Src) (c : Reg) (s : State),
    let n := (srcValue s a).toNat
    let y := srcValue s b
    let writes (i : Instr) (good : Word → Prop) : Prop :=
      ∃ t, exec i s = .next t ∧ good (t.reg c) ∧ t.ip = s.ip + 4 ∧ Frame { regs := [c] } s t
    writes (.shro a b c) (fun r => r.toNat = if 32 ≤ n then 0 else y.toNat / 2 ^ n) ∧
    writes (.shlo a b c) (fun r => r.toNat = if 32 ≤ n then 0 else y.toNat * 2 ^ n % 2 ^ 32) ∧
    writes (.shri a b c) (fun r => r.toInt = y.toInt / 2 ^ min n 31) ∧
    writes (.shrdi a b c) (fun r => r.toInt = y.toInt.tdiv (2 ^ min n 31)) ∧
    writes (.rotate a b c) (fun r => ∀ k < 32, r.getLsbD ((k + n) % 32) = y.getLsbD k) ∧
    (∀ q : Reg, writes (.eshro a (.reg q) c) (fun r => r.toNat =
      ((s.reg (q ||| 1)).toNat * 2 ^ 32 + (s.reg q).toNat) / 2 ^ (n % 32) % 2 ^ 32))

/-- cmpo and cmpi, cmpob and cmpib (low bytes), cmpos and cmpis (low shorts) leave CC 4, 2 or 1
for less, equal or greater, unsigned or signed; concmpo and concmpi leave CC alone where its bit 2
is set and else write 2 where a <= b and 1 where not; cmpinco, cmpinci, cmpdeco and cmpdeci also
write b + 1 or b - 1, wrapped. Nothing else changes. (45_reg_compare_misc.md sections 1 and 2,
40_primitives.md section 3.) -/
def Obligations.Compares : Prop :=
  ∀ (a b : Src) (c : Reg) (s : State),
    let x := srcValue s a
    let y := srcValue s b
    let order (i : Instr) (code : BitVec 3) : Prop :=
      ∃ t, exec i s = .next t ∧ ccOf t.ac = code ∧ t.ip = s.ip + 4 ∧ Frame { ac := 7 } s t
    let stepped (i : Instr) (code : BitVec 3) (v : Word) : Prop :=
      ∃ t, exec i s = .next t ∧ ccOf t.ac = code ∧ t.reg c = v ∧ t.ip = s.ip + 4 ∧
        Frame { regs := [c], ac := 7 } s t
    order (.cmpo a b) (orderCode x.toNat y.toNat) ∧
    order (.cmpi a b) (orderCode x.toInt y.toInt) ∧
    order (.cmpob a b) (orderCode (x.toNat % 256 : Nat) (y.toNat % 256 : Nat)) ∧
    order (.cmpib a b) (orderCode (Int.bmod x.toNat 256) (Int.bmod y.toNat 256)) ∧
    order (.cmpos a b) (orderCode (x.toNat % 65536 : Nat) (y.toNat % 65536 : Nat)) ∧
    order (.cmpis a b) (orderCode (Int.bmod x.toNat 65536) (Int.bmod y.toNat 65536)) ∧
    order (.concmpo a b) (if s.ac.getLsbD 2 then ccOf s.ac else if x.toNat ≤ y.toNat then 2 else 1) ∧
    order (.concmpi a b) (if s.ac.getLsbD 2 then ccOf s.ac else if x.toInt ≤ y.toInt then 2 else 1) ∧
    stepped (.cmpinco a b c) (orderCode x.toNat y.toNat) (y + 1) ∧
    stepped (.cmpinci a b c) (orderCode x.toInt y.toInt) (y + 1) ∧
    stepped (.cmpdeco a b c) (orderCode x.toNat y.toNat) (y - 1) ∧
    stepped (.cmpdeci a b c) (orderCode x.toInt y.toInt) (y - 1)

/-- scanbyte leaves CC 2 where some byte of a equals the byte of b in its place, else 0; chkbit
leaves CC 2 where bit a mod 32 of b is 1, else 0; bswap writes the bytes of a in the opposite
order. Nothing else changes. (45_reg_compare_misc.md section 3.) -/
def Obligations.ByteAndBitQueries : Prop :=
  ∀ (a b : Src) (c : Reg) (s : State),
    (∃ t, exec (.scanbyte a b) s = .next t ∧
      ccOf t.ac = (if ∃ k < 4, (srcValue s a).toNat / 256 ^ k % 256 =
        (srcValue s b).toNat / 256 ^ k % 256 then 2 else 0) ∧
      t.ip = s.ip + 4 ∧ Frame { ac := 7 } s t) ∧
    (∃ t, exec (.chkbit a b) s = .next t ∧
      ccOf t.ac = (if (srcValue s b).getLsbD ((srcValue s a).toNat % 32) then 2 else 0) ∧
      t.ip = s.ip + 4 ∧ Frame { ac := 7 } s t) ∧
    (∃ t, exec (.bswap a c) s = .next t ∧
      (∀ k < 4, (t.reg c).toNat / 256 ^ k % 256 = (srcValue s a).toNat / 256 ^ (3 - k) % 256) ∧
      t.ip = s.ip + 4 ∧ Frame { regs := [c] } s t)

/-- Where the operand has a 1 (scanbit) or a 0 (spanbit), the destination is the index below 32 of
a bit that is one, every higher bit being none, and CC is 2; where it has none the destination is
all ones and CC 0. Nothing else changes. (47_reg_bitfield_system.md section 1.) -/
def Obligations.ScanAndSpanFindTheHighestBit : Prop :=
  ∀ p ∈ ([(.scanbit, true), (.spanbit, false)] : List ((Src → Reg → Instr) × Bool)),
    ∀ (a : Src) (c : Reg) (s : State),
      ∃ t, exec (p.1 a c) s = .next t ∧ t.ip = s.ip + 4 ∧ Frame { regs := [c], ac := 7 } s t ∧
        ((∃ k < 32, (srcValue s a).getLsbD k = p.2) →
          ccOf t.ac = 2 ∧ (t.reg c).toNat < 32 ∧ (srcValue s a).getLsbD (t.reg c).toNat = p.2 ∧
          ∀ k < 32, (t.reg c).toNat < k → (srcValue s a).getLsbD k = !p.2) ∧
        ((∀ k < 32, (srcValue s a).getLsbD k = !p.2) → ccOf t.ac = 0 ∧ t.reg c = 0xFFFFFFFF)

/-- modac replaces the bits of AC under the mask a by those of b and returns the old AC; modify
replaces the bits of c under the mask a by those of b; extract leaves the b bits of c from bit a
mod 32 up, all of them for a length of 32 or more, and 0 for 0. Nothing else changes.
(47_reg_bitfield_system.md section 2, 40_primitives.md section 1.) -/
def Obligations.MaskedExchangesAndFields : Prop :=
  ∀ (a b : Src) (c : Reg) (s : State),
    let m := srcValue s a
    let v := srcValue s b
    (∃ t, exec (.modac a b c) s = .next t ∧
      (∀ k < 32, t.ac.getLsbD k = if m.getLsbD k then v.getLsbD k else s.ac.getLsbD k) ∧
      t.reg c = s.ac ∧ t.ip = s.ip + 4 ∧ Frame { regs := [c], ac := m } s t) ∧
    (∃ t, exec (.modify a b c) s = .next t ∧
      (∀ k < 32, (t.reg c).getLsbD k = if m.getLsbD k then v.getLsbD k else (s.reg c).getLsbD k) ∧
      t.ip = s.ip + 4 ∧ Frame { regs := [c] } s t) ∧
    (∃ t, exec (.extract a b c) s = .next t ∧
      (∀ k < 32, (t.reg c).getLsbD k =
        (decide (k < v.toNat) && (s.reg c).getLsbD (m.toNat % 32 + k))) ∧
      t.ip = s.ip + 4 ∧ Frame { regs := [c] } s t)

/-- In supervisor mode, or with a mask of 0, modpc replaces the bits of PC under the mask b by
those of c, returns the old PC in c and changes nothing else; in user mode with another mask it
raises TypeMismatch with only ip changed. Operand a does not matter. (47_reg_bitfield_system.md
section 2, 60_exceptions.md section 3.) -/
def Obligations.ModpcExchangesPc : Prop :=
  ∀ (a b : Src) (c : Reg) (s : State),
    let m := srcValue s b
    (s.pc.getLsbD 1 = true ∨ m = 0 → ∃ t, exec (.modpc a b c) s = .next t ∧
      (∀ k < 32, t.pc.getLsbD k =
        if m.getLsbD k then (s.reg c).getLsbD k else s.pc.getLsbD k) ∧
      t.reg c = s.pc ∧ t.ip = s.ip + 4 ∧ Frame { regs := [c], pc := m } s t) ∧
    (s.pc.getLsbD 1 = false → m ≠ 0 →
      exec (.modpc a b c) s = .fault (.raised .typeMismatch s.ip (s.setIp (s.ip + 4))))

/-- In supervisor mode the word at 0xFF008510 keeps every bit but bit 10, which intdis sets and
inten clears, and nothing else but ip changes; in user mode both raise TypeMismatch and memory is
not changed. (47_reg_bitfield_system.md section 3, 20_memory.md section 4.) -/
def Obligations.InterruptControlChangesOneBit : Prop :=
  ∀ p ∈ ([(.intdis, true), (.inten, false)] : List (Instr × Bool)), ∀ s : State,
    (s.pc.getLsbD 1 = true → ∃ t, exec p.1 s = .next t ∧
      (∀ k < 32, (t.valueAt 0xFF008510 4).testBit k =
        if k = 10 then p.2 else (s.valueAt 0xFF008510 4).testBit k) ∧
      t.ip = s.ip + 4 ∧ Frame { bytes := span 0xFF008510 4 } s t) ∧
    (s.pc.getLsbD 1 = false →
      exec p.1 s = .fault (.raised .typeMismatch s.ip (s.setIp (s.ip + 4))))

/-- The four complete in every state and mode with only ip changed. (47_reg_bitfield_system.md
section 4, 20_memory.md section 6.) -/
def Obligations.NoOperations : Prop :=
  ∀ i ∈ [Instr.mark, .fmark, .flushreg, .syncf], ∀ s : State,
    ∃ t, exec i s = .next t ∧ t.ip = s.ip + 4 ∧ Frame {} s t

/-- mov copies any register, or a literal 0..31 zero-extended, to any register. movl copies two
registers where both groups are even, movt three and movq four where both are multiples of 4, word
k to word k, from the state before; nothing else changes. (46_reg_move_atomic.md sections 1 and 2,
30_encoding.md section 4.) -/
def Obligations.MovesCopyRegistersAndGroups : Prop :=
  (∀ (r c : Reg) (s : State), ∃ t, exec (.mov (.reg r) c) s = .next t ∧ t.reg c = s.reg r ∧
    t.ip = s.ip + 4 ∧ Frame { regs := [c] } s t) ∧
  (∀ (v : BitVec 5) (c : Reg) (s : State), ∃ t, exec (.mov (.lit v) c) s = .next t ∧
    (t.reg c).toNat = v.toNat ∧ t.ip = s.ip + 4 ∧ Frame { regs := [c] } s t) ∧
  (∀ p ∈ ([(2, 2, .movl), (3, 4, .movt), (4, 4, .movq)] :
      List (Nat × Nat × (Src → Reg → Instr))),
    ∀ (r c : Reg) (s : State), r.toNat % p.2.1 = 0 → c.toNat % p.2.1 = 0 →
      ∃ t, exec (p.2.2 (.reg r) c) s = .next t ∧
        (∀ k < p.1, t.reg (c + BitVec.ofNat 5 k) = s.reg (r + BitVec.ofNat 5 k)) ∧
        t.ip = s.ip + 4 ∧ Frame { regs := groupRegs c p.1 } s t)

/-- emul, to an even pair, writes the exact 64-bit unsigned product, low word first. ediv, of an
even pair by a divisor that is not 0 to an even pair, writes the remainder and then the quotient
where the quotient fits 32 bits (the dividend is quotient times divisor plus a remainder below
it), is refused where it does not, and raises DivisionByZero for 0 with only ip changed.
(48_reg_muldiv_cond.md section 1.) -/
def Obligations.ExtendedMultiplyAndDivide : Prop :=
  (∀ (a b : Src) (c : Reg) (s : State), c.toNat % 2 = 0 →
    ∃ t, exec (.emul a b c) s = .next t ∧
      (t.reg (c + 1)).toNat * 2 ^ 32 + (t.reg c).toNat =
        (srcValue s a).toNat * (srcValue s b).toNat ∧
      t.ip = s.ip + 4 ∧ Frame { regs := [c, c + 1] } s t) ∧
  (∀ (a : Src) (r c : Reg) (s : State), r.toNat % 2 = 0 → c.toNat % 2 = 0 →
    let d := (s.reg (r + 1)).toNat * 2 ^ 32 + (s.reg r).toNat
    let x := (srcValue s a).toNat
    (x = 0 → exec (.ediv a (.reg r) c) s =
      .fault (.raised .divisionByZero s.ip (s.setIp (s.ip + 4)))) ∧
    (x ≠ 0 → d < 2 ^ 32 * x → ∃ t, exec (.ediv a (.reg r) c) s = .next t ∧
      d = (t.reg (c + 1)).toNat * x + (t.reg c).toNat ∧ (t.reg c).toNat < x ∧
      t.ip = s.ip + 4 ∧ Frame { regs := [c, c + 1] } s t) ∧
    (x ≠ 0 → 2 ^ 32 * x ≤ d →
      exec (.ediv a (.reg r) c) s = .refused .edivQuotientOverflow))

/-- By a divisor that is not 0: divo and remo are the unsigned quotient and remainder, remi the
signed remainder with the sign of the dividend, modi that with the sign of the divisor (floored);
nothing else changes. By 0, they and divi raise DivisionByZero with only ip changed. But for -2^31
by -1, quotient times divisor plus remainder is the dividend for divi and remi.
(48_reg_muldiv_cond.md section 1.) -/
def Obligations.DivisionsAndRemainders : Prop :=
  ∀ (a b : Src) (c : Reg) (s : State),
    let x := srcValue s a
    let y := srcValue s b
    let writes (i : Instr) (good : Word → Prop) : Prop :=
      ∃ t, exec i s = .next t ∧ good (t.reg c) ∧ t.ip = s.ip + 4 ∧ Frame { regs := [c] } s t
    (x ≠ 0 → writes (.divo a b c) (fun r => r.toNat = y.toNat / x.toNat) ∧
      writes (.remo a b c) (fun r => r.toNat = y.toNat % x.toNat) ∧
      writes (.remi a b c) (fun r => r.toInt = y.toInt.tmod x.toInt) ∧
      writes (.modi a b c) (fun r => r.toInt = y.toInt.fmod x.toInt)) ∧
    (x = 0 → ∀ i ∈ [Instr.divo a b c, .remo a b c, .remi a b c, .modi a b c, .divi a b c],
      exec i s = .fault (.raised .divisionByZero s.ip (s.setIp (s.ip + 4)))) ∧
    (x ≠ 0 → ¬(y = 0x80000000 ∧ x = 0xFFFFFFFF) → ∃ t u, exec (.divi a b c) s = .next t ∧
      exec (.remi a b c) s = .next u ∧
      (t.reg c).toInt * x.toInt + (u.reg c).toInt = y.toInt)

/-- Where the port takes the access, ldob, ldos and ld write the unsigned little-endian value of
1, 2 or 4 bytes at the effective address, ldib and ldis the signed one of 1 or 2, and ldl, ldt and
ldq, to a group, the words at the address, 4 on, 8 on, 12 on; nothing else changes. Where it
refuses, so is the step. (49_mem.md sections 1 and 3, 20_memory.md sections 1 to 3.) -/
def Obligations.LoadsReadLittleEndian : Prop :=
  (∀ p ∈ ([(1, .ldob), (2, .ldos), (4, .ld)] : List (Nat × (MemOperand → Reg → Instr))),
    ∀ (m : MemOperand) (c : Reg) (s : State),
      (Accessible s (efa s m) p.1 → ∃ t, exec (p.2 m c) s = .next t ∧
        (t.reg c).toNat = s.valueAt (efa s m) p.1 ∧ t.ip = s.ip + lengthOf (p.2 m c) ∧
        Frame { regs := [c] } s t) ∧
      (¬Accessible s (efa s m) p.1 → exec (p.2 m c) s = .refused .misalignedData)) ∧
  (∀ p ∈ ([(1, .ldib), (2, .ldis)] : List (Nat × (MemOperand → Reg → Instr))),
    ∀ (m : MemOperand) (c : Reg) (s : State),
      (Accessible s (efa s m) p.1 → ∃ t, exec (p.2 m c) s = .next t ∧
        (t.reg c).toInt = Int.bmod (s.valueAt (efa s m) p.1) (256 ^ p.1) ∧
        t.ip = s.ip + lengthOf (p.2 m c) ∧ Frame { regs := [c] } s t) ∧
      (¬Accessible s (efa s m) p.1 → exec (p.2 m c) s = .refused .misalignedData)) ∧
  (∀ p ∈ ([(2, 2, .ldl), (3, 4, .ldt), (4, 4, .ldq)] :
      List (Nat × Nat × (MemOperand → Reg → Instr))),
    ∀ (m : MemOperand) (c : Reg) (s : State), c.toNat % p.2.1 = 0 →
      (Accessible s (efa s m) 4 → ∃ t, exec (p.2.2 m c) s = .next t ∧
        (∀ k < p.1, (t.reg (c + BitVec.ofNat 5 k)).toNat =
          s.valueAt (efa s m + BitVec.ofNat 32 (4 * k)) 4) ∧
        t.ip = s.ip + lengthOf (p.2.2 m c) ∧ Frame { regs := groupRegs c p.1 } s t) ∧
      (¬Accessible s (efa s m) 4 → exec (p.2.2 m c) s = .refused .misalignedData))

/-- Where the port takes the access, stob, stos and st write the low 1, 2 or 4 bytes of the
register at the effective address, least significant first, and stl, stt and stq the registers of
a group at the address, 4 on, 8 on, 12 on; every other byte, and everything else but ip, is
unchanged. Where it refuses, so is the step. (49_mem.md sections 1 and 4, 20_memory.md sections 1
to 3.) -/
def Obligations.StoresWriteLittleEndian : Prop :=
  (∀ p ∈ ([(1, .stob), (2, .stos), (4, .st)] : List (Nat × (Reg → MemOperand → Instr))),
    ∀ (m : MemOperand) (c : Reg) (s : State),
      (Accessible s (efa s m) p.1 → ∃ t, exec (p.2 c m) s = .next t ∧
        t.valueAt (efa s m) p.1 = (s.reg c).toNat % 256 ^ p.1 ∧
        t.ip = s.ip + lengthOf (p.2 c m) ∧ Frame { bytes := span (efa s m) p.1 } s t) ∧
      (¬Accessible s (efa s m) p.1 → exec (p.2 c m) s = .refused .misalignedData)) ∧
  (∀ p ∈ ([(2, 2, .stl), (3, 4, .stt), (4, 4, .stq)] :
      List (Nat × Nat × (Reg → MemOperand → Instr))),
    ∀ (m : MemOperand) (c : Reg) (s : State), c.toNat % p.2.1 = 0 →
      (Accessible s (efa s m) 4 → ∃ t, exec (p.2.2 c m) s = .next t ∧
        (∀ k < p.1, t.valueAt (efa s m + BitVec.ofNat 32 (4 * k)) 4 =
          (s.reg (c + BitVec.ofNat 5 k)).toNat) ∧
        t.ip = s.ip + lengthOf (p.2.2 c m) ∧ Frame { bytes := span (efa s m) (4 * p.1) } s t) ∧
      (¬Accessible s (efa s m) 4 → exec (p.2.2 c m) s = .refused .misalignedData))

/-- Where the port takes the access, stib and stis store the low 1 or 2 bytes of a register whose
signed value fits them; one that does not is stored truncated with OF set where OM is set, and
else raises IntegerOverflow, stored before it or not as OverflowWrite says. Nothing else changes.
Where the port refuses the access of stis, so is the step; but where nothing would be stored (an
overflow not masked, OverflowWrite = unchanged) no access is made and the overflow is raised: that
order is the model's choice, log 10. (49_mem.md section 4, 60_exceptions.md sections 2 and 4,
20_memory.md section 3.) -/
def Obligations.SignedNarrowStoresCheckOverflow : Prop :=
  ∀ (m : MemOperand) (c : Reg) (s : State),
    StoreChecksOverflow (.stib c m) (FitsByte (s.reg c).toInt) 1 c m s ∧
    (Accessible s (efa s m) 2 →
      StoreChecksOverflow (.stis c m) (FitsShort (s.reg c).toInt) 2 c m s) ∧
    (¬Accessible s (efa s m) 2 →
      let storesNothing : Prop := ¬FitsShort (s.reg c).toInt ∧ omOf s.ac = false ∧
        s.params.overflowWrite = .unchanged
      (¬storesNothing → exec (.stis c m) s = .refused .misalignedData) ∧
      (storesNothing → exec (.stis c m) s =
        .fault (.raised .integerOverflow s.ip (s.setIp (s.ip + lengthOf (.stis c m))))))

/-- Where the lock is free, the word at a with its low two bits dropped becomes itself plus b,
modulo 2^32 (atadd), or itself with the bits under the mask b from c (atmod); c gets the old word,
the lock is free after, and nothing else changes. Where another master holds the lock, both end in
the fault stuckOnLock: that is the model's choice, log 8 (R103 leaves such a step not enabled).
(46_reg_move_atomic.md section 4, 20_memory.md section 6.) -/
def Obligations.AtomicsExchangeOneWord : Prop :=
  ∀ (a b : Src) (c : Reg) (s : State),
    let e := srcValue s a &&& ~~~3#32
    let v := srcValue s b
    (s.lockHeld = false → ∃ t, exec (.atadd a b c) s = .next t ∧
      t.valueAt e 4 = (s.valueAt e 4 + v.toNat) % 2 ^ 32 ∧ (t.reg c).toNat = s.valueAt e 4 ∧
      t.ip = s.ip + 4 ∧ Frame { regs := [c], bytes := span e 4 } s t) ∧
    (s.lockHeld = false → ∃ t, exec (.atmod a b c) s = .next t ∧
      (∀ k < 32, (t.valueAt e 4).testBit k =
        if v.getLsbD k then (s.reg c).getLsbD k else (s.valueAt e 4).testBit k) ∧
      (t.reg c).toNat = s.valueAt e 4 ∧ t.ip = s.ip + 4 ∧
      Frame { regs := [c], bytes := span e 4 } s t) ∧
    (s.lockHeld = true → exec (.atadd a b c) s = .fault .stuckOnLock ∧
      exec (.atmod a b c) s = .fault .stuckOnLock)

/-- Where the port takes word accesses at FP: r0..r15, with r2 the address of the next
instruction, are saved at FP; r0 becomes the old FP, FP the next multiple of 64 from SP (modulo
2^32), SP that plus 64, r2 the return address, ip the target (from the state before). Nothing else
changes. Where the port refuses, so is the step. (41_ctrl.md sections 2 and 3, 49_mem.md section
2.) -/
def Obligations.CallBuildsAFrame : Prop :=
  ∀ (i : Instr) (target : Word) (s : State),
    ((∃ d : BitVec 22, i = .call d ∧ target = s.ip + BitVec.ofInt 32 (4 * d.toInt)) ∨
      ∃ m, i = .callx m ∧ target = efa s m) →
    let link := s.ip + lengthOf i
    (Accessible s (s.reg 31) 4 → ∃ t, exec i s = .next t ∧ t.ip = target ∧ t.reg 2 = link ∧
      t.reg 0 = s.reg 31 ∧
      (t.reg 31).toNat = ((s.reg 1).toNat + 63) % 2 ^ 32 / 64 * 64 ∧ t.reg 1 = t.reg 31 + 64 ∧
      (∀ k < 16, t.valueAt (s.reg 31 + BitVec.ofNat 32 (4 * k)) 4 =
        (if k = 2 then link else s.reg (BitVec.ofNat 5 k)).toNat) ∧
      Frame { regs := [0, 1, 2, 31], bytes := span (s.reg 31) 64 } s t) ∧
    (¬Accessible s (s.reg 31) 4 → exec i s = .refused .misalignedData)

/-- Where PFP[2:0] is 0, FP becomes PFP with its low six bits dropped, r0..r15 the sixteen words
there, ip the reloaded r2; nothing else changes: memory, g0..g14, AC, PC and TC are not restored.
Else the step is refused RetVariant. (41_ctrl.md sections 2 and 3, 60_exceptions.md section 5.) -/
def Obligations.RetRestoresAFrame : Prop :=
  ∀ s : State,
    let f := s.reg 0 &&& ~~~63#32
    ((s.reg 0).toNat % 8 = 0 → ∃ t, exec .ret s = .next t ∧ t.reg 31 = f ∧
      (∀ k < 16, (t.reg (BitVec.ofNat 5 k)).toNat = s.valueAt (f + BitVec.ofNat 32 (4 * k)) 4) ∧
      t.ip = t.reg 2 ∧ Frame { regs := 31 :: groupRegs 0 16 } s t) ∧
    ((s.reg 0).toNat % 8 ≠ 0 → exec .ret s = .refused .retVariant)

/-- From a state whose FP is a multiple of 64, call or callx completes, and ret at the state it
gives completes: ip and r2 hold the address of the instruction after the call, every other
register is as before the call, AC, PC and TC too, and no byte outside the 64 at FP has changed.
(41_ctrl.md section 2, 10_state.md section 1.) -/
def Obligations.CallThenRetComesBack : Prop :=
  ∀ (i : Instr) (s : State), ((∃ d, i = .call d) ∨ ∃ m, i = .callx m) →
    (s.reg 31).toNat % 64 = 0 →
    ∃ t u, exec i s = .next t ∧ exec .ret t = .next u ∧ u.ip = s.ip + lengthOf i ∧
      u.reg 2 = s.ip + lengthOf i ∧ Frame { regs := [2], bytes := span (s.reg 31) 64 } s u
end

