-- ==== Sys2Proof/Laws/Decode.lean ====
section
/-! SUPPORT. The fields of the words the encoder writes, the length they give, and the decoder one
word at a time. -/

namespace Sys2Proof

/-! ### Fields of an encoded word -/

section Fields

variable (op : BitVec 8) (index : BitVec 12) (a src : Src) (b c base idx : Reg)
  (disp22 : BitVec 22) (disp11 : BitVec 11) (md : BitVec 1) (off : BitVec 12) (mode : BitVec 4)
  (scale : BitVec 3)

theorem srcOf_modeBit_field : srcOf (a.modeBit.getLsbD 0) a.field = a := by
  cases a <;> simp [srcOf, Src.modeBit, Src.field]

@[simp] theorem opField_ctrlWord : opField (ctrlWord op disp22) = op := by
  simp (disch := decide) only [opField, ctrlWord, BitVec.extractLsb'_append_eq_of_le, Nat.reduceSub]
  exact BitVec.extractLsb'_eq_self

@[simp] theorem ctrlDispField_ctrlWord : ctrlDispField (ctrlWord op disp22) = disp22 := by
  simp (disch := decide) only [ctrlDispField, ctrlWord, BitVec.extractLsb'_append_eq_of_le, BitVec.extractLsb'_append_eq_of_add_le, Nat.reduceSub]
  exact BitVec.extractLsb'_eq_self

@[simp] theorem opField_cobrWord : opField (cobrWord op a b disp11) = op := by
  simp (disch := decide) only [opField, cobrWord, BitVec.extractLsb'_append_eq_of_le, Nat.reduceSub]
  exact BitVec.extractLsb'_eq_self

@[simp] theorem field19_cobrWord : field19 (cobrWord op a b disp11) = a.field := by
  simp (disch := decide) only [field19, cobrWord, BitVec.extractLsb'_append_eq_of_le, BitVec.extractLsb'_append_eq_of_add_le, Nat.reduceSub]
  exact BitVec.extractLsb'_eq_self

@[simp] theorem field14_cobrWord : field14 (cobrWord op a b disp11) = b := by
  simp (disch := decide) only [field14, cobrWord, BitVec.extractLsb'_append_eq_of_le, BitVec.extractLsb'_append_eq_of_add_le, Nat.reduceSub]
  exact BitVec.extractLsb'_eq_self

@[simp] theorem cobrDispField_cobrWord : cobrDispField (cobrWord op a b disp11) = disp11 := by
  simp (disch := decide) only [cobrDispField, cobrWord, BitVec.extractLsb'_append_eq_of_le, BitVec.extractLsb'_append_eq_of_add_le, Nat.reduceSub]
  exact BitVec.extractLsb'_eq_self

@[simp] theorem opField_regWord : opField (regWord index a src c) = index.extractLsb' 4 8 := by
  simp (disch := decide) only [opField, regWord, BitVec.extractLsb'_append_eq_of_le, Nat.reduceSub]
  exact BitVec.extractLsb'_eq_self

@[simp] theorem field19_regWord : field19 (regWord index a src c) = c := by
  simp (disch := decide) only [field19, regWord, BitVec.extractLsb'_append_eq_of_le, BitVec.extractLsb'_append_eq_of_add_le, Nat.reduceSub]
  exact BitVec.extractLsb'_eq_self

@[simp] theorem field14_regWord : field14 (regWord index a src c) = src.field := by
  simp (disch := decide) only [field14, regWord, BitVec.extractLsb'_append_eq_of_le, BitVec.extractLsb'_append_eq_of_add_le, Nat.reduceSub]
  exact BitVec.extractLsb'_eq_self

@[simp] theorem field0_regWord : field0 (regWord index a src c) = a.field := by
  simp (disch := decide) only [field0, regWord, BitVec.extractLsb'_append_eq_of_add_le]
  exact BitVec.extractLsb'_eq_self

@[simp] theorem regFunField_regWord : regFunField (regWord index a src c) = index.extractLsb' 0 4 := by
  simp (disch := decide) only [regFunField, regWord, BitVec.extractLsb'_append_eq_of_le, BitVec.extractLsb'_append_eq_of_add_le, Nat.reduceSub]
  exact BitVec.extractLsb'_eq_self

@[simp] theorem opField_memaWord : opField (memaWord op c base md off) = op := by
  simp (disch := decide) only [opField, memaWord, BitVec.extractLsb'_append_eq_of_le, Nat.reduceSub]
  exact BitVec.extractLsb'_eq_self

@[simp] theorem field19_memaWord : field19 (memaWord op c base md off) = c := by
  simp (disch := decide) only [field19, memaWord, BitVec.extractLsb'_append_eq_of_le, BitVec.extractLsb'_append_eq_of_add_le, Nat.reduceSub]
  exact BitVec.extractLsb'_eq_self

@[simp] theorem field14_memaWord : field14 (memaWord op c base md off) = base := by
  simp (disch := decide) only [field14, memaWord, BitVec.extractLsb'_append_eq_of_le, BitVec.extractLsb'_append_eq_of_add_le, Nat.reduceSub]
  exact BitVec.extractLsb'_eq_self

@[simp] theorem offsetField_memaWord : offsetField (memaWord op c base md off) = off := by
  simp (disch := decide) only [offsetField, memaWord, BitVec.extractLsb'_append_eq_of_add_le]
  exact BitVec.extractLsb'_eq_self

@[simp] theorem opField_membWord : opField (membWord op c base mode scale idx) = op := by
  simp (disch := decide) only [opField, membWord, BitVec.extractLsb'_append_eq_of_le, Nat.reduceSub]
  exact BitVec.extractLsb'_eq_self

@[simp] theorem field19_membWord : field19 (membWord op c base mode scale idx) = c := by
  simp (disch := decide) only [field19, membWord, BitVec.extractLsb'_append_eq_of_le, BitVec.extractLsb'_append_eq_of_add_le, Nat.reduceSub]
  exact BitVec.extractLsb'_eq_self

@[simp] theorem field14_membWord : field14 (membWord op c base mode scale idx) = base := by
  simp (disch := decide) only [field14, membWord, BitVec.extractLsb'_append_eq_of_le, BitVec.extractLsb'_append_eq_of_add_le, Nat.reduceSub]
  exact BitVec.extractLsb'_eq_self

@[simp] theorem field0_membWord : field0 (membWord op c base mode scale idx) = idx := by
  simp (disch := decide) only [field0, membWord, BitVec.extractLsb'_append_eq_of_add_le]
  exact BitVec.extractLsb'_eq_self

@[simp] theorem modeField_membWord : modeField (membWord op c base mode scale idx) = mode := by
  simp (disch := decide) only [modeField, membWord, BitVec.extractLsb'_append_eq_of_le, BitVec.extractLsb'_append_eq_of_add_le, Nat.reduceSub]
  exact BitVec.extractLsb'_eq_self

@[simp] theorem scaleField_membWord : scaleField (membWord op c base mode scale idx) = scale := by
  simp (disch := decide) only [scaleField, membWord, BitVec.extractLsb'_append_eq_of_le, BitVec.extractLsb'_append_eq_of_add_le, Nat.reduceSub]
  exact BitVec.extractLsb'_eq_self

theorem extract_getLsbD (w : Word) (k : Nat) :
    w.getLsbD k = (w.extractLsb' k 1).getLsbD 0 := by simp

theorem ctrlWord_getLsbD_0 : (ctrlWord op disp22).getLsbD 0 = false := by
  rw [extract_getLsbD]
  simp (disch := decide) only [ctrlWord, BitVec.extractLsb'_append_eq_of_add_le]
  decide

theorem cobrWord_getLsbD_0 : (cobrWord op a b disp11).getLsbD 0 = false := by
  rw [extract_getLsbD]
  simp (disch := decide) only [cobrWord, BitVec.extractLsb'_append_eq_of_add_le]
  decide

theorem cobrWord_getLsbD_13 : (cobrWord op a b disp11).getLsbD 13 = a.modeBit.getLsbD 0 := by
  rw [extract_getLsbD]
  simp (disch := decide) only [cobrWord, BitVec.extractLsb'_append_eq_of_le, BitVec.extractLsb'_append_eq_of_add_le, Nat.reduceSub]
  rw [BitVec.extractLsb'_eq_self]

theorem regWord_getLsbD_11 : (regWord index a src c).getLsbD 11 = a.modeBit.getLsbD 0 := by
  rw [extract_getLsbD]
  simp (disch := decide) only [regWord, BitVec.extractLsb'_append_eq_of_le, BitVec.extractLsb'_append_eq_of_add_le, Nat.reduceSub]
  rw [BitVec.extractLsb'_eq_self]

theorem regWord_getLsbD_12 : (regWord index a src c).getLsbD 12 = src.modeBit.getLsbD 0 := by
  rw [extract_getLsbD]
  simp (disch := decide) only [regWord, BitVec.extractLsb'_append_eq_of_le, BitVec.extractLsb'_append_eq_of_add_le, Nat.reduceSub]
  rw [BitVec.extractLsb'_eq_self]

@[simp] theorem ctrlWord_getElem_0 : (ctrlWord op disp22)[0] = false :=
  ctrlWord_getLsbD_0 op disp22

@[simp] theorem cobrWord_getElem_0 : (cobrWord op a b disp11)[0] = false :=
  cobrWord_getLsbD_0 op a b disp11

@[simp] theorem cobrA_cobrWord : cobrA (cobrWord op a b disp11) = a := by
  simp only [cobrA, cobrWord_getLsbD_13, field19_cobrWord, srcOf_modeBit_field]

@[simp] theorem regA_regWord : regA (regWord index a src c) = a := by
  simp only [regA, regWord_getLsbD_11, field0_regWord, srcOf_modeBit_field]

@[simp] theorem regB_regWord : regB (regWord index a src c) = src := by
  simp only [regB, regWord_getLsbD_12, field14_regWord, srcOf_modeBit_field]

theorem append_extract (v : BitVec 12) : v.extractLsb' 4 8 ++ v.extractLsb' 0 4 = v := by
  apply BitVec.eq_of_getLsbD_eq
  intro k hk
  rw [BitVec.getLsbD_append, BitVec.getLsbD_extractLsb', BitVec.getLsbD_extractLsb']
  by_cases h : k < 4
  · simp [h]
  · simp [h, show k - 4 < 8 by omega, show 4 + (k - 4) = k by omega]

@[simp] theorem regIndex_regWord : regIndex (regWord index a src c) = index := by
  simp only [regIndex, opField_regWord, regFunField_regWord, append_extract]

theorem modeField_split (w : Word) :
    modeField w = w.extractLsb' 13 1 ++ w.extractLsb' 12 1 ++ w.extractLsb' 10 2 := by
  apply BitVec.eq_of_getLsbD_eq
  intro k hk
  rw [BitVec.getLsbD_append, BitVec.getLsbD_append, modeField]
  simp only [BitVec.getLsbD_extractLsb']
  by_cases h : k < 2
  · simp [h, hk]
  · by_cases h' : k - 2 < 1
    · simp [show k = 2 by omega]
    · simp [show k = 3 by omega]

/-- The mode of a MEMA word: MD, 0 and the two high bits of the offset. -/
theorem modeField_memaWord :
    modeField (memaWord op c base md off) = md ++ 0#1 ++ off.extractLsb' 10 2 := by
  rw [modeField_split]
  simp (disch := decide) only [memaWord, BitVec.extractLsb'_append_eq_of_le,
    BitVec.extractLsb'_append_eq_of_add_le, Nat.reduceSub]
  rw [BitVec.extractLsb'_eq_self, BitVec.extractLsb'_eq_self]

end Fields

/-! ### Lengths -/

theorem instrLength_of_lt (w : Word) (h : (opField w).toNat < 0x80) : instrLength w = 4 := by
  simp [instrLength, show ¬128 ≤ (opField w).toNat by omega]

theorem instrLength_of_ge (w : Word) (h : 0x80 ≤ (opField w).toNat) :
    instrLength w = if (modeFlags (modeField w)).getLsbD 3 then 8 else 4 := by
  simp [instrLength, h]

theorem instrLength_cases (w : Word) : instrLength w = 4 ∨ instrLength w = 8 := by
  unfold instrLength
  split <;> simp

/-! ### Bytes and words -/

theorem takeWord_wordBytes (w : Word) (rest : List Byte) :
    takeWord (wordBytes w ++ rest) = some (w, rest) := by
  simp only [wordBytes, List.cons_append, List.nil_append, takeWord]
  congr 2
  apply BitVec.eq_of_getLsbD_eq
  intro k hk
  simp only [BitVec.getLsbD_append, BitVec.getLsbD_extractLsb']
  rcases Nat.lt_or_ge k 8 with h | h
  · simp [h]
  rcases Nat.lt_or_ge k 16 with h' | h'
  · simp [show ¬k < 8 by omega, show k - 8 < 8 by omega, show 8 + (k - 8) = k by omega]
  rcases Nat.lt_or_ge k 24 with h'' | h''
  · simp [show ¬k < 8 by omega, show ¬k - 8 < 8 by omega, show k - 8 - 8 < 8 by omega,
      show 16 + (k - 8 - 8) = k by omega]
  · simp [show ¬k < 8 by omega, show ¬k - 8 < 8 by omega, show ¬k - 8 - 8 < 8 by omega,
      show k - 8 - 8 - 8 < 8 by omega, show 24 + (k - 8 - 8 - 8) = k by omega]

/-- Decoding a 4-byte instruction reads one word. -/
theorem decode_short (w : Word) (rest : List Byte) (h : instrLength w = 4) :
    decode (wordBytes w ++ rest) = (decodeWords w 0).map (·, rest) := by
  simp [decode, takeWord_wordBytes, h]

/-- Decoding an 8-byte instruction reads two words. -/
theorem decode_long (w disp : Word) (rest : List Byte) (h : instrLength w = 8) :
    decode (wordBytes w ++ (wordBytes disp ++ rest)) = (decodeWords w disp).map (·, rest) := by
  simp [decode, takeWord_wordBytes, h]

/-! ### Formats -/

theorem decodeWords_ctrl (w disp : Word) (h : (opField w).toNat < 0x20) :
    decodeWords w disp = decodeCtrl w := by simp [decodeWords, h]

theorem decodeWords_cobr (w disp : Word) (h : 0x20 ≤ (opField w).toNat)
    (h' : (opField w).toNat < 0x40) : decodeWords w disp = decodeCobr w := by
  simp [decodeWords, show ¬(opField w).toNat < 32 by omega, h']

theorem decodeWords_reg (w disp : Word) (h : 0x40 ≤ (opField w).toNat)
    (h' : (opField w).toNat < 0x80) : decodeWords w disp = decodeReg w := by
  simp [decodeWords, show ¬(opField w).toNat < 32 by omega, show ¬(opField w).toNat < 64 by omega,
    h']

theorem decodeWords_mem (w disp : Word) (h : 0x80 ≤ (opField w).toNat) :
    decodeWords w disp = decodeMem w disp := by
  simp [decodeWords, show ¬(opField w).toNat < 32 by omega, show ¬(opField w).toNat < 64 by omega,
    show ¬(opField w).toNat < 128 by omega]

/-! ### MEM operands -/

/-- The displacement word an operand form carries, if it has one. -/
def MemOperand.dispWord : MemOperand → Option Word
  | .offset _ | .baseOffset _ _ | .base _ | .baseIndex _ _ _ => none
  | .ipDisp d | .disp d | .baseDisp _ d | .indexDisp _ _ d | .baseIndexDisp _ _ _ d => some d

/-- The words of a MEM instruction: one, or two where the operand has a displacement word. -/
theorem memWords_shape (op : BitVec 8) (c : Reg) (m : MemOperand) (h : 0x80 ≤ op.toNat) :
    ∃ w, memWords op c m = w :: m.dispWord.toList ∧ opField w = op ∧ field19 w = c ∧
      instrLength w = (if m.dispWord.isSome then 8 else 4) ∧
      decodeMemOperand w (m.dispWord.getD 0) = some m := by
  have hl (w : Word) (hw : opField w = op) := instrLength_of_ge w (by rw [hw]; exact h)
  cases m with
  | offset off =>
    refine ⟨_, rfl, opField_memaWord .., field19_memaWord .., ?_, ?_⟩
    · rw [hl _ (opField_memaWord ..), modeField_memaWord]
      show _ = 4
      generalize off.extractLsb' 10 2 = x
      revert x; decide
    · have : ∀ x : BitVec 2, (0#1 ++ 0#1 ++ x : BitVec 4) = 0 ∨ (0#1 ++ 0#1 ++ x : BitVec 4) = 1 ∨
          (0#1 ++ 0#1 ++ x : BitVec 4) = 2 ∨ (0#1 ++ 0#1 ++ x : BitVec 4) = 3 := by decide
      unfold decodeMemOperand
      rw [modeField_memaWord, offsetField_memaWord]
      rcases this (off.extractLsb' 10 2) with e | e | e | e <;>
        · erw [e]
          rfl
  | baseOffset base off =>
    refine ⟨_, rfl, opField_memaWord .., field19_memaWord .., ?_, ?_⟩
    · rw [hl _ (opField_memaWord ..), modeField_memaWord]
      show _ = 4
      generalize off.extractLsb' 10 2 = x
      revert x; decide
    · have : ∀ x : BitVec 2, (1#1 ++ 0#1 ++ x : BitVec 4) = 8 ∨ (1#1 ++ 0#1 ++ x : BitVec 4) = 9 ∨
          (1#1 ++ 0#1 ++ x : BitVec 4) = 10 ∨ (1#1 ++ 0#1 ++ x : BitVec 4) = 11 := by decide
      unfold decodeMemOperand
      rw [modeField_memaWord, offsetField_memaWord, field14_memaWord]
      rcases this (off.extractLsb' 10 2) with e | e | e | e <;>
        · erw [e]
          rfl
  | base base | baseIndex base index scale | ipDisp disp | disp disp | baseDisp base disp
  | indexDisp index scale disp | baseIndexDisp base index scale disp =>
    refine ⟨_, rfl, opField_membWord .., field19_membWord .., ?_, ?_⟩
    · rw [hl _ (opField_membWord ..), modeField_membWord]
      rfl
    · unfold decodeMemOperand
      simp only [modeField_membWord, field14_membWord, field0_membWord, scaleField_membWord]
      rfl

end Sys2Proof
end

