-- ==== Sys2Proof/Laws/Flags.lean ====
section
/-! SUPPORT. The fields of AC after a write of CC or OF, and the values the condition codes take. -/

namespace Sys2Proof.Machine

/-! ### Writing CC -/

theorem withCc_getLsbD (ac : Word) (v : BitVec 3) (k : Nat) :
    (withCc ac v).getLsbD k = if k < 3 then v.getLsbD k else ac.getLsbD k := by
  unfold withCc
  rw [BitVec.getLsbD_append, BitVec.getLsbD_extractLsb']
  by_cases h : k < 3
  · simp [h]
  · by_cases h' : k < 32
    · simp [h, show k - 3 < 29 by omega, show 3 + (k - 3) = k by omega]
    · simp [h, BitVec.getLsbD_of_ge ac k (by omega)]
      omega

@[simp] theorem ccOf_withCc (ac : Word) (v : BitVec 3) : ccOf (withCc ac v) = v := by
  apply BitVec.eq_of_getLsbD_eq
  intro k hk
  simp [ccOf, withCc_getLsbD, hk]

@[simp] theorem withCc_ccOf (ac : Word) : withCc ac (ccOf ac) = ac := by
  apply BitVec.eq_of_getLsbD_eq
  intro k hk
  rw [withCc_getLsbD]
  split <;> simp_all [ccOf]

@[simp] theorem withCc_withCc (ac : Word) (v w : BitVec 3) :
    withCc (withCc ac v) w = withCc ac w := by
  apply BitVec.eq_of_getLsbD_eq
  intro k hk
  simp only [withCc_getLsbD]
  split <;> rfl

@[simp] theorem carryOf_withCc (ac : Word) (v : BitVec 3) :
    carryOf (withCc ac v) = v.getLsbD 1 := by
  rw [carryOf, withCc_getLsbD]; rfl

@[simp] theorem ofOf_withCc (ac : Word) (v : BitVec 3) : ofOf (withCc ac v) = ofOf ac := by
  rw [ofOf, withCc_getLsbD]; rfl

@[simp] theorem omOf_withCc (ac : Word) (v : BitVec 3) : omOf (withCc ac v) = omOf ac := by
  rw [omOf, withCc_getLsbD]; rfl

@[simp] theorem nifOf_withCc (ac : Word) (v : BitVec 3) : nifOf (withCc ac v) = nifOf ac := by
  rw [nifOf, withCc_getLsbD]; rfl

/-- The bits of AC a CC write leaves alone (R41). -/
theorem withCc_outside (ac : Word) (v : BitVec 3) :
    withCc ac v &&& ~~~7#32 = ac &&& ~~~7#32 := by
  apply BitVec.eq_of_getLsbD_eq
  intro k hk
  rw [BitVec.getLsbD_and, BitVec.getLsbD_and, withCc_getLsbD]
  split
  · next h =>
    have : (~~~7#32).getLsbD k = false := by
      rcases k with _ | _ | _ | k <;> first | rfl | omega
    rw [this, Bool.and_false, Bool.and_false]
  · rfl

/-! ### Writing OF -/

theorem withOf_getLsbD (ac : Word) (k : Nat) :
    (withOf ac).getLsbD k = (ac.getLsbD k || k == 8) := by
  unfold withOf
  rw [BitVec.getLsbD_or, show (0x100#32) = BitVec.twoPow 32 8 from rfl, BitVec.getLsbD_twoPow]
  by_cases h : k = 8
  · subst h; simp
  · simp [h, Ne.symm h]

@[simp] theorem ofOf_withOf (ac : Word) : ofOf (withOf ac) = true := by simp [ofOf, withOf_getLsbD]

@[simp] theorem omOf_withOf (ac : Word) : omOf (withOf ac) = omOf ac := by
  rw [omOf, withOf_getLsbD]; simp [omOf]

@[simp] theorem nifOf_withOf (ac : Word) : nifOf (withOf ac) = nifOf ac := by
  rw [nifOf, withOf_getLsbD]; simp [nifOf]

@[simp] theorem ccOf_withOf (ac : Word) : ccOf (withOf ac) = ccOf ac := by
  apply BitVec.eq_of_getLsbD_eq
  intro k hk
  have : k ≠ 8 := by omega
  simp [ccOf, withOf_getLsbD, hk, this]

/-! ### The codes -/

/-- A compare gives one of less, equal and greater (R226). -/
theorem cmpCode_cases (sg : Signedness) (a b : Word) :
    cmpCode sg a b = 4 ∨ cmpCode sg a b = 2 ∨ cmpCode sg a b = 1 := by
  unfold cmpCode
  split
  · exact .inl rfl
  · split
    · exact .inr (.inl rfl)
    · exact .inr (.inr rfl)

theorem matchCode_cases (found : Bool) : matchCode found = 2 ∨ matchCode found = 0 := by
  cases found <;> decide

theorem carryCode_le (co v : Bool) : (carryCode co v).toNat ≤ 3 := by
  cases co <;> cases v <;> decide

/-- What a conditional compare leaves in CC (R227). -/
theorem concmpAc_cases (sg : Signedness) (a b ac : Word) :
    concmpAc sg a b ac = ac ∨ concmpAc sg a b ac = withCc ac 1 ∨
      concmpAc sg a b ac = withCc ac 2 := by
  unfold concmpAc
  split
  · exact .inl rfl
  · split
    · exact .inr (.inl rfl)
    · exact .inr (.inr rfl)

/-- A condition after CC is written depends on the code alone. -/
theorem checkCond_withCc (c : Cond) (ac : Word) (v : BitVec 3) :
    checkCond c (withCc ac v) = if c.mask = 0 then v == 0 else (c.mask &&& v) != 0 := by
  simp [checkCond]

end Sys2Proof.Machine
end

