-- ==== Sys2Proof/Laws/State.lean ====
section
/-! SUPPORT. What each state update does to each field and to a register, so that no proof unfolds a
record update. -/

namespace Sys2Proof.Machine

variable (s : State)

@[simp] theorem State.setReg_ip (r : Reg) (v : Word) : (s.setReg r v).ip = s.ip := rfl
@[simp] theorem State.setReg_ac (r : Reg) (v : Word) : (s.setReg r v).ac = s.ac := rfl
@[simp] theorem State.setReg_pc (r : Reg) (v : Word) : (s.setReg r v).pc = s.pc := rfl
@[simp] theorem State.setReg_tc (r : Reg) (v : Word) : (s.setReg r v).tc = s.tc := rfl
@[simp] theorem State.setReg_lockHeld (r : Reg) (v : Word) : (s.setReg r v).lockHeld = s.lockHeld := rfl
@[simp] theorem State.setReg_mem (r : Reg) (v : Word) : (s.setReg r v).mem = s.mem := rfl
@[simp] theorem State.setReg_haltIp (r : Reg) (v : Word) : (s.setReg r v).haltIp = s.haltIp := rfl
@[simp] theorem State.setReg_params (r : Reg) (v : Word) : (s.setReg r v).params = s.params := rfl
@[simp] theorem State.setReg_callsPort (r : Reg) (v : Word) : (s.setReg r v).callsPort = s.callsPort := rfl

@[simp] theorem State.setIp_x (v : Word) : (s.setIp v).x = s.x := rfl
@[simp] theorem State.setIp_ip (v : Word) : (s.setIp v).ip = v := rfl
@[simp] theorem State.setIp_ac (v : Word) : (s.setIp v).ac = s.ac := rfl
@[simp] theorem State.setIp_pc (v : Word) : (s.setIp v).pc = s.pc := rfl
@[simp] theorem State.setIp_tc (v : Word) : (s.setIp v).tc = s.tc := rfl
@[simp] theorem State.setIp_lockHeld (v : Word) : (s.setIp v).lockHeld = s.lockHeld := rfl
@[simp] theorem State.setIp_mem (v : Word) : (s.setIp v).mem = s.mem := rfl
@[simp] theorem State.setIp_haltIp (v : Word) : (s.setIp v).haltIp = s.haltIp := rfl
@[simp] theorem State.setIp_params (v : Word) : (s.setIp v).params = s.params := rfl
@[simp] theorem State.setIp_callsPort (v : Word) : (s.setIp v).callsPort = s.callsPort := rfl
@[simp] theorem State.setIp_reg (v : Word) (q : Reg) : (s.setIp v).reg q = s.reg q := rfl

@[simp] theorem State.setAc_x (v : Word) : (s.setAc v).x = s.x := rfl
@[simp] theorem State.setAc_ip (v : Word) : (s.setAc v).ip = s.ip := rfl
@[simp] theorem State.setAc_ac (v : Word) : (s.setAc v).ac = v := rfl
@[simp] theorem State.setAc_pc (v : Word) : (s.setAc v).pc = s.pc := rfl
@[simp] theorem State.setAc_tc (v : Word) : (s.setAc v).tc = s.tc := rfl
@[simp] theorem State.setAc_lockHeld (v : Word) : (s.setAc v).lockHeld = s.lockHeld := rfl
@[simp] theorem State.setAc_mem (v : Word) : (s.setAc v).mem = s.mem := rfl
@[simp] theorem State.setAc_haltIp (v : Word) : (s.setAc v).haltIp = s.haltIp := rfl
@[simp] theorem State.setAc_params (v : Word) : (s.setAc v).params = s.params := rfl
@[simp] theorem State.setAc_callsPort (v : Word) : (s.setAc v).callsPort = s.callsPort := rfl
@[simp] theorem State.setAc_reg (v : Word) (q : Reg) : (s.setAc v).reg q = s.reg q := rfl

@[simp] theorem State.setPc_x (v : Word) : (s.setPc v).x = s.x := rfl
@[simp] theorem State.setPc_ip (v : Word) : (s.setPc v).ip = s.ip := rfl
@[simp] theorem State.setPc_ac (v : Word) : (s.setPc v).ac = s.ac := rfl
@[simp] theorem State.setPc_pc (v : Word) : (s.setPc v).pc = v := rfl
@[simp] theorem State.setPc_tc (v : Word) : (s.setPc v).tc = s.tc := rfl
@[simp] theorem State.setPc_lockHeld (v : Word) : (s.setPc v).lockHeld = s.lockHeld := rfl
@[simp] theorem State.setPc_mem (v : Word) : (s.setPc v).mem = s.mem := rfl
@[simp] theorem State.setPc_haltIp (v : Word) : (s.setPc v).haltIp = s.haltIp := rfl
@[simp] theorem State.setPc_params (v : Word) : (s.setPc v).params = s.params := rfl
@[simp] theorem State.setPc_callsPort (v : Word) : (s.setPc v).callsPort = s.callsPort := rfl
@[simp] theorem State.setPc_reg (v : Word) (q : Reg) : (s.setPc v).reg q = s.reg q := rfl

@[simp] theorem State.setTc_x (v : Word) : (s.setTc v).x = s.x := rfl
@[simp] theorem State.setTc_ip (v : Word) : (s.setTc v).ip = s.ip := rfl
@[simp] theorem State.setTc_ac (v : Word) : (s.setTc v).ac = s.ac := rfl
@[simp] theorem State.setTc_pc (v : Word) : (s.setTc v).pc = s.pc := rfl
@[simp] theorem State.setTc_tc (v : Word) : (s.setTc v).tc = v := rfl
@[simp] theorem State.setTc_lockHeld (v : Word) : (s.setTc v).lockHeld = s.lockHeld := rfl
@[simp] theorem State.setTc_mem (v : Word) : (s.setTc v).mem = s.mem := rfl
@[simp] theorem State.setTc_haltIp (v : Word) : (s.setTc v).haltIp = s.haltIp := rfl
@[simp] theorem State.setTc_params (v : Word) : (s.setTc v).params = s.params := rfl
@[simp] theorem State.setTc_callsPort (v : Word) : (s.setTc v).callsPort = s.callsPort := rfl
@[simp] theorem State.setTc_reg (v : Word) (q : Reg) : (s.setTc v).reg q = s.reg q := rfl

@[simp] theorem State.setMem_x (m : Memory) : (s.setMem m).x = s.x := rfl
@[simp] theorem State.setMem_ip (m : Memory) : (s.setMem m).ip = s.ip := rfl
@[simp] theorem State.setMem_ac (m : Memory) : (s.setMem m).ac = s.ac := rfl
@[simp] theorem State.setMem_pc (m : Memory) : (s.setMem m).pc = s.pc := rfl
@[simp] theorem State.setMem_tc (m : Memory) : (s.setMem m).tc = s.tc := rfl
@[simp] theorem State.setMem_lockHeld (m : Memory) : (s.setMem m).lockHeld = s.lockHeld := rfl
@[simp] theorem State.setMem_mem (m : Memory) : (s.setMem m).mem = m := rfl
@[simp] theorem State.setMem_haltIp (m : Memory) : (s.setMem m).haltIp = s.haltIp := rfl
@[simp] theorem State.setMem_params (m : Memory) : (s.setMem m).params = s.params := rfl
@[simp] theorem State.setMem_callsPort (m : Memory) : (s.setMem m).callsPort = s.callsPort := rfl
@[simp] theorem State.setMem_reg (m : Memory) (q : Reg) : (s.setMem m).reg q = s.reg q := rfl

@[simp] theorem State.setCc_x (v : BitVec 3) : (s.setCc v).x = s.x := rfl
@[simp] theorem State.setCc_ip (v : BitVec 3) : (s.setCc v).ip = s.ip := rfl
@[simp] theorem State.setCc_ac (v : BitVec 3) : (s.setCc v).ac = withCc s.ac v := rfl
@[simp] theorem State.setCc_pc (v : BitVec 3) : (s.setCc v).pc = s.pc := rfl
@[simp] theorem State.setCc_tc (v : BitVec 3) : (s.setCc v).tc = s.tc := rfl
@[simp] theorem State.setCc_lockHeld (v : BitVec 3) : (s.setCc v).lockHeld = s.lockHeld := rfl
@[simp] theorem State.setCc_mem (v : BitVec 3) : (s.setCc v).mem = s.mem := rfl
@[simp] theorem State.setCc_haltIp (v : BitVec 3) : (s.setCc v).haltIp = s.haltIp := rfl
@[simp] theorem State.setCc_params (v : BitVec 3) : (s.setCc v).params = s.params := rfl
@[simp] theorem State.setCc_callsPort (v : BitVec 3) : (s.setCc v).callsPort = s.callsPort := rfl
@[simp] theorem State.setCc_reg (v : BitVec 3) (q : Reg) : (s.setCc v).reg q = s.reg q := rfl

@[simp] theorem State.advance_x (len : Nat) : (s.advance len).x = s.x := rfl
@[simp] theorem State.advance_ip (len : Nat) : (s.advance len).ip = s.ip + BitVec.ofNat 32 len := rfl
@[simp] theorem State.advance_ac (len : Nat) : (s.advance len).ac = s.ac := rfl
@[simp] theorem State.advance_pc (len : Nat) : (s.advance len).pc = s.pc := rfl
@[simp] theorem State.advance_tc (len : Nat) : (s.advance len).tc = s.tc := rfl
@[simp] theorem State.advance_lockHeld (len : Nat) : (s.advance len).lockHeld = s.lockHeld := rfl
@[simp] theorem State.advance_mem (len : Nat) : (s.advance len).mem = s.mem := rfl
@[simp] theorem State.advance_haltIp (len : Nat) : (s.advance len).haltIp = s.haltIp := rfl
@[simp] theorem State.advance_params (len : Nat) : (s.advance len).params = s.params := rfl
@[simp] theorem State.advance_callsPort (len : Nat) : (s.advance len).callsPort = s.callsPort := rfl
@[simp] theorem State.advance_reg (len : Nat) (q : Reg) : (s.advance len).reg q = s.reg q := rfl

@[simp] theorem State.lock_x : (s.lock).x = s.x := rfl
@[simp] theorem State.lock_ip : (s.lock).ip = s.ip := rfl
@[simp] theorem State.lock_ac : (s.lock).ac = s.ac := rfl
@[simp] theorem State.lock_pc : (s.lock).pc = s.pc := rfl
@[simp] theorem State.lock_tc : (s.lock).tc = s.tc := rfl
@[simp] theorem State.lock_lockHeld : (s.lock).lockHeld = true := rfl
@[simp] theorem State.lock_mem : (s.lock).mem = s.mem := rfl
@[simp] theorem State.lock_haltIp : (s.lock).haltIp = s.haltIp := rfl
@[simp] theorem State.lock_params : (s.lock).params = s.params := rfl
@[simp] theorem State.lock_callsPort : (s.lock).callsPort = s.callsPort := rfl
@[simp] theorem State.lock_reg (q : Reg) : (s.lock).reg q = s.reg q := rfl

@[simp] theorem State.unlock_x : (s.unlock).x = s.x := rfl
@[simp] theorem State.unlock_ip : (s.unlock).ip = s.ip := rfl
@[simp] theorem State.unlock_ac : (s.unlock).ac = s.ac := rfl
@[simp] theorem State.unlock_pc : (s.unlock).pc = s.pc := rfl
@[simp] theorem State.unlock_tc : (s.unlock).tc = s.tc := rfl
@[simp] theorem State.unlock_lockHeld : (s.unlock).lockHeld = false := rfl
@[simp] theorem State.unlock_mem : (s.unlock).mem = s.mem := rfl
@[simp] theorem State.unlock_haltIp : (s.unlock).haltIp = s.haltIp := rfl
@[simp] theorem State.unlock_params : (s.unlock).params = s.params := rfl
@[simp] theorem State.unlock_callsPort : (s.unlock).callsPort = s.callsPort := rfl
@[simp] theorem State.unlock_reg (q : Reg) : (s.unlock).reg q = s.reg q := rfl

@[simp] theorem State.setReg_reg (r : Reg) (v : Word) (q : Reg) :
    (s.setReg r v).reg q = if q = r then v else s.reg q := by
  simp [State.reg, State.setReg, Vector.getElem_set, BitVec.toNat_inj, eq_comm]

theorem State.byteAt_eq (addr : Word) : s.byteAt addr = s.mem.byteAt addr.toNat := rfl

/-- Two states that agree on every field and register are equal. -/
theorem State.ext_fields (s t : State) (hx : ∀ r, s.reg r = t.reg r) (h1 : s.ip = t.ip)
    (h2 : s.ac = t.ac) (h3 : s.pc = t.pc) (h4 : s.tc = t.tc) (h5 : s.lockHeld = t.lockHeld)
    (h6 : s.mem = t.mem) (h7 : s.haltIp = t.haltIp) (h8 : s.params = t.params)
    (h9 : s.callsPort = t.callsPort) : s = t := by
  have hv : s.x = t.x := by
    apply Vector.ext
    intro i hi
    simpa [State.reg] using hx (BitVec.ofNatLT i hi)
  cases s
  cases t
  simp_all

/-! ### Groups of registers -/

@[simp] theorem State.setRegs_ip (vs : List Word) (r : Reg) : (s.setRegs r vs).ip = s.ip := by
  induction vs generalizing s r with
  | nil => rfl
  | cons v vs ih => simp [State.setRegs, ih]

@[simp] theorem State.setRegs_ac (vs : List Word) (r : Reg) : (s.setRegs r vs).ac = s.ac := by
  induction vs generalizing s r with
  | nil => rfl
  | cons v vs ih => simp [State.setRegs, ih]

@[simp] theorem State.setRegs_pc (vs : List Word) (r : Reg) : (s.setRegs r vs).pc = s.pc := by
  induction vs generalizing s r with
  | nil => rfl
  | cons v vs ih => simp [State.setRegs, ih]

@[simp] theorem State.setRegs_tc (vs : List Word) (r : Reg) : (s.setRegs r vs).tc = s.tc := by
  induction vs generalizing s r with
  | nil => rfl
  | cons v vs ih => simp [State.setRegs, ih]

@[simp] theorem State.setRegs_lockHeld (vs : List Word) (r : Reg) : (s.setRegs r vs).lockHeld = s.lockHeld := by
  induction vs generalizing s r with
  | nil => rfl
  | cons v vs ih => simp [State.setRegs, ih]

@[simp] theorem State.setRegs_mem (vs : List Word) (r : Reg) : (s.setRegs r vs).mem = s.mem := by
  induction vs generalizing s r with
  | nil => rfl
  | cons v vs ih => simp [State.setRegs, ih]

@[simp] theorem State.setRegs_haltIp (vs : List Word) (r : Reg) : (s.setRegs r vs).haltIp = s.haltIp := by
  induction vs generalizing s r with
  | nil => rfl
  | cons v vs ih => simp [State.setRegs, ih]

@[simp] theorem State.setRegs_params (vs : List Word) (r : Reg) : (s.setRegs r vs).params = s.params := by
  induction vs generalizing s r with
  | nil => rfl
  | cons v vs ih => simp [State.setRegs, ih]

@[simp] theorem State.setRegs_callsPort (vs : List Word) (r : Reg) : (s.setRegs r vs).callsPort = s.callsPort := by
  induction vs generalizing s r with
  | nil => rfl
  | cons v vs ih => simp [State.setRegs, ih]

/-- A register outside the group keeps its value. -/
theorem State.setRegs_reg_other (vs : List Word) (r q : Reg)
    (h : ∀ k < vs.length, q ≠ r + BitVec.ofNat 5 k) : (s.setRegs r vs).reg q = s.reg q := by
  induction vs generalizing s r with
  | nil => rfl
  | cons v vs ih =>
    have h0 : q ≠ r := by simpa using h 0 (by simp)
    rw [State.setRegs, ih]
    · simp [h0]
    · intro k hk
      have := h (k + 1) (by simpa using hk)
      rwa [show r + 1 + BitVec.ofNat 5 k = r + BitVec.ofNat 5 (k + 1) by
        rw [BitVec.ofNat_add]; ac_rfl]

/-- Register `k` of the group holds word `k`. -/
theorem State.setRegs_reg (vs : List Word) (r : Reg) (k : Nat) (hk : k < vs.length)
    (hn : vs.length ≤ 32) : (s.setRegs r vs).reg (r + BitVec.ofNat 5 k) = vs[k] := by
  induction vs generalizing s r k with
  | nil => simp at hk
  | cons v vs ih =>
    rw [State.setRegs]
    cases k with
    | zero =>
      rw [State.setRegs_reg_other]
      · simp
      · intro j hj
        have : j + 1 < 32 := by simp at hn; omega
        bv_omega
    | succ k =>
      rw [show r + BitVec.ofNat 5 (k + 1) = r + 1 + BitVec.ofNat 5 k by
        rw [BitVec.ofNat_add]; ac_rfl]
      simpa using ih (s.setReg r v) (r + 1) k (by simpa using hk) (by simp at hn; omega)

@[simp] theorem State.regs_length (r : Reg) (n : Nat) : (s.regs r n).length = n := by
  induction n generalizing r with
  | zero => rfl
  | succ n ih => simp [State.regs, ih]

/-- Word `k` of a group is register `k` of it. -/
theorem State.regs_getElem (r : Reg) (n k : Nat) (h : k < (s.regs r n).length) :
    (s.regs r n)[k] = s.reg (r + BitVec.ofNat 5 k) := by
  induction n generalizing r k with
  | zero => simp [State.regs] at h
  | succ n ih =>
    cases k with
    | zero => simp [State.regs]
    | succ k =>
      have := ih (r + 1) k (by simpa [State.regs] using h)
      simp only [State.regs, List.getElem_cons_succ, this]
      rw [BitVec.ofNat_add]
      congr 1
      ac_rfl

end Sys2Proof.Machine
end

