-- ==== Sys2Proof/Laws/Memory.lean ====
section
/-! SUPPORT. Memory: a read after a write, the bytes a write leaves alone, the canonical form, and that
equal contents are equal memories. -/

namespace Sys2Proof.Machine

/-! ### One byte -/

theorem Memory.byteAt_filter (m : Memory) (a b : Nat) (h : b ≠ a) :
    Memory.byteAt (m.filter fun c => c.1 != a) b = m.byteAt b := by
  induction m with
  | nil => rfl
  | cons c m ih =>
    obtain ⟨k, v⟩ := c
    by_cases hk : k = a
    · subst hk
      simp [ih, Memory.byteAt, Ne.symm h]
    · simp [hk, Memory.byteAt, ih]

theorem Memory.byteAt_filter_self (m : Memory) (a : Nat) :
    Memory.byteAt (m.filter fun c => c.1 != a) a = Memory.unlisted := by
  induction m with
  | nil => rfl
  | cons c m ih =>
    obtain ⟨k, v⟩ := c
    by_cases hk : k = a
    · subst hk
      simpa using ih
    · simp [hk, Memory.byteAt, ih]

theorem Memory.byteAt_insert (m : Memory) (a : Nat) (v : Byte) (b : Nat)
    (h : ∀ c ∈ m, c.1 ≠ a) : (Memory.insert m a v).byteAt b = if b = a then v else m.byteAt b := by
  induction m with
  | nil => simp [Memory.insert, Memory.byteAt, eq_comm]
  | cons c m ih =>
    obtain ⟨k, w⟩ := c
    have hk : k ≠ a := h (k, w) (by simp)
    by_cases hlt : a < k
    · simp [Memory.insert, hlt, Memory.byteAt, eq_comm]
    · simp only [Memory.insert, hlt, if_false, Memory.byteAt, ih fun c hc => h c (by simp [hc])]
      by_cases hb : k = b
      · subst hb; simp [hk]
      · simp [hb]

/-- A byte read after a byte written. -/
@[simp] theorem Memory.byteAt_setByte (m : Memory) (a : Nat) (v : Byte) (b : Nat) :
    (m.setByte a v).byteAt b = if b = a then v else m.byteAt b := by
  unfold Memory.setByte
  by_cases hv : v = Memory.unlisted
  · by_cases hb : b = a
    · subst hb; simp [hv, Memory.byteAt_filter_self]
    · simp [hv, hb, Memory.byteAt_filter m a b hb]
  · simp only [hv, if_false]
    rw [Memory.byteAt_insert _ _ _ _ (by simp)]
    by_cases hb : b = a
    · simp [hb]
    · simp [hb, Memory.byteAt_filter m a b hb]

/-! ### The canonical form -/

theorem Memory.wfFrom_mono (m : Memory) (lo hi : Nat) (h : lo ≤ hi) (hw : m.wfFrom hi = true) :
    m.wfFrom lo = true := by
  cases m with
  | nil => rfl
  | cons c m =>
    obtain ⟨k, v⟩ := c
    simp only [Memory.wfFrom, Bool.and_eq_true, decide_eq_true_eq] at hw ⊢
    exact ⟨⟨⟨by omega, hw.1.1.2⟩, hw.1.2⟩, hw.2⟩

theorem Memory.wfFrom_filter (m : Memory) (lo a : Nat) (hw : m.wfFrom lo = true) :
    Memory.wfFrom lo (m.filter fun c => c.1 != a) = true := by
  induction m generalizing lo with
  | nil => rfl
  | cons c m ih =>
    obtain ⟨k, v⟩ := c
    simp only [Memory.wfFrom, Bool.and_eq_true, decide_eq_true_eq] at hw
    by_cases hk : k = a
    · simpa [hk] using Memory.wfFrom_mono _ lo (k + 1) (by omega) (ih (k + 1) hw.2)
    · rw [List.filter_cons_of_pos (by simpa using hk)]
      simp only [Memory.wfFrom, Bool.and_eq_true, decide_eq_true_eq]
      exact ⟨hw.1, ih (k + 1) hw.2⟩

theorem Memory.wfFrom_insert (m : Memory) (lo a : Nat) (v : Byte) (hlo : lo ≤ a) (ha : a < 2 ^ 32)
    (hv : v ≠ Memory.unlisted) (hne : ∀ c ∈ m, c.1 ≠ a) (hw : m.wfFrom lo = true) :
    (Memory.insert m a v).wfFrom lo = true := by
  induction m generalizing lo with
  | nil => simp [Memory.insert, Memory.wfFrom, hlo, hv]; omega
  | cons c m ih =>
    obtain ⟨k, w⟩ := c
    have hk : k ≠ a := hne (k, w) (by simp)
    simp only [Memory.wfFrom, Bool.and_eq_true, decide_eq_true_eq] at hw
    by_cases hlt : a < k
    · simp only [Memory.insert, hlt, if_true, Memory.wfFrom, Bool.and_eq_true, decide_eq_true_eq,
        bne_iff_ne, ne_eq]
      simp only [bne_iff_ne, ne_eq] at hw
      exact ⟨⟨⟨hlo, ha⟩, hv⟩, ⟨⟨by omega, hw.1.1.2⟩, hw.1.2⟩, hw.2⟩
    · simp only [Memory.insert, hlt, if_false, Memory.wfFrom, Bool.and_eq_true, decide_eq_true_eq]
      exact ⟨hw.1, ih (k + 1) (by omega) (fun c hc => hne c (by simp [hc])) hw.2⟩

/-- Writing a byte keeps the canonical form. -/
theorem Memory.wf_setByte (m : Memory) (a : Nat) (v : Byte) (ha : a < 2 ^ 32) (hw : m.wf = true) :
    (m.setByte a v).wf = true := by
  unfold Memory.setByte Memory.wf at *
  have hf := Memory.wfFrom_filter m 0 a hw
  split
  · exact hf
  · next hv => exact Memory.wfFrom_insert _ 0 a v (by omega) ha hv (by simp) hf

theorem Memory.wf_storeBytes (m : Memory) (addr : Word) (vs : List Byte) (hw : m.wf = true) :
    (m.storeBytes addr vs).wf = true := by
  induction vs generalizing m addr with
  | nil => exact hw
  | cons v vs ih => exact ih _ _ (Memory.wf_setByte _ _ _ addr.isLt hw)

theorem Memory.wf_store (m : Memory) (addr : Word) (n : Width) (v : Word) (hw : m.wf = true) :
    (m.store addr n v).wf = true := Memory.wf_storeBytes _ _ _ hw

theorem Memory.wf_storeCells (m : Memory) (vs : List (Word × Byte)) (hw : m.wf = true) :
    (m.storeCells vs).wf = true := by
  induction vs generalizing m with
  | nil => exact hw
  | cons c vs ih => exact ih _ (Memory.wf_setByte _ _ _ c.1.isLt hw)

theorem Memory.byteAt_below (m : Memory) (lo a : Nat) (hw : m.wfFrom lo = true) (ha : a < lo) :
    m.byteAt a = Memory.unlisted := by
  induction m generalizing lo with
  | nil => rfl
  | cons c m ih =>
    obtain ⟨k, v⟩ := c
    simp only [Memory.wfFrom, Bool.and_eq_true, decide_eq_true_eq] at hw
    rw [Memory.byteAt, if_neg (by omega)]
    exact ih (k + 1) hw.2 (by omega)

theorem Memory.ext_from (m n : Memory) (lo : Nat) (hm : m.wfFrom lo = true)
    (hn : n.wfFrom lo = true) (h : ∀ a, m.byteAt a = n.byteAt a) : m = n := by
  induction m generalizing lo n with
  | nil =>
    cases n with
    | nil => rfl
    | cons c n =>
      obtain ⟨k, v⟩ := c
      simp only [Memory.wfFrom, Bool.and_eq_true, bne_iff_ne, ne_eq] at hn
      exact absurd (by simpa [Memory.byteAt] using (h k).symm) hn.1.2
  | cons c m ih =>
    obtain ⟨k, v⟩ := c
    simp only [Memory.wfFrom, Bool.and_eq_true, decide_eq_true_eq, bne_iff_ne, ne_eq] at hm
    cases n with
    | nil => exact absurd (by simpa [Memory.byteAt] using h k) hm.1.2
    | cons d n =>
      obtain ⟨l, w⟩ := d
      simp only [Memory.wfFrom, Bool.and_eq_true, decide_eq_true_eq, bne_iff_ne, ne_eq] at hn
      have hkl : k = l := by
        rcases Nat.lt_trichotomy k l with hlt | heq | hlt
        · have := h k
          simp only [Memory.byteAt, if_true, if_neg (show ¬l = k by omega)] at this
          rw [Memory.byteAt_below n (l + 1) k hn.2 (by omega)] at this
          exact absurd this hm.1.2
        · exact heq
        · have := h l
          simp only [Memory.byteAt, if_true, if_neg (show ¬k = l by omega)] at this
          rw [Memory.byteAt_below m (k + 1) l hm.2 (by omega)] at this
          exact absurd this.symm hn.1.2
      subst hkl
      have hv : v = w := by simpa [Memory.byteAt] using h k
      subst hv
      congr 1
      refine ih n (k + 1) hm.2 hn.2 fun a => ?_
      by_cases ha : k = a
      · subst ha
        rw [Memory.byteAt_below m (k + 1) k hm.2 (by omega),
          Memory.byteAt_below n (k + 1) k hn.2 (by omega)]
      · simpa [Memory.byteAt, ha] using h a

/-- Canonical memories with the same contents are the same memory. -/
theorem Memory.ext_of_wf (m n : Memory) (hm : m.wf = true) (hn : n.wf = true)
    (h : ∀ a, m.byteAt a = n.byteAt a) : m = n := Memory.ext_from m n 0 hm hn h

/-! ### Runs of bytes -/

/-- Bytes outside the run are left alone. -/
theorem Memory.storeBytes_other (m : Memory) (addr : Word) (vs : List Byte) (b : Word)
    (h : ∀ k < vs.length, b ≠ addr + BitVec.ofNat 32 k) :
    (m.storeBytes addr vs).byteAt b.toNat = m.byteAt b.toNat := by
  induction vs generalizing m addr with
  | nil => rfl
  | cons v vs ih =>
    have h0 : b ≠ addr := by simpa using h 0 (by simp)
    rw [Memory.storeBytes, ih]
    · simp [BitVec.toNat_inj, h0]
    · intro k hk
      have := h (k + 1) (by simpa using hk)
      rwa [show addr + 1 + BitVec.ofNat 32 k = addr + BitVec.ofNat 32 (k + 1) by
        rw [BitVec.ofNat_add]; ac_rfl]

/-- Byte `k` of the run reads as written. -/
theorem Memory.storeBytes_getElem (m : Memory) (addr : Word) (vs : List Byte) (k : Nat)
    (hk : k < vs.length) (hn : vs.length ≤ 2 ^ 32) :
    (m.storeBytes addr vs).byteAt (addr + BitVec.ofNat 32 k).toNat = vs[k] := by
  induction vs generalizing m addr k with
  | nil => simp at hk
  | cons v vs ih =>
    rw [Memory.storeBytes]
    cases k with
    | zero =>
      rw [Memory.storeBytes_other]
      · simp
      · intro j hj
        have : j + 1 < 2 ^ 32 := by simp at hn; omega
        bv_omega
    | succ k =>
      rw [show addr + BitVec.ofNat 32 (k + 1) = addr + 1 + BitVec.ofNat 32 k by
        rw [BitVec.ofNat_add]; ac_rfl]
      simpa using ih (m.setByte addr.toNat v) (addr + 1) k (by simpa using hk) (by simp at hn; omega)

/-! ### Accesses -/

theorem Memory.wordBytes_take_length (v : Word) (n : Width) :
    ((wordBytes v).take n.bytes).length = n.bytes := by cases n <;> rfl

/-- Bytes outside the access are left alone. -/
theorem Memory.store_other (m : Memory) (addr : Word) (n : Width) (v : Word) (b : Word)
    (h : ∀ k < n.bytes, b ≠ addr + BitVec.ofNat 32 k) :
    (m.store addr n v).byteAt b.toNat = m.byteAt b.toNat :=
  Memory.storeBytes_other _ _ _ _ (by rwa [Memory.wordBytes_take_length])

/-- Byte `k` of the access holds byte `k` of the value. -/
theorem Memory.store_getElem (m : Memory) (addr : Word) (n : Width) (v : Word) (k : Nat)
    (hk : k < n.bytes) :
    (m.store addr n v).byteAt (addr + BitVec.ofNat 32 k).toNat = v.extractLsb' (8 * k) 8 := by
  have hl := Memory.wordBytes_take_length v n
  rw [Memory.store, Memory.storeBytes_getElem _ _ _ k (by omega) (by rw [hl]; cases n <;> decide)]
  cases n <;> simp only [Width.bytes] at hk <;> rcases k with _ | _ | _ | _ | k <;>
    first
    | rfl
    | omega

theorem Memory.word_of_bytes (v : Word) :
    v.extractLsb' 24 8 ++ v.extractLsb' 16 8 ++ v.extractLsb' 8 8 ++ v.extractLsb' 0 8 = v := by
  apply BitVec.eq_of_getLsbD_eq
  intro i hi
  simp only [BitVec.getLsbD_append, BitVec.getLsbD_extractLsb']
  rcases Nat.lt_or_ge i 8 with h | h
  · simp [h]
  rcases Nat.lt_or_ge i 16 with h' | h'
  · simp [show ¬i < 8 by omega, show i - 8 < 8 by omega, show 8 + (i - 8) = i by omega]
  rcases Nat.lt_or_ge i 24 with h'' | h''
  · simp [show ¬i < 8 by omega, show ¬i - 8 < 8 by omega, show i - 8 - 8 < 8 by omega,
      show 16 + (i - 8 - 8) = i by omega]
  · simp [show ¬i < 8 by omega, show ¬i - 8 < 8 by omega, show ¬i - 8 - 8 < 8 by omega,
      show i - 8 - 8 - 8 < 8 by omega, show 24 + (i - 8 - 8 - 8) = i by omega]

/-- A word read after a word written at the same address. -/
theorem Memory.load_store_word (m : Memory) (addr v : Word) :
    (m.store addr .word v).load addr .word = v := by
  have h (k : Nat) (hk : k < 4) := Memory.store_getElem m addr .word v k hk
  have h0 := h 0 (by omega)
  have h1 := h 1 (by omega)
  have h2 := h 2 (by omega)
  have h3 := h 3 (by omega)
  simp only [BitVec.add_zero] at h0 h1 h2 h3
  simp only [Memory.load, BitVec.ofNat_eq_ofNat, h0, h1, h2, h3]
  exact Memory.word_of_bytes v

/-- A word whose four bytes are left alone reads as before. -/
theorem Memory.load_congr (m m' : Memory) (addr : Word) (n : Width)
    (h : ∀ k < n.bytes,
      m'.byteAt (addr + BitVec.ofNat 32 k).toNat = m.byteAt (addr + BitVec.ofNat 32 k).toNat) :
    m'.load addr n = m.load addr n := by
  cases n
  · have h0 := h 0 (by decide)
    simp only [BitVec.add_zero] at h0
    simp only [Memory.load, h0]
  · have h0 := h 0 (by decide)
    have h1 := h 1 (by decide)
    simp only [BitVec.add_zero] at h0 h1
    simp only [Memory.load, BitVec.ofNat_eq_ofNat, h0, h1]
  · have h0 := h 0 (by decide)
    have h1 := h 1 (by decide)
    have h2 := h 2 (by decide)
    have h3 := h 3 (by decide)
    simp only [BitVec.add_zero] at h0 h1 h2 h3
    simp only [Memory.load, BitVec.ofNat_eq_ofNat, h0, h1, h2, h3]

end Sys2Proof.Machine
end

