-- ==== Sys2Proof/Laws/Ops.lean ====
section
/-! SUPPORT. What each shared operation can do, said once: a proof cites these and unfolds none of
them. -/

namespace Sys2Proof.Machine

open Sys2Proof.Config

/-! ### Outcomes -/

theorem orRefuse_next {α : Type} {e : Except Refusal α} {k : α → Result} {t : State} :
    orRefuse e k = .next t ↔ ∃ v, e = .ok v ∧ k v = .next t := by
  cases e <;> simp [orRefuse]

theorem orRefuse_fault {α : Type} {e : Except Refusal α} {k : α → Result} {f : Fault} :
    orRefuse e k = .fault f ↔ ∃ v, e = .ok v ∧ k v = .fault f := by
  cases e <;> simp [orRefuse]

theorem orRefuse_refused {α : Type} {e : Except Refusal α} {k : α → Result} {r : Refusal} :
    orRefuse e k = .refused r ↔ e = .error r ∨ ∃ v, e = .ok v ∧ k v = .refused r := by
  cases e <;> simp [orRefuse]

@[simp] theorem raise_ne_next (f : FaultType) (p : Word) (s t : State) : raise f p s ≠ .next t := by
  simp [raise]

/-! ### Accesses -/

theorem portRefuses_compose (s : State) (addr : Word) (n : Width)
    (h : s.params.misalignedData = .compose) : s.portRefuses addr n = false := by
  simp [State.portRefuses, h]

theorem portRefuses_aligned (s : State) (addr : Word) (n : Width)
    (h : addr.toNat % n.bytes = 0) : s.portRefuses addr n = false := by
  simp [State.portRefuses, h]

theorem read_ok {s : State} {addr : Word} {n : Width} {v : Word} :
    s.read addr n = .ok v ↔ s.portRefuses addr n = false ∧ v = s.mem.load addr n := by
  unfold State.read
  split <;> constructor <;> intro h <;> simp_all

theorem read_error {s : State} {addr : Word} {n : Width} {r : Refusal} :
    s.read addr n = .error r ↔ s.portRefuses addr n = true ∧ r = .misalignedData := by
  unfold State.read
  split <;> constructor <;> intro h <;> simp_all

theorem write_ok {s t : State} {addr : Word} {n : Width} {v : Word} :
    s.write addr n v = .ok t ↔
      s.portRefuses addr n = false ∧ t = s.setMem (s.mem.store addr n v) := by
  unfold State.write
  split <;> constructor <;> intro h <;> simp_all

theorem write_error {s : State} {addr : Word} {n : Width} {v : Word} {r : Refusal} :
    s.write addr n v = .error r ↔ s.portRefuses addr n = true ∧ r = .misalignedData := by
  unfold State.write
  split <;> constructor <;> intro h <;> simp_all

/-- The address of word `k` of a run. -/
theorem wordAddr_succ (addr : Word) (k : Nat) :
    addr + BitVec.ofNat 32 (4 * (k + 1)) = addr + 4 + BitVec.ofNat 32 (4 * k) := by
  rw [show 4 * (k + 1) = 4 + 4 * k by omega, BitVec.ofNat_add, ← BitVec.add_assoc]
  rfl

/-- A run of words that is read gives the word at each address. -/
theorem readWords_ok {s : State} {addr : Word} {n : Nat} {vs : List Word}
    (h : s.readWords addr n = .ok vs) :
    vs.length = n ∧ ∀ k (hk : k < vs.length),
      vs[k] = s.mem.load (addr + BitVec.ofNat 32 (4 * k)) .word ∧
        s.portRefuses (addr + BitVec.ofNat 32 (4 * k)) .word = false := by
  induction n generalizing addr vs with
  | zero =>
    simp only [State.readWords, Except.ok.injEq] at h
    subst h
    simp
  | succ n ih =>
    simp only [State.readWords] at h
    split at h
    · simp at h
    · next v hv =>
      split at h
      · simp at h
      · next ws hws =>
        simp only [Except.ok.injEq] at h
        subst h
        obtain ⟨hl, hk⟩ := ih hws
        obtain ⟨hp, rfl⟩ := read_ok.1 hv
        refine ⟨by simp [hl], fun k hk' => ?_⟩
        cases k with
        | zero => simp [hp]
        | succ k =>
          rw [wordAddr_succ]
          exact hk k (by simpa using hk')

/-- A run of words none of which the port refuses is read. -/
theorem readWords_total (s : State) (addr : Word) (n : Nat)
    (h : ∀ k < n, s.portRefuses (addr + BitVec.ofNat 32 (4 * k)) .word = false) :
    ∃ vs, s.readWords addr n = .ok vs := by
  induction n generalizing addr with
  | zero => exact ⟨[], rfl⟩
  | succ n ih =>
    have h0 := h 0 (by omega)
    obtain ⟨vs, hvs⟩ := ih (addr + 4) fun k hk => by
      rw [← wordAddr_succ]
      exact h (k + 1) (by omega)
    simp only [Nat.mul_zero, BitVec.add_zero] at h0
    refine ⟨s.mem.load addr .word :: vs, ?_⟩
    rw [State.readWords, read_ok.2 ⟨h0, rfl⟩]
    simp only [hvs]

/-- The one refusal of a run of reads. -/
theorem readWords_error {s : State} {addr : Word} {n : Nat} {r : Refusal}
    (h : s.readWords addr n = .error r) : r = .misalignedData := by
  induction n generalizing addr with
  | zero => simp [State.readWords] at h
  | succ n ih =>
    simp only [State.readWords] at h
    split at h
    · next hv =>
      simp only [Except.error.injEq] at h
      subst h
      exact (read_error.1 hv).2
    · split at h
      · next hws =>
        simp only [Except.error.injEq] at h
        subst h
        exact ih hws
      · simp at h

/-- Everything a run of word writes does: only memory changes, its form is kept, and the bytes outside
the run are left alone. -/
theorem writeWords_ok {s t : State} {addr : Word} {vs : List Word}
    (h : s.writeWords addr vs = .ok t) :
    t = s.setMem t.mem ∧ (s.mem.wf = true → t.mem.wf = true) ∧
      (∀ k < vs.length, s.portRefuses (addr + BitVec.ofNat 32 (4 * k)) .word = false) ∧
      ∀ b : Word, (∀ j < 4 * vs.length, b ≠ addr + BitVec.ofNat 32 j) → t.byteAt b = s.byteAt b := by
  induction vs generalizing s addr with
  | nil =>
    simp only [State.writeWords, Except.ok.injEq] at h
    subst h
    exact ⟨rfl, id, by simp, fun _ _ => rfl⟩
  | cons v vs ih =>
    simp only [State.writeWords] at h
    split at h
    · simp at h
    · next u hu =>
      obtain ⟨hp, rfl⟩ := write_ok.1 hu
      obtain ⟨ht, hw, hr, hb⟩ := ih h
      refine ⟨ht, fun hm => hw (Memory.wf_store _ _ _ _ hm), fun k hk => ?_, fun b hbs => ?_⟩
      · cases k with
        | zero => simpa using hp
        | succ k =>
          rw [wordAddr_succ]
          exact hr k (by simpa using hk)
      · rw [hb b fun j hj => ?_]
        · exact Memory.store_other _ _ _ _ _ fun k hk => hbs k (by
            simp only [Width.bytes] at hk
            simp only [List.length_cons]
            omega)
        · have := hbs (4 + j) (by simp only [List.length_cons]; omega)
          rwa [BitVec.ofNat_add, ← BitVec.add_assoc] at this

/-- A run of words none of which the port refuses is written. -/
theorem writeWords_total (s : State) (addr : Word) (vs : List Word)
    (h : ∀ k < vs.length, s.portRefuses (addr + BitVec.ofNat 32 (4 * k)) .word = false) :
    ∃ t, s.writeWords addr vs = .ok t := by
  induction vs generalizing s addr with
  | nil => exact ⟨s, rfl⟩
  | cons v vs ih =>
    have h0 := h 0 (by simp)
    simp only [Nat.mul_zero, BitVec.add_zero] at h0
    obtain ⟨t, ht⟩ := ih (s.setMem (s.mem.store addr .word v)) (addr + 4) fun k hk => by
      have := h (k + 1) (by simpa using hk)
      rwa [wordAddr_succ] at this
    refine ⟨t, ?_⟩
    rw [State.writeWords, write_ok.2 ⟨h0, rfl⟩]
    simp only [ht]

/-- The one refusal of a run of writes. -/
theorem writeWords_error {s : State} {addr : Word} {vs : List Word} {r : Refusal}
    (h : s.writeWords addr vs = .error r) : r = .misalignedData := by
  induction vs generalizing s addr with
  | nil => simp [State.writeWords] at h
  | cons v vs ih =>
    simp only [State.writeWords] at h
    split at h
    · next hu =>
      simp only [Except.error.injEq] at h
      subst h
      exact (write_error.1 hu).2
    · exact ih h

/-- A word written in a run of at most 2^30 words reads back. -/
theorem writeWords_load {s t : State} {addr : Word} {vs : List Word}
    (h : s.writeWords addr vs = .ok t) (hn : vs.length ≤ 2 ^ 30) (k : Nat) (hk : k < vs.length) :
    t.mem.load (addr + BitVec.ofNat 32 (4 * k)) .word = vs[k] := by
  induction vs generalizing s addr k with
  | nil => simp at hk
  | cons v vs ih =>
    simp only [State.writeWords] at h
    split at h
    · simp at h
    · next u hu =>
      obtain ⟨-, rfl⟩ := write_ok.1 hu
      simp only [List.length_cons] at hn hk
      cases k with
      | zero =>
        simp only [Nat.mul_zero, BitVec.add_zero, List.getElem_cons_zero]
        obtain ⟨-, -, -, hb⟩ := writeWords_ok h
        rw [← Memory.load_store_word s.mem addr v]
        refine Memory.load_congr _ _ _ _ fun j hj => ?_
        simp only [Width.bytes] at hj
        refine hb _ fun i hi => ?_
        bv_omega
      | succ k =>
        rw [wordAddr_succ]
        exact ih h (by omega) k (by omega)

/-! ### The overflow policy and the checks -/

/-- A commit that answers a next state: no overflow and the effect, or a masked one, the effect and
OF. -/
theorem commit_next {v : Bool} {p : Word} {s t : State} {e : State → Except Refusal State} :
    commit v p s e = .next t ↔
      (v = false ∧ e s = .ok t) ∨
        (v = true ∧ omOf s.ac = true ∧ ∃ u, e s = .ok u ∧ t = u.setAc (withOf u.ac)) := by
  unfold commit overflowEvent
  cases v
  · simp [orRefuse_next]
  · cases omOf s.ac
    · cases s.params.overflowWrite <;> simp [orRefuse_next]
    · simp only [Bool.true_eq_false, false_and, true_and, false_or, if_true, orRefuse_next,
        Host.Outcome.next.injEq]
      constructor <;> rintro ⟨u, h, rfl⟩ <;> exact ⟨u, h, rfl⟩

/-- A commit that faults: an overflow that is not masked. -/
theorem commit_fault {v : Bool} {p : Word} {s : State} {e : State → Except Refusal State}
    {f : Fault} :
    commit v p s e = .fault f ↔
      v = true ∧ omOf s.ac = false ∧ ∃ u, f = .raised .integerOverflow p u ∧
        ((s.params.overflowWrite = .written ∧ e s = .ok u) ∨
          (s.params.overflowWrite = .unchanged ∧ u = s)) := by
  unfold commit overflowEvent
  cases v
  · simp [orRefuse_fault]
  · cases omOf s.ac
    · cases s.params.overflowWrite
      · simp only [if_true, Bool.false_eq_true, if_false, orRefuse_fault, raise, true_and,
          Host.Outcome.fault.injEq, reduceCtorEq, false_and, or_false]
        constructor
        · rintro ⟨u, h, rfl⟩
          exact ⟨u, rfl, h⟩
        · rintro ⟨u, rfl, h⟩
          exact ⟨u, h, rfl⟩
      · simp only [if_true, Bool.false_eq_true, if_false, raise, true_and,
          Host.Outcome.fault.injEq, reduceCtorEq, false_and, false_or]
        constructor
        · rintro rfl
          exact ⟨s, rfl, rfl⟩
        · rintro ⟨u, rfl, rfl⟩
          rfl
    · simp [orRefuse_fault]

/-- A commit that is refused: its effect is. -/
theorem commit_refused {v : Bool} {p : Word} {s : State} {e : State → Except Refusal State}
    {r : Refusal} (h : commit v p s e = .refused r) : e s = .error r := by
  unfold commit overflowEvent at h
  cases v
  · simpa [orRefuse_refused] using h
  · cases hm : omOf s.ac
    · cases hw : s.params.overflowWrite <;> simp_all [orRefuse_refused, raise]
    · simp_all [orRefuse_refused]

theorem requireSupervisor_next {s a t : State} {k : Result} :
    requireSupervisor s a k = .next t ↔ emOf s.pc = true ∧ k = .next t := by
  unfold requireSupervisor
  split <;> simp_all

theorem requireSupervisor_fault {s a : State} {k : Result} {f : Fault} :
    requireSupervisor s a k = .fault f ↔
      (emOf s.pc = true ∧ k = .fault f) ∨
        (emOf s.pc = false ∧ f = .raised .typeMismatch s.ip a) := by
  unfold requireSupervisor raise
  split <;> constructor <;> intro h <;> simp_all

theorem requireDivisor_next {d : Word} {s a t : State} {k : Result} :
    requireDivisor d s a k = .next t ↔ d ≠ 0 ∧ k = .next t := by
  unfold requireDivisor
  split <;> simp_all

theorem requireDivisor_fault {d : Word} {s a : State} {k : Result} {f : Fault} :
    requireDivisor d s a k = .fault f ↔
      (d ≠ 0 ∧ k = .fault f) ∨ (d = 0 ∧ f = .raised .divisionByZero s.ip a) := by
  unfold requireDivisor raise
  split <;> constructor <;> intro h <;> simp_all

theorem requireGroup_next {n : Nat} {r : Reg} {k : Result} {t : State} :
    requireGroup n r k = .next t ↔ groupAligned n r = true ∧ k = .next t := by
  unfold requireGroup
  split <;> simp_all

theorem requireGroup_fault {n : Nat} {r : Reg} {k : Result} {f : Fault} :
    requireGroup n r k = .fault f ↔ groupAligned n r = true ∧ k = .fault f := by
  unfold requireGroup
  split <;> simp_all

theorem requireGroup_refused {n : Nat} {r : Reg} {k : Result} {q : Refusal} :
    requireGroup n r k = .refused q ↔
      (groupAligned n r = true ∧ k = .refused q) ∨
        (groupAligned n r = false ∧ q = .unalignedGroup) := by
  unfold requireGroup
  split <;> constructor <;> intro h <;> simp_all

theorem requireReg_next {a : Src} {k : Reg → Result} {t : State} :
    requireReg a k = .next t ↔ ∃ r, a = .reg r ∧ k r = .next t := by
  cases a <;> simp [requireReg]

theorem requireReg_fault {a : Src} {k : Reg → Result} {f : Fault} :
    requireReg a k = .fault f ↔ ∃ r, a = .reg r ∧ k r = .fault f := by
  cases a <;> simp [requireReg]

theorem requireReg_refused {a : Src} {k : Reg → Result} {q : Refusal} :
    requireReg a k = .refused q ↔
      (∃ r, a = .reg r ∧ k r = .refused q) ∨ (∃ v, a = .lit v) ∧ q = .literalGroup := by
  cases a <;> simp [requireReg, eq_comm]

theorem whenCond_next {c : Cond} {s t : State} {k : Result} :
    whenCond c s k = .next t ↔
      (checkCond c s.ac = true ∧ k = .next t) ∨ (checkCond c s.ac = false ∧ t = s.advance 4) := by
  unfold whenCond nothing
  split <;> constructor <;> intro h <;> simp_all

theorem whenCond_fault {c : Cond} {s : State} {k : Result} {f : Fault} :
    whenCond c s k = .fault f ↔ checkCond c s.ac = true ∧ k = .fault f := by
  unfold whenCond nothing
  split <;> simp_all

theorem whenCond_refused {c : Cond} {s : State} {k : Result} {r : Refusal} :
    whenCond c s k = .refused r ↔ checkCond c s.ac = true ∧ k = .refused r := by
  unfold whenCond nothing
  split <;> simp_all

/-- A checked write of a register: it is never refused, and what it gives is `commit_next` and
`commit_fault` at this effect. -/
theorem writeChecked_next {v : Bool} {c : Reg} {w : Word} {s t : State} :
    writeChecked v c w s = .next t ↔
      (v = false ∧ t = (s.advance 4).setReg c w) ∨
        (v = true ∧ omOf s.ac = true ∧
          t = ((s.advance 4).setReg c w).setAc (withOf s.ac)) := by
  rw [writeChecked, commit_next]
  constructor
  · rintro (⟨hv, h⟩ | ⟨hv, ho, u, h, rfl⟩)
    · exact .inl ⟨hv, by simpa using h.symm⟩
    · simp only [Except.ok.injEq] at h
      subst h
      exact .inr ⟨hv, ho, rfl⟩
  · rintro (⟨hv, rfl⟩ | ⟨hv, ho, rfl⟩)
    · exact .inl ⟨hv, rfl⟩
    · exact .inr ⟨hv, ho, _, rfl, rfl⟩

theorem writeChecked_refused {v : Bool} {c : Reg} {w : Word} {s : State} {r : Refusal} :
    writeChecked v c w s ≠ .refused r := fun h => by
  simpa using commit_refused h

/-! ### The atomic sequence -/

/-- Everything the atomic sequence can do. -/
theorem atomicModify_next {addr : Word} {f : Word → Word} {c : Reg} {s t : State} :
    atomicModify addr f c s = .next t ↔
      s.lockHeld = false ∧
        t = (s.setMem (s.mem.store addr .word (f (s.mem.load addr .word)))).setReg c
          (s.mem.load addr .word) := by
  unfold atomicModify
  cases h : s.lockHeld
  · have hu : ∀ m, ((s.lock.setMem m).unlock) = s.setMem m := fun m => by
      simp [State.unlock, State.setMem, State.lock, ← h]
    simp only [Bool.false_eq_true, if_false, hu, Host.Outcome.next.injEq, true_and]
    exact eq_comm
  · simp

/-! ### Call and return -/

/-- Everything a call does: the window is saved, the four registers are written, `ip` is the target,
and nothing else changes. -/
theorem callProc_next {target : Word} {s t : State} :
    callProc target s = .next t ↔
      ∃ u, (s.setReg .rip s.ip).writeWords (s.reg .fp) ((s.setReg .rip s.ip).regs 0 16) = .ok u ∧
        t = (((u.setReg .pfp (s.reg .fp)).setReg .fp (nextFrame (s.reg .sp))).setReg .sp
          (nextFrame (s.reg .sp) + 64)).setIp target := by
  have hf : (s.setReg .rip s.ip).reg .fp = s.reg .fp := by simp
  simp only [callProc, hf, orRefuse_next]
  constructor <;> rintro ⟨u, h, ht⟩
  · exact ⟨u, h, by simpa using ht.symm⟩
  · exact ⟨u, h, by simpa using ht.symm⟩

/-- Everything a return does: the window is read at the masked PFP, r0..r15 and FP are written and
`ip` is the reloaded RIP. -/
theorem retProc_next {s t : State} :
    retProc s = .next t ↔
      (s.reg .pfp).extractLsb' 0 3 = 0 ∧
        ∃ vs, (s.setReg .fp (s.reg .pfp &&& ~~~63#32)).readWords (s.reg .pfp &&& ~~~63#32) 16 =
            .ok vs ∧
          t = ((s.setReg .fp (s.reg .pfp &&& ~~~63#32)).setRegs 0 vs).setIp
            (((s.setReg .fp (s.reg .pfp &&& ~~~63#32)).setRegs 0 vs).reg .rip) := by
  unfold retProc
  by_cases h : (s.reg .pfp).extractLsb' 0 3 = 0
  · rw [if_neg (by simpa using h), orRefuse_next]
    constructor
    · rintro ⟨u, hu, ht⟩
      exact ⟨h, u, hu, by simpa using ht.symm⟩
    · rintro ⟨-, u, hu, ht⟩
      exact ⟨u, hu, by simpa using ht.symm⟩
  · rw [if_pos (by simpa using h)]
    exact ⟨fun h' => by simp at h', fun h' => absurd h'.1 h⟩

/-! ### The environment -/

/-- What an answered call keeps. -/
theorem answerCalls_next {v : Word} {s t : State} (h : answerCalls v s = .next t) :
    t.lockHeld = s.lockHeld ∧ t.haltIp = s.haltIp ∧ t.params = s.params ∧ t.callsPort = none ∧
      (s.mem.wf = true → t.mem.wf = true) := by
  unfold answerCalls at h
  split at h
  · simp only [Host.Outcome.next.injEq] at h
    subst h
    exact ⟨rfl, rfl, rfl, rfl, Memory.wf_storeCells _ _⟩
  · simp at h

end Sys2Proof.Machine
end

