-- ==== Sys2Proof/Laws/Frames.lean ====
section
/-! SUPPORT. Frames: how they compose, the frame of each state update, and the frame of each shape of
effect the meanings share. -/

namespace Sys2Proof.Machine

/-! ### Frames compose -/

theorem Frame.refl (w : Scope) (s : State) : Frame w s s :=
  ⟨fun _ _ => rfl, rfl, rfl, rfl, fun _ _ => rfl, fun _ => rfl, rfl, rfl, rfl⟩

theorem Frame.trans {w : Scope} {s t u : State} (h : Frame w s t) (g : Frame w t u) : Frame w s u :=
  ⟨fun r hr => (g.regs r hr).trans (h.regs r hr), g.ac.trans h.ac, g.pc.trans h.pc,
    g.tc.trans h.tc, fun a ha => (g.bytes a ha).trans (h.bytes a ha),
    fun hp => (g.port hp).trans (h.port hp), g.lockHeld.trans h.lockHeld, g.haltIp.trans h.haltIp,
    g.params.trans h.params⟩

theorem and_not_mono {x y v w : Word} (h : x &&& ~~~v = y &&& ~~~v) (hm : v &&& ~~~w = 0) :
    x &&& ~~~w = y &&& ~~~w := by
  apply BitVec.eq_of_getLsbD_eq
  intro k hk
  have h1 := congrArg (·.getLsbD k) h
  have h2 := congrArg (·.getLsbD k) hm
  simp only [BitVec.getLsbD_and, BitVec.getLsbD_not, hk, decide_true, Bool.true_and] at h1 h2 ⊢
  simp only [BitVec.ofNat_eq_ofNat, BitVec.getLsbD_zero] at h2
  revert h1 h2
  cases x.getLsbD k <;> cases y.getLsbD k <;> cases v.getLsbD k <;> cases w.getLsbD k <;> simp

/-- A wider scope allows more. -/
theorem Frame.mono {v w : Scope} {s t : State} (h : Frame v s t) (hr : ∀ r ∈ v.regs, r ∈ w.regs)
    (hac : v.ac &&& ~~~w.ac = 0) (hpc : v.pc &&& ~~~w.pc = 0) (htc : v.tc &&& ~~~w.tc = 0)
    (hb : ∀ a ∈ v.bytes, a ∈ w.bytes) (hp : w.port = false → v.port = false) : Frame w s t :=
  ⟨fun r hn => h.regs r fun hv => hn (hr r hv), and_not_mono h.ac hac, and_not_mono h.pc hpc,
    and_not_mono h.tc htc, fun a hn => h.bytes a fun hv => hn (hb a hv), fun hw => h.port (hp hw),
    h.lockHeld, h.haltIp, h.params⟩

/-! ### Updates -/

variable (s : State)

theorem frame_setIp (w : Scope) (v : Word) : Frame w s (s.setIp v) :=
  ⟨fun _ _ => rfl, rfl, rfl, rfl, fun _ _ => rfl, fun _ => rfl, rfl, rfl, rfl⟩

theorem frame_advance (w : Scope) (n : Nat) : Frame w s (s.advance n) := frame_setIp s w _

theorem frame_setReg (w : Scope) (r : Reg) (v : Word) (h : r ∈ w.regs) : Frame w s (s.setReg r v) :=
  ⟨fun q hq => by
    rw [State.setReg_reg, if_neg]
    rintro rfl
    exact hq h, rfl, rfl, rfl, fun _ _ => rfl, fun _ => rfl, rfl, rfl, rfl⟩

theorem frame_setCc (w : Scope) (v : BitVec 3) (h : 7#32 &&& ~~~w.ac = 0) : Frame w s (s.setCc v) :=
  ⟨fun _ _ => rfl, and_not_mono (withCc_outside s.ac v) h, rfl, rfl, fun _ _ => rfl, fun _ => rfl,
    rfl, rfl, rfl⟩

theorem withOf_outside (ac : Word) : withOf ac &&& ~~~0x100#32 = ac &&& ~~~0x100#32 := by
  apply BitVec.eq_of_getLsbD_eq
  intro k hk
  simp only [withOf, BitVec.getLsbD_and, BitVec.getLsbD_or, BitVec.getLsbD_not, hk, decide_true,
    Bool.true_and]
  cases ac.getLsbD k <;> cases (0x100#32).getLsbD k <;> rfl

theorem frame_setOf (w : Scope) (h : 0x100#32 &&& ~~~w.ac = 0) : Frame w s (s.setAc (withOf s.ac)) :=
  ⟨fun _ _ => rfl, and_not_mono (withOf_outside s.ac) h, rfl, rfl, fun _ _ => rfl, fun _ => rfl,
    rfl, rfl, rfl⟩

theorem and_not_allOnes (x y : Word) :
    x &&& ~~~BitVec.allOnes 32 = y &&& ~~~BitVec.allOnes 32 := by simp

theorem modifyBits_getLsbD (x y m : Word) (k : Nat) :
    (modifyBits x y m).getLsbD k = if m.getLsbD k then y.getLsbD k else x.getLsbD k := by
  unfold modifyBits
  by_cases hk : k < 32
  · simp only [BitVec.getLsbD_or, BitVec.getLsbD_and, BitVec.getLsbD_not, hk, decide_true,
      Bool.true_and]
    cases m.getLsbD k <;> simp
  · simp [BitVec.getLsbD_of_ge _ k (Nat.le_of_not_lt hk)]

theorem modifyBits_outside (x y m : Word) : modifyBits x y m &&& ~~~m = x &&& ~~~m := by
  apply BitVec.eq_of_getLsbD_eq
  intro k hk
  simp only [BitVec.getLsbD_and, BitVec.getLsbD_not, hk, decide_true, Bool.true_and,
    modifyBits_getLsbD]
  cases m.getLsbD k <;> simp

theorem mem_span {addr a : Word} {n : Nat} :
    a ∈ span addr n ↔ ∃ k < n, addr + BitVec.ofNat 32 k = a := by simp [span]

theorem mem_groupRegs {r q : Reg} {n : Nat} :
    q ∈ groupRegs r n ↔ ∃ k < n, r + BitVec.ofNat 5 k = q := by simp [groupRegs]

theorem frame_setRegs (w : Scope) (r : Reg) (vs : List Word)
    (h : ∀ q ∈ groupRegs r vs.length, q ∈ w.regs) : Frame w s (s.setRegs r vs) :=
  ⟨fun q hq => State.setRegs_reg_other s vs r q fun k hk e =>
      hq (h q (mem_groupRegs.2 ⟨k, hk, e.symm⟩)),
    by rw [State.setRegs_ac], by rw [State.setRegs_pc], by rw [State.setRegs_tc],
    fun a _ => by simp [State.byteAt], fun _ => State.setRegs_callsPort s vs r,
    State.setRegs_lockHeld s vs r, State.setRegs_haltIp s vs r, State.setRegs_params s vs r⟩

theorem frame_store (w : Scope) (addr : Word) (n : Width) (v : Word)
    (h : ∀ a ∈ span addr n.bytes, a ∈ w.bytes) :
    Frame w s (s.setMem (s.mem.store addr n v)) :=
  ⟨fun _ _ => rfl, rfl, rfl, rfl, fun a ha => Memory.store_other _ _ _ _ _ fun k hk e =>
      ha (h a (mem_span.2 ⟨k, hk, e.symm⟩)), fun _ => rfl, rfl, rfl, rfl⟩

theorem frame_writeWords {t : State} (w : Scope) (addr : Word) (vs : List Word)
    (h : ∀ a ∈ span addr (4 * vs.length), a ∈ w.bytes) (hw : s.writeWords addr vs = .ok t) :
    Frame w s t := by
  obtain ⟨ht, -, -, hb⟩ := writeWords_ok hw
  refine ⟨?_, ?_, ?_, ?_, fun a ha => hb a fun j hj e => ha (h a (mem_span.2 ⟨j, hj, e.symm⟩)),
    ?_, ?_, ?_, ?_⟩ <;> rw [ht] <;> intros <;> rfl

/-! ### Shapes of effect -/

theorem frame_nothing {w : Scope} {s t : State} (h : nothing s = .next t) : Frame w s t := by
  simp only [nothing, Host.Outcome.next.injEq] at h
  exact h ▸ frame_advance s w 4

theorem frame_writeReg {w : Scope} {c : Reg} {v : Word} {s t : State} (hc : c ∈ w.regs)
    (h : writeReg c v s = .next t) : Frame w s t := by
  simp only [writeReg, Host.Outcome.next.injEq] at h
  exact h ▸ (frame_advance s w 4).trans (frame_setReg _ w c v hc)

theorem frame_writeCc {w : Scope} {code : BitVec 3} {s t : State} (hw : 7#32 &&& ~~~w.ac = 0)
    (h : writeCc code s = .next t) : Frame w s t := by
  simp only [writeCc, Host.Outcome.next.injEq] at h
  exact h ▸ (frame_advance s w 4).trans (frame_setCc _ w code hw)

theorem frame_writeCcReg {w : Scope} {code : BitVec 3} {c : Reg} {v : Word} {s t : State}
    (hw : 7#32 &&& ~~~w.ac = 0) (hc : c ∈ w.regs) (h : writeCcReg code c v s = .next t) :
    Frame w s t := by
  simp only [writeCcReg, Host.Outcome.next.injEq] at h
  exact h ▸ ((frame_advance s w 4).trans (frame_setCc _ w code hw)).trans (frame_setReg _ w c v hc)

theorem frame_writeChecked {w : Scope} {v : Bool} {c : Reg} {x : Word} {s t : State}
    (hw : 0x100#32 &&& ~~~w.ac = 0) (hc : c ∈ w.regs) (h : writeChecked v c x s = .next t) :
    Frame w s t := by
  obtain ⟨-, rfl⟩ | ⟨-, -, rfl⟩ := writeChecked_next.1 h
  · exact (frame_advance s w 4).trans (frame_setReg _ w c x hc)
  · exact ((frame_advance s w 4).trans (frame_setReg _ w c x hc)).trans (frame_setOf _ w hw)

theorem frame_whenCond {w : Scope} {c : Cond} {k : Result} {s t : State}
    (hk : k = .next t → Frame w s t) (h : whenCond c s k = .next t) : Frame w s t := by
  obtain ⟨-, h⟩ | ⟨-, rfl⟩ := whenCond_next.1 h
  · exact hk h
  · exact frame_advance s w 4

theorem frame_atomicModify {w : Scope} {addr : Word} {f : Word → Word} {c : Reg} {s t : State}
    (hc : c ∈ w.regs) (hb : ∀ a ∈ span addr 4, a ∈ w.bytes)
    (h : atomicModify addr f c s = .next t) : Frame w s t := by
  obtain ⟨-, rfl⟩ := atomicModify_next.1 h
  exact (frame_store s w addr .word _ hb).trans (frame_setReg _ w c _ hc)

theorem frame_callProc {target : Word} {s t : State} (h : callProc target s = .next t) :
    Frame (callScope s) s t := by
  obtain ⟨u, hu, rfl⟩ := callProc_next.1 h
  have hr (q : Reg) (hq : q = .pfp ∨ q = .sp ∨ q = .rip ∨ q = .fp) : q ∈ (callScope s).regs := by
    rcases hq with rfl | rfl | rfl | rfl <;> simp [callScope]
  refine (((((frame_setReg s _ .rip s.ip (hr _ (by simp))).trans
    (frame_writeWords _ _ _ _ ?_ hu)).trans (frame_setReg _ _ .pfp _ (hr _ (by simp)))).trans
    (frame_setReg _ _ .fp _ (hr _ (by simp)))).trans
    (frame_setReg _ _ .sp _ (hr _ (by simp)))).trans (frame_setIp _ _ _)
  rw [State.regs_length]
  exact fun _ ha => ha

theorem frame_retProc {s t : State} (h : retProc s = .next t) :
    Frame { regs := .fp :: groupRegs 0 16 } s t := by
  obtain ⟨-, vs, hvs, rfl⟩ := retProc_next.1 h
  obtain ⟨hl, -⟩ := readWords_ok hvs
  refine ((frame_setReg s _ .fp _ (by simp)).trans (frame_setRegs _ _ 0 vs ?_)).trans
    (frame_setIp _ _ _)
  rw [hl]
  exact fun q hq => List.mem_cons_of_mem _ hq

end Sys2Proof.Machine
end

