-- ==== Sys2Proof/Laws/PerInstr.lean ====
section
/-! SUPPORT. Per instruction: the first word the encoder writes matches the instruction's row of
spec/opcode_table.json, and its length is the number of words written. -/

namespace Sys2Proof.Laws

/-! ### The rows -/

theorem mask_format (w : Word) :
    w &&& 0xFF000001#32 = opField w ++ 0#23 ++ BitVec.ofBool (w.getLsbD 0) := by
  apply BitVec.eq_of_getLsbD_eq
  intro k hk
  rw [BitVec.getLsbD_append, BitVec.getLsbD_append, BitVec.getLsbD_and, opField,
    BitVec.getLsbD_extractLsb']
  have hm : (0xFF000001#32).getLsbD k = (k == 0 || decide (24 ≤ k)) := by
    revert k; decide
  rw [hm]
  by_cases h0 : k = 0
  · subst h0; simp
  · by_cases h : 24 ≤ k
    · simp [h, show ¬k < 1 by omega, show ¬k - 1 < 23 by omega, show k - 1 - 23 < 8 by omega,
        show 24 + (k - 1 - 23) = k by omega]
    · simp [h0, h, show ¬k < 1 by omega, show k - 1 < 23 by omega]

theorem mask_op (w : Word) : w &&& 0xFF000000#32 = opField w ++ 0#24 := by
  apply BitVec.eq_of_getLsbD_eq
  intro k hk
  rw [BitVec.getLsbD_append, BitVec.getLsbD_and, opField, BitVec.getLsbD_extractLsb']
  have hm : (0xFF000000#32).getLsbD k = decide (24 ≤ k) := by
    revert k; decide
  rw [hm]
  by_cases h : 24 ≤ k
  · simp [h, show ¬k < 24 by omega, show k - 24 < 8 by omega, show 24 + (k - 24) = k by omega]
  · simp [h, show k < 24 by omega]

theorem mask_reg (w : Word) :
    w &&& 0xFF000780#32 = opField w ++ 0#13 ++ regFunField w ++ 0#7 := by
  apply BitVec.eq_of_getLsbD_eq
  intro k hk
  rw [BitVec.getLsbD_append, BitVec.getLsbD_append, BitVec.getLsbD_append, BitVec.getLsbD_and,
    opField, BitVec.getLsbD_extractLsb', regFunField, BitVec.getLsbD_extractLsb']
  have hm : (0xFF000780#32).getLsbD k = (decide (24 ≤ k) || decide (7 ≤ k ∧ k < 11)) := by
    revert k; decide
  rw [hm]
  by_cases h : 24 ≤ k
  · simp [h, show ¬k < 7 by omega, show ¬k - 7 < 4 by omega, show ¬k - 7 - 4 < 13 by omega,
      show k - 7 - 4 - 13 < 8 by omega, show 24 + (k - 7 - 4 - 13) = k by omega]
  · by_cases h7 : k < 7
    · simp [h, h7, show ¬7 ≤ k by omega]
    · by_cases h11 : k < 11
      · simp [h, h7, h11, show 7 ≤ k by omega, show k - 7 < 4 by omega,
          show 7 + (k - 7) = k by omega]
      · simp [h, h7, h11, show ¬k - 7 < 4 by omega, show k - 7 - 4 < 13 by omega]

theorem ctrlWord_row (op : BitVec 8) (d : BitVec 22) :
    ctrlWord op d &&& 0xFF000001#32 = op ++ 0#24 := by
  rw [mask_format, opField_ctrlWord, ctrlWord_getLsbD_0]
  revert op; decide

theorem cobrWord_row (op : BitVec 8) (a : Src) (b : Reg) (d : BitVec 11) :
    cobrWord op a b d &&& 0xFF000001#32 = op ++ 0#24 := by
  rw [mask_format, opField_cobrWord, cobrWord_getLsbD_0]
  revert op; decide

theorem regWord_row (index : BitVec 12) (a b : Src) (c : Reg) :
    regWord index a b c &&& 0xFF000780#32 =
      index.extractLsb' 4 8 ++ 0#13 ++ index.extractLsb' 0 4 ++ 0#7 := by
  rw [mask_reg, opField_regWord, regFunField_regWord]

/-- Mask and match of the instruction's row of spec/opcode_table.json. -/
def OpcodeRow.row : Instr → Word × Word
  | .b .. => (0xFF000001, 0x08000000)
  | .call .. => (0xFF000001, 0x09000000)
  | .ret => (0xFF000001, 0x0A000000)
  | .bal .. => (0xFF000001, 0x0B000000)
  | .bno .. => (0xFF000001, 0x10000000)
  | .bg .. => (0xFF000001, 0x11000000)
  | .be .. => (0xFF000001, 0x12000000)
  | .bge .. => (0xFF000001, 0x13000000)
  | .bl .. => (0xFF000001, 0x14000000)
  | .bne .. => (0xFF000001, 0x15000000)
  | .ble .. => (0xFF000001, 0x16000000)
  | .bo .. => (0xFF000001, 0x17000000)
  | .faultno => (0xFF000001, 0x18000000)
  | .faultg => (0xFF000001, 0x19000000)
  | .faulte => (0xFF000001, 0x1A000000)
  | .faultge => (0xFF000001, 0x1B000000)
  | .faultl => (0xFF000001, 0x1C000000)
  | .faultne => (0xFF000001, 0x1D000000)
  | .faultle => (0xFF000001, 0x1E000000)
  | .faulto => (0xFF000001, 0x1F000000)
  | .testno .. => (0xFF000001, 0x20000000)
  | .testg .. => (0xFF000001, 0x21000000)
  | .teste .. => (0xFF000001, 0x22000000)
  | .testge .. => (0xFF000001, 0x23000000)
  | .testl .. => (0xFF000001, 0x24000000)
  | .testne .. => (0xFF000001, 0x25000000)
  | .testle .. => (0xFF000001, 0x26000000)
  | .testo .. => (0xFF000001, 0x27000000)
  | .bbc .. => (0xFF000001, 0x30000000)
  | .cmpobg .. => (0xFF000001, 0x31000000)
  | .cmpobe .. => (0xFF000001, 0x32000000)
  | .cmpobge .. => (0xFF000001, 0x33000000)
  | .cmpobl .. => (0xFF000001, 0x34000000)
  | .cmpobne .. => (0xFF000001, 0x35000000)
  | .cmpoble .. => (0xFF000001, 0x36000000)
  | .bbs .. => (0xFF000001, 0x37000000)
  | .cmpibno .. => (0xFF000001, 0x38000000)
  | .cmpibg .. => (0xFF000001, 0x39000000)
  | .cmpibe .. => (0xFF000001, 0x3A000000)
  | .cmpibge .. => (0xFF000001, 0x3B000000)
  | .cmpibl .. => (0xFF000001, 0x3C000000)
  | .cmpibne .. => (0xFF000001, 0x3D000000)
  | .cmpible .. => (0xFF000001, 0x3E000000)
  | .cmpibo .. => (0xFF000001, 0x3F000000)
  | .notbit .. => (0xFF000780, 0x58000000)
  | .and .. => (0xFF000780, 0x58000080)
  | .andnot .. => (0xFF000780, 0x58000100)
  | .setbit .. => (0xFF000780, 0x58000180)
  | .notand .. => (0xFF000780, 0x58000200)
  | .filler585 .. => (0xFF000780, 0x58000280)
  | .xor .. => (0xFF000780, 0x58000300)
  | .or .. => (0xFF000780, 0x58000380)
  | .nor .. => (0xFF000780, 0x58000400)
  | .xnor .. => (0xFF000780, 0x58000480)
  | .not .. => (0xFF000780, 0x58000500)
  | .ornot .. => (0xFF000780, 0x58000580)
  | .clrbit .. => (0xFF000780, 0x58000600)
  | .notor .. => (0xFF000780, 0x58000680)
  | .nand .. => (0xFF000780, 0x58000700)
  | .alterbit .. => (0xFF000780, 0x58000780)
  | .addo .. => (0xFF000780, 0x59000000)
  | .addi .. => (0xFF000780, 0x59000080)
  | .subo .. => (0xFF000780, 0x59000100)
  | .subi .. => (0xFF000780, 0x59000180)
  | .cmpob .. => (0xFF000780, 0x59000200)
  | .cmpib .. => (0xFF000780, 0x59000280)
  | .cmpos .. => (0xFF000780, 0x59000300)
  | .cmpis .. => (0xFF000780, 0x59000380)
  | .shro .. => (0xFF000780, 0x59000400)
  | .shrdi .. => (0xFF000780, 0x59000500)
  | .shri .. => (0xFF000780, 0x59000580)
  | .shlo .. => (0xFF000780, 0x59000600)
  | .rotate .. => (0xFF000780, 0x59000680)
  | .shli .. => (0xFF000780, 0x59000700)
  | .cmpo .. => (0xFF000780, 0x5A000000)
  | .cmpi .. => (0xFF000780, 0x5A000080)
  | .concmpo .. => (0xFF000780, 0x5A000100)
  | .concmpi .. => (0xFF000780, 0x5A000180)
  | .cmpinco .. => (0xFF000780, 0x5A000200)
  | .cmpinci .. => (0xFF000780, 0x5A000280)
  | .cmpdeco .. => (0xFF000780, 0x5A000300)
  | .cmpdeci .. => (0xFF000780, 0x5A000380)
  | .scanbyte .. => (0xFF000780, 0x5A000600)
  | .bswap .. => (0xFF000780, 0x5A000680)
  | .chkbit .. => (0xFF000780, 0x5A000700)
  | .addc .. => (0xFF000780, 0x5B000000)
  | .subc .. => (0xFF000780, 0x5B000100)
  | .intdis => (0xFF000780, 0x5B000200)
  | .inten => (0xFF000780, 0x5B000280)
  | .mov .. => (0xFF000780, 0x5C000600)
  | .eshro .. => (0xFF000780, 0x5D000400)
  | .movl .. => (0xFF000780, 0x5D000600)
  | .movt .. => (0xFF000780, 0x5E000600)
  | .movq .. => (0xFF000780, 0x5F000600)
  | .atmod .. => (0xFF000780, 0x61000000)
  | .atadd .. => (0xFF000780, 0x61000100)
  | .spanbit .. => (0xFF000780, 0x64000000)
  | .scanbit .. => (0xFF000780, 0x64000080)
  | .modac .. => (0xFF000780, 0x64000280)
  | .modify .. => (0xFF000780, 0x65000000)
  | .extract .. => (0xFF000780, 0x65000080)
  | .modtc .. => (0xFF000780, 0x65000200)
  | .modpc .. => (0xFF000780, 0x65000280)
  | .calls .. => (0xFF000780, 0x66000000)
  | .mark => (0xFF000780, 0x66000580)
  | .fmark => (0xFF000780, 0x66000600)
  | .flushreg => (0xFF000780, 0x66000680)
  | .syncf => (0xFF000780, 0x66000780)
  | .emul .. => (0xFF000780, 0x67000000)
  | .ediv .. => (0xFF000780, 0x67000080)
  | .mulo .. => (0xFF000780, 0x70000080)
  | .remo .. => (0xFF000780, 0x70000400)
  | .divo .. => (0xFF000780, 0x70000580)
  | .muli .. => (0xFF000780, 0x74000080)
  | .remi .. => (0xFF000780, 0x74000400)
  | .modi .. => (0xFF000780, 0x74000480)
  | .divi .. => (0xFF000780, 0x74000580)
  | .addono .. => (0xFF000780, 0x78000000)
  | .addino .. => (0xFF000780, 0x78000080)
  | .subono .. => (0xFF000780, 0x78000100)
  | .subino .. => (0xFF000780, 0x78000180)
  | .selno .. => (0xFF000780, 0x78000200)
  | .addog .. => (0xFF000780, 0x79000000)
  | .addig .. => (0xFF000780, 0x79000080)
  | .subog .. => (0xFF000780, 0x79000100)
  | .subig .. => (0xFF000780, 0x79000180)
  | .selg .. => (0xFF000780, 0x79000200)
  | .addoe .. => (0xFF000780, 0x7A000000)
  | .addie .. => (0xFF000780, 0x7A000080)
  | .suboe .. => (0xFF000780, 0x7A000100)
  | .subie .. => (0xFF000780, 0x7A000180)
  | .sele .. => (0xFF000780, 0x7A000200)
  | .addoge .. => (0xFF000780, 0x7B000000)
  | .addige .. => (0xFF000780, 0x7B000080)
  | .suboge .. => (0xFF000780, 0x7B000100)
  | .subige .. => (0xFF000780, 0x7B000180)
  | .selge .. => (0xFF000780, 0x7B000200)
  | .addol .. => (0xFF000780, 0x7C000000)
  | .addil .. => (0xFF000780, 0x7C000080)
  | .subol .. => (0xFF000780, 0x7C000100)
  | .subil .. => (0xFF000780, 0x7C000180)
  | .sell .. => (0xFF000780, 0x7C000200)
  | .addone .. => (0xFF000780, 0x7D000000)
  | .addine .. => (0xFF000780, 0x7D000080)
  | .subone .. => (0xFF000780, 0x7D000100)
  | .subine .. => (0xFF000780, 0x7D000180)
  | .selne .. => (0xFF000780, 0x7D000200)
  | .addole .. => (0xFF000780, 0x7E000000)
  | .addile .. => (0xFF000780, 0x7E000080)
  | .subole .. => (0xFF000780, 0x7E000100)
  | .subile .. => (0xFF000780, 0x7E000180)
  | .selle .. => (0xFF000780, 0x7E000200)
  | .addoo .. => (0xFF000780, 0x7F000000)
  | .addio .. => (0xFF000780, 0x7F000080)
  | .suboo .. => (0xFF000780, 0x7F000100)
  | .subio .. => (0xFF000780, 0x7F000180)
  | .selo .. => (0xFF000780, 0x7F000200)
  | .ldob .. => (0xFF000000, 0x80000000)
  | .stob .. => (0xFF000000, 0x82000000)
  | .bx .. => (0xFF000000, 0x84000000)
  | .balx .. => (0xFF000000, 0x85000000)
  | .callx .. => (0xFF000000, 0x86000000)
  | .ldos .. => (0xFF000000, 0x88000000)
  | .stos .. => (0xFF000000, 0x8A000000)
  | .lda .. => (0xFF000000, 0x8C000000)
  | .ld .. => (0xFF000000, 0x90000000)
  | .st .. => (0xFF000000, 0x92000000)
  | .ldl .. => (0xFF000000, 0x98000000)
  | .stl .. => (0xFF000000, 0x9A000000)
  | .ldt .. => (0xFF000000, 0xA0000000)
  | .stt .. => (0xFF000000, 0xA2000000)
  | .ldq .. => (0xFF000000, 0xB0000000)
  | .stq .. => (0xFF000000, 0xB2000000)
  | .ldib .. => (0xFF000000, 0xC0000000)
  | .stib .. => (0xFF000000, 0xC2000000)
  | .ldis .. => (0xFF000000, 0xC8000000)
  | .stis .. => (0xFF000000, 0xCA000000)

/-- The first word of the encoding matches the instruction's row. -/
def OpcodeRow.Statement (i : Instr) : Prop :=
  ∀ w ∈ (encode i).head?, w &&& (OpcodeRow.row i).1 = (OpcodeRow.row i).2

theorem mem_row (op : BitVec 8) (c : Reg) (m : MemOperand) (h : 0x80 ≤ op.toNat) :
    ∀ w ∈ (memWords op c m).head?, w &&& 0xFF000000#32 = op ++ 0#24 := by
  obtain ⟨w, hw, ho, -⟩ := memWords_shape op c m h
  intro v hv
  rw [hw] at hv
  simp only [List.head?_cons, Option.mem_def, Option.some.injEq] at hv
  subst hv
  rw [mask_op, ho]

theorem one_row {w m v : Word} (h : w &&& m = v) : ∀ u ∈ [w].head?, u &&& m = v := by
  simp [h]

theorem OpcodeRow.b (disp : BitVec 22) : OpcodeRow.Statement (.b disp) :=
  one_row (ctrlWord_row _ _)

theorem OpcodeRow.call (disp : BitVec 22) : OpcodeRow.Statement (.call disp) :=
  one_row (ctrlWord_row _ _)

theorem OpcodeRow.ret : OpcodeRow.Statement .ret :=
  one_row (ctrlWord_row _ _)

theorem OpcodeRow.bal (disp : BitVec 22) : OpcodeRow.Statement (.bal disp) :=
  one_row (ctrlWord_row _ _)

theorem OpcodeRow.bno (disp : BitVec 22) : OpcodeRow.Statement (.bno disp) :=
  one_row (ctrlWord_row _ _)

theorem OpcodeRow.bg (disp : BitVec 22) : OpcodeRow.Statement (.bg disp) :=
  one_row (ctrlWord_row _ _)

theorem OpcodeRow.be (disp : BitVec 22) : OpcodeRow.Statement (.be disp) :=
  one_row (ctrlWord_row _ _)

theorem OpcodeRow.bge (disp : BitVec 22) : OpcodeRow.Statement (.bge disp) :=
  one_row (ctrlWord_row _ _)

theorem OpcodeRow.bl (disp : BitVec 22) : OpcodeRow.Statement (.bl disp) :=
  one_row (ctrlWord_row _ _)

theorem OpcodeRow.bne (disp : BitVec 22) : OpcodeRow.Statement (.bne disp) :=
  one_row (ctrlWord_row _ _)

theorem OpcodeRow.ble (disp : BitVec 22) : OpcodeRow.Statement (.ble disp) :=
  one_row (ctrlWord_row _ _)

theorem OpcodeRow.bo (disp : BitVec 22) : OpcodeRow.Statement (.bo disp) :=
  one_row (ctrlWord_row _ _)

theorem OpcodeRow.faultno : OpcodeRow.Statement .faultno :=
  one_row (ctrlWord_row _ _)

theorem OpcodeRow.faultg : OpcodeRow.Statement .faultg :=
  one_row (ctrlWord_row _ _)

theorem OpcodeRow.faulte : OpcodeRow.Statement .faulte :=
  one_row (ctrlWord_row _ _)

theorem OpcodeRow.faultge : OpcodeRow.Statement .faultge :=
  one_row (ctrlWord_row _ _)

theorem OpcodeRow.faultl : OpcodeRow.Statement .faultl :=
  one_row (ctrlWord_row _ _)

theorem OpcodeRow.faultne : OpcodeRow.Statement .faultne :=
  one_row (ctrlWord_row _ _)

theorem OpcodeRow.faultle : OpcodeRow.Statement .faultle :=
  one_row (ctrlWord_row _ _)

theorem OpcodeRow.faulto : OpcodeRow.Statement .faulto :=
  one_row (ctrlWord_row _ _)

theorem OpcodeRow.testno (dst : Reg) : OpcodeRow.Statement (.testno dst) :=
  one_row (cobrWord_row _ _ _ _)

theorem OpcodeRow.testg (dst : Reg) : OpcodeRow.Statement (.testg dst) :=
  one_row (cobrWord_row _ _ _ _)

theorem OpcodeRow.teste (dst : Reg) : OpcodeRow.Statement (.teste dst) :=
  one_row (cobrWord_row _ _ _ _)

theorem OpcodeRow.testge (dst : Reg) : OpcodeRow.Statement (.testge dst) :=
  one_row (cobrWord_row _ _ _ _)

theorem OpcodeRow.testl (dst : Reg) : OpcodeRow.Statement (.testl dst) :=
  one_row (cobrWord_row _ _ _ _)

theorem OpcodeRow.testne (dst : Reg) : OpcodeRow.Statement (.testne dst) :=
  one_row (cobrWord_row _ _ _ _)

theorem OpcodeRow.testle (dst : Reg) : OpcodeRow.Statement (.testle dst) :=
  one_row (cobrWord_row _ _ _ _)

theorem OpcodeRow.testo (dst : Reg) : OpcodeRow.Statement (.testo dst) :=
  one_row (cobrWord_row _ _ _ _)

theorem OpcodeRow.bbc (a : Src) (b : Reg) (disp : BitVec 11) : OpcodeRow.Statement (.bbc a b disp) :=
  one_row (cobrWord_row _ _ _ _)

theorem OpcodeRow.cmpobg (a : Src) (b : Reg) (disp : BitVec 11) : OpcodeRow.Statement (.cmpobg a b disp) :=
  one_row (cobrWord_row _ _ _ _)

theorem OpcodeRow.cmpobe (a : Src) (b : Reg) (disp : BitVec 11) : OpcodeRow.Statement (.cmpobe a b disp) :=
  one_row (cobrWord_row _ _ _ _)

theorem OpcodeRow.cmpobge (a : Src) (b : Reg) (disp : BitVec 11) : OpcodeRow.Statement (.cmpobge a b disp) :=
  one_row (cobrWord_row _ _ _ _)

theorem OpcodeRow.cmpobl (a : Src) (b : Reg) (disp : BitVec 11) : OpcodeRow.Statement (.cmpobl a b disp) :=
  one_row (cobrWord_row _ _ _ _)

theorem OpcodeRow.cmpobne (a : Src) (b : Reg) (disp : BitVec 11) : OpcodeRow.Statement (.cmpobne a b disp) :=
  one_row (cobrWord_row _ _ _ _)

theorem OpcodeRow.cmpoble (a : Src) (b : Reg) (disp : BitVec 11) : OpcodeRow.Statement (.cmpoble a b disp) :=
  one_row (cobrWord_row _ _ _ _)

theorem OpcodeRow.bbs (a : Src) (b : Reg) (disp : BitVec 11) : OpcodeRow.Statement (.bbs a b disp) :=
  one_row (cobrWord_row _ _ _ _)

theorem OpcodeRow.cmpibno (a : Src) (b : Reg) (disp : BitVec 11) : OpcodeRow.Statement (.cmpibno a b disp) :=
  one_row (cobrWord_row _ _ _ _)

theorem OpcodeRow.cmpibg (a : Src) (b : Reg) (disp : BitVec 11) : OpcodeRow.Statement (.cmpibg a b disp) :=
  one_row (cobrWord_row _ _ _ _)

theorem OpcodeRow.cmpibe (a : Src) (b : Reg) (disp : BitVec 11) : OpcodeRow.Statement (.cmpibe a b disp) :=
  one_row (cobrWord_row _ _ _ _)

theorem OpcodeRow.cmpibge (a : Src) (b : Reg) (disp : BitVec 11) : OpcodeRow.Statement (.cmpibge a b disp) :=
  one_row (cobrWord_row _ _ _ _)

theorem OpcodeRow.cmpibl (a : Src) (b : Reg) (disp : BitVec 11) : OpcodeRow.Statement (.cmpibl a b disp) :=
  one_row (cobrWord_row _ _ _ _)

theorem OpcodeRow.cmpibne (a : Src) (b : Reg) (disp : BitVec 11) : OpcodeRow.Statement (.cmpibne a b disp) :=
  one_row (cobrWord_row _ _ _ _)

theorem OpcodeRow.cmpible (a : Src) (b : Reg) (disp : BitVec 11) : OpcodeRow.Statement (.cmpible a b disp) :=
  one_row (cobrWord_row _ _ _ _)

theorem OpcodeRow.cmpibo (a : Src) (b : Reg) (disp : BitVec 11) : OpcodeRow.Statement (.cmpibo a b disp) :=
  one_row (cobrWord_row _ _ _ _)

theorem OpcodeRow.notbit (a : Src) (b : Src) (c : Reg) : OpcodeRow.Statement (.notbit a b c) :=
  one_row (regWord_row _ _ _ _)

theorem OpcodeRow.and (a : Src) (b : Src) (c : Reg) : OpcodeRow.Statement (.and a b c) :=
  one_row (regWord_row _ _ _ _)

theorem OpcodeRow.andnot (a : Src) (b : Src) (c : Reg) : OpcodeRow.Statement (.andnot a b c) :=
  one_row (regWord_row _ _ _ _)

theorem OpcodeRow.setbit (a : Src) (b : Src) (c : Reg) : OpcodeRow.Statement (.setbit a b c) :=
  one_row (regWord_row _ _ _ _)

theorem OpcodeRow.notand (a : Src) (b : Src) (c : Reg) : OpcodeRow.Statement (.notand a b c) :=
  one_row (regWord_row _ _ _ _)

theorem OpcodeRow.filler585 (a : Src) (b : Src) (c : Reg) : OpcodeRow.Statement (.filler585 a b c) :=
  one_row (regWord_row _ _ _ _)

theorem OpcodeRow.xor (a : Src) (b : Src) (c : Reg) : OpcodeRow.Statement (.xor a b c) :=
  one_row (regWord_row _ _ _ _)

theorem OpcodeRow.or (a : Src) (b : Src) (c : Reg) : OpcodeRow.Statement (.or a b c) :=
  one_row (regWord_row _ _ _ _)

theorem OpcodeRow.nor (a : Src) (b : Src) (c : Reg) : OpcodeRow.Statement (.nor a b c) :=
  one_row (regWord_row _ _ _ _)

theorem OpcodeRow.xnor (a : Src) (b : Src) (c : Reg) : OpcodeRow.Statement (.xnor a b c) :=
  one_row (regWord_row _ _ _ _)

theorem OpcodeRow.not (a : Src) (c : Reg) : OpcodeRow.Statement (.not a c) :=
  one_row (regWord_row _ _ _ _)

theorem OpcodeRow.ornot (a : Src) (b : Src) (c : Reg) : OpcodeRow.Statement (.ornot a b c) :=
  one_row (regWord_row _ _ _ _)

theorem OpcodeRow.clrbit (a : Src) (b : Src) (c : Reg) : OpcodeRow.Statement (.clrbit a b c) :=
  one_row (regWord_row _ _ _ _)

theorem OpcodeRow.notor (a : Src) (b : Src) (c : Reg) : OpcodeRow.Statement (.notor a b c) :=
  one_row (regWord_row _ _ _ _)

theorem OpcodeRow.nand (a : Src) (b : Src) (c : Reg) : OpcodeRow.Statement (.nand a b c) :=
  one_row (regWord_row _ _ _ _)

theorem OpcodeRow.alterbit (a : Src) (b : Src) (c : Reg) : OpcodeRow.Statement (.alterbit a b c) :=
  one_row (regWord_row _ _ _ _)

theorem OpcodeRow.addo (a : Src) (b : Src) (c : Reg) : OpcodeRow.Statement (.addo a b c) :=
  one_row (regWord_row _ _ _ _)

theorem OpcodeRow.addi (a : Src) (b : Src) (c : Reg) : OpcodeRow.Statement (.addi a b c) :=
  one_row (regWord_row _ _ _ _)

theorem OpcodeRow.subo (a : Src) (b : Src) (c : Reg) : OpcodeRow.Statement (.subo a b c) :=
  one_row (regWord_row _ _ _ _)

theorem OpcodeRow.subi (a : Src) (b : Src) (c : Reg) : OpcodeRow.Statement (.subi a b c) :=
  one_row (regWord_row _ _ _ _)

theorem OpcodeRow.cmpob (a : Src) (b : Src) : OpcodeRow.Statement (.cmpob a b) :=
  one_row (regWord_row _ _ _ _)

theorem OpcodeRow.cmpib (a : Src) (b : Src) : OpcodeRow.Statement (.cmpib a b) :=
  one_row (regWord_row _ _ _ _)

theorem OpcodeRow.cmpos (a : Src) (b : Src) : OpcodeRow.Statement (.cmpos a b) :=
  one_row (regWord_row _ _ _ _)

theorem OpcodeRow.cmpis (a : Src) (b : Src) : OpcodeRow.Statement (.cmpis a b) :=
  one_row (regWord_row _ _ _ _)

theorem OpcodeRow.shro (a : Src) (b : Src) (c : Reg) : OpcodeRow.Statement (.shro a b c) :=
  one_row (regWord_row _ _ _ _)

theorem OpcodeRow.shrdi (a : Src) (b : Src) (c : Reg) : OpcodeRow.Statement (.shrdi a b c) :=
  one_row (regWord_row _ _ _ _)

theorem OpcodeRow.shri (a : Src) (b : Src) (c : Reg) : OpcodeRow.Statement (.shri a b c) :=
  one_row (regWord_row _ _ _ _)

theorem OpcodeRow.shlo (a : Src) (b : Src) (c : Reg) : OpcodeRow.Statement (.shlo a b c) :=
  one_row (regWord_row _ _ _ _)

theorem OpcodeRow.rotate (a : Src) (b : Src) (c : Reg) : OpcodeRow.Statement (.rotate a b c) :=
  one_row (regWord_row _ _ _ _)

theorem OpcodeRow.shli (a : Src) (b : Src) (c : Reg) : OpcodeRow.Statement (.shli a b c) :=
  one_row (regWord_row _ _ _ _)

theorem OpcodeRow.cmpo (a : Src) (b : Src) : OpcodeRow.Statement (.cmpo a b) :=
  one_row (regWord_row _ _ _ _)

theorem OpcodeRow.cmpi (a : Src) (b : Src) : OpcodeRow.Statement (.cmpi a b) :=
  one_row (regWord_row _ _ _ _)

theorem OpcodeRow.concmpo (a : Src) (b : Src) : OpcodeRow.Statement (.concmpo a b) :=
  one_row (regWord_row _ _ _ _)

theorem OpcodeRow.concmpi (a : Src) (b : Src) : OpcodeRow.Statement (.concmpi a b) :=
  one_row (regWord_row _ _ _ _)

theorem OpcodeRow.cmpinco (a : Src) (b : Src) (c : Reg) : OpcodeRow.Statement (.cmpinco a b c) :=
  one_row (regWord_row _ _ _ _)

theorem OpcodeRow.cmpinci (a : Src) (b : Src) (c : Reg) : OpcodeRow.Statement (.cmpinci a b c) :=
  one_row (regWord_row _ _ _ _)

theorem OpcodeRow.cmpdeco (a : Src) (b : Src) (c : Reg) : OpcodeRow.Statement (.cmpdeco a b c) :=
  one_row (regWord_row _ _ _ _)

theorem OpcodeRow.cmpdeci (a : Src) (b : Src) (c : Reg) : OpcodeRow.Statement (.cmpdeci a b c) :=
  one_row (regWord_row _ _ _ _)

theorem OpcodeRow.scanbyte (a : Src) (b : Src) : OpcodeRow.Statement (.scanbyte a b) :=
  one_row (regWord_row _ _ _ _)

theorem OpcodeRow.bswap (a : Src) (c : Reg) : OpcodeRow.Statement (.bswap a c) :=
  one_row (regWord_row _ _ _ _)

theorem OpcodeRow.chkbit (a : Src) (b : Src) : OpcodeRow.Statement (.chkbit a b) :=
  one_row (regWord_row _ _ _ _)

theorem OpcodeRow.addc (a : Src) (b : Src) (c : Reg) : OpcodeRow.Statement (.addc a b c) :=
  one_row (regWord_row _ _ _ _)

theorem OpcodeRow.subc (a : Src) (b : Src) (c : Reg) : OpcodeRow.Statement (.subc a b c) :=
  one_row (regWord_row _ _ _ _)

theorem OpcodeRow.intdis : OpcodeRow.Statement .intdis :=
  one_row (regWord_row _ _ _ _)

theorem OpcodeRow.inten : OpcodeRow.Statement .inten :=
  one_row (regWord_row _ _ _ _)

theorem OpcodeRow.mov (a : Src) (c : Reg) : OpcodeRow.Statement (.mov a c) :=
  one_row (regWord_row _ _ _ _)

theorem OpcodeRow.eshro (a : Src) (b : Src) (c : Reg) : OpcodeRow.Statement (.eshro a b c) :=
  one_row (regWord_row _ _ _ _)

theorem OpcodeRow.movl (a : Src) (c : Reg) : OpcodeRow.Statement (.movl a c) :=
  one_row (regWord_row _ _ _ _)

theorem OpcodeRow.movt (a : Src) (c : Reg) : OpcodeRow.Statement (.movt a c) :=
  one_row (regWord_row _ _ _ _)

theorem OpcodeRow.movq (a : Src) (c : Reg) : OpcodeRow.Statement (.movq a c) :=
  one_row (regWord_row _ _ _ _)

theorem OpcodeRow.atmod (a : Src) (b : Src) (c : Reg) : OpcodeRow.Statement (.atmod a b c) :=
  one_row (regWord_row _ _ _ _)

theorem OpcodeRow.atadd (a : Src) (b : Src) (c : Reg) : OpcodeRow.Statement (.atadd a b c) :=
  one_row (regWord_row _ _ _ _)

theorem OpcodeRow.spanbit (a : Src) (c : Reg) : OpcodeRow.Statement (.spanbit a c) :=
  one_row (regWord_row _ _ _ _)

theorem OpcodeRow.scanbit (a : Src) (c : Reg) : OpcodeRow.Statement (.scanbit a c) :=
  one_row (regWord_row _ _ _ _)

theorem OpcodeRow.modac (a : Src) (b : Src) (c : Reg) : OpcodeRow.Statement (.modac a b c) :=
  one_row (regWord_row _ _ _ _)

theorem OpcodeRow.modify (a : Src) (b : Src) (c : Reg) : OpcodeRow.Statement (.modify a b c) :=
  one_row (regWord_row _ _ _ _)

theorem OpcodeRow.extract (a : Src) (b : Src) (c : Reg) : OpcodeRow.Statement (.extract a b c) :=
  one_row (regWord_row _ _ _ _)

theorem OpcodeRow.modtc (a : Src) (b : Src) (c : Reg) : OpcodeRow.Statement (.modtc a b c) :=
  one_row (regWord_row _ _ _ _)

theorem OpcodeRow.modpc (a : Src) (b : Src) (c : Reg) : OpcodeRow.Statement (.modpc a b c) :=
  one_row (regWord_row _ _ _ _)

theorem OpcodeRow.calls (a : Src) : OpcodeRow.Statement (.calls a) :=
  one_row (regWord_row _ _ _ _)

theorem OpcodeRow.mark : OpcodeRow.Statement .mark :=
  one_row (regWord_row _ _ _ _)

theorem OpcodeRow.fmark : OpcodeRow.Statement .fmark :=
  one_row (regWord_row _ _ _ _)

theorem OpcodeRow.flushreg : OpcodeRow.Statement .flushreg :=
  one_row (regWord_row _ _ _ _)

theorem OpcodeRow.syncf : OpcodeRow.Statement .syncf :=
  one_row (regWord_row _ _ _ _)

theorem OpcodeRow.emul (a : Src) (b : Src) (c : Reg) : OpcodeRow.Statement (.emul a b c) :=
  one_row (regWord_row _ _ _ _)

theorem OpcodeRow.ediv (a : Src) (b : Src) (c : Reg) : OpcodeRow.Statement (.ediv a b c) :=
  one_row (regWord_row _ _ _ _)

theorem OpcodeRow.mulo (a : Src) (b : Src) (c : Reg) : OpcodeRow.Statement (.mulo a b c) :=
  one_row (regWord_row _ _ _ _)

theorem OpcodeRow.remo (a : Src) (b : Src) (c : Reg) : OpcodeRow.Statement (.remo a b c) :=
  one_row (regWord_row _ _ _ _)

theorem OpcodeRow.divo (a : Src) (b : Src) (c : Reg) : OpcodeRow.Statement (.divo a b c) :=
  one_row (regWord_row _ _ _ _)

theorem OpcodeRow.muli (a : Src) (b : Src) (c : Reg) : OpcodeRow.Statement (.muli a b c) :=
  one_row (regWord_row _ _ _ _)

theorem OpcodeRow.remi (a : Src) (b : Src) (c : Reg) : OpcodeRow.Statement (.remi a b c) :=
  one_row (regWord_row _ _ _ _)

theorem OpcodeRow.modi (a : Src) (b : Src) (c : Reg) : OpcodeRow.Statement (.modi a b c) :=
  one_row (regWord_row _ _ _ _)

theorem OpcodeRow.divi (a : Src) (b : Src) (c : Reg) : OpcodeRow.Statement (.divi a b c) :=
  one_row (regWord_row _ _ _ _)

theorem OpcodeRow.addono (a : Src) (b : Src) (c : Reg) : OpcodeRow.Statement (.addono a b c) :=
  one_row (regWord_row _ _ _ _)

theorem OpcodeRow.addino (a : Src) (b : Src) (c : Reg) : OpcodeRow.Statement (.addino a b c) :=
  one_row (regWord_row _ _ _ _)

theorem OpcodeRow.subono (a : Src) (b : Src) (c : Reg) : OpcodeRow.Statement (.subono a b c) :=
  one_row (regWord_row _ _ _ _)

theorem OpcodeRow.subino (a : Src) (b : Src) (c : Reg) : OpcodeRow.Statement (.subino a b c) :=
  one_row (regWord_row _ _ _ _)

theorem OpcodeRow.selno (a : Src) (b : Src) (c : Reg) : OpcodeRow.Statement (.selno a b c) :=
  one_row (regWord_row _ _ _ _)

theorem OpcodeRow.addog (a : Src) (b : Src) (c : Reg) : OpcodeRow.Statement (.addog a b c) :=
  one_row (regWord_row _ _ _ _)

theorem OpcodeRow.addig (a : Src) (b : Src) (c : Reg) : OpcodeRow.Statement (.addig a b c) :=
  one_row (regWord_row _ _ _ _)

theorem OpcodeRow.subog (a : Src) (b : Src) (c : Reg) : OpcodeRow.Statement (.subog a b c) :=
  one_row (regWord_row _ _ _ _)

theorem OpcodeRow.subig (a : Src) (b : Src) (c : Reg) : OpcodeRow.Statement (.subig a b c) :=
  one_row (regWord_row _ _ _ _)

theorem OpcodeRow.selg (a : Src) (b : Src) (c : Reg) : OpcodeRow.Statement (.selg a b c) :=
  one_row (regWord_row _ _ _ _)

theorem OpcodeRow.addoe (a : Src) (b : Src) (c : Reg) : OpcodeRow.Statement (.addoe a b c) :=
  one_row (regWord_row _ _ _ _)

theorem OpcodeRow.addie (a : Src) (b : Src) (c : Reg) : OpcodeRow.Statement (.addie a b c) :=
  one_row (regWord_row _ _ _ _)

theorem OpcodeRow.suboe (a : Src) (b : Src) (c : Reg) : OpcodeRow.Statement (.suboe a b c) :=
  one_row (regWord_row _ _ _ _)

theorem OpcodeRow.subie (a : Src) (b : Src) (c : Reg) : OpcodeRow.Statement (.subie a b c) :=
  one_row (regWord_row _ _ _ _)

theorem OpcodeRow.sele (a : Src) (b : Src) (c : Reg) : OpcodeRow.Statement (.sele a b c) :=
  one_row (regWord_row _ _ _ _)

theorem OpcodeRow.addoge (a : Src) (b : Src) (c : Reg) : OpcodeRow.Statement (.addoge a b c) :=
  one_row (regWord_row _ _ _ _)

theorem OpcodeRow.addige (a : Src) (b : Src) (c : Reg) : OpcodeRow.Statement (.addige a b c) :=
  one_row (regWord_row _ _ _ _)

theorem OpcodeRow.suboge (a : Src) (b : Src) (c : Reg) : OpcodeRow.Statement (.suboge a b c) :=
  one_row (regWord_row _ _ _ _)

theorem OpcodeRow.subige (a : Src) (b : Src) (c : Reg) : OpcodeRow.Statement (.subige a b c) :=
  one_row (regWord_row _ _ _ _)

theorem OpcodeRow.selge (a : Src) (b : Src) (c : Reg) : OpcodeRow.Statement (.selge a b c) :=
  one_row (regWord_row _ _ _ _)

theorem OpcodeRow.addol (a : Src) (b : Src) (c : Reg) : OpcodeRow.Statement (.addol a b c) :=
  one_row (regWord_row _ _ _ _)

theorem OpcodeRow.addil (a : Src) (b : Src) (c : Reg) : OpcodeRow.Statement (.addil a b c) :=
  one_row (regWord_row _ _ _ _)

theorem OpcodeRow.subol (a : Src) (b : Src) (c : Reg) : OpcodeRow.Statement (.subol a b c) :=
  one_row (regWord_row _ _ _ _)

theorem OpcodeRow.subil (a : Src) (b : Src) (c : Reg) : OpcodeRow.Statement (.subil a b c) :=
  one_row (regWord_row _ _ _ _)

theorem OpcodeRow.sell (a : Src) (b : Src) (c : Reg) : OpcodeRow.Statement (.sell a b c) :=
  one_row (regWord_row _ _ _ _)

theorem OpcodeRow.addone (a : Src) (b : Src) (c : Reg) : OpcodeRow.Statement (.addone a b c) :=
  one_row (regWord_row _ _ _ _)

theorem OpcodeRow.addine (a : Src) (b : Src) (c : Reg) : OpcodeRow.Statement (.addine a b c) :=
  one_row (regWord_row _ _ _ _)

theorem OpcodeRow.subone (a : Src) (b : Src) (c : Reg) : OpcodeRow.Statement (.subone a b c) :=
  one_row (regWord_row _ _ _ _)

theorem OpcodeRow.subine (a : Src) (b : Src) (c : Reg) : OpcodeRow.Statement (.subine a b c) :=
  one_row (regWord_row _ _ _ _)

theorem OpcodeRow.selne (a : Src) (b : Src) (c : Reg) : OpcodeRow.Statement (.selne a b c) :=
  one_row (regWord_row _ _ _ _)

theorem OpcodeRow.addole (a : Src) (b : Src) (c : Reg) : OpcodeRow.Statement (.addole a b c) :=
  one_row (regWord_row _ _ _ _)

theorem OpcodeRow.addile (a : Src) (b : Src) (c : Reg) : OpcodeRow.Statement (.addile a b c) :=
  one_row (regWord_row _ _ _ _)

theorem OpcodeRow.subole (a : Src) (b : Src) (c : Reg) : OpcodeRow.Statement (.subole a b c) :=
  one_row (regWord_row _ _ _ _)

theorem OpcodeRow.subile (a : Src) (b : Src) (c : Reg) : OpcodeRow.Statement (.subile a b c) :=
  one_row (regWord_row _ _ _ _)

theorem OpcodeRow.selle (a : Src) (b : Src) (c : Reg) : OpcodeRow.Statement (.selle a b c) :=
  one_row (regWord_row _ _ _ _)

theorem OpcodeRow.addoo (a : Src) (b : Src) (c : Reg) : OpcodeRow.Statement (.addoo a b c) :=
  one_row (regWord_row _ _ _ _)

theorem OpcodeRow.addio (a : Src) (b : Src) (c : Reg) : OpcodeRow.Statement (.addio a b c) :=
  one_row (regWord_row _ _ _ _)

theorem OpcodeRow.suboo (a : Src) (b : Src) (c : Reg) : OpcodeRow.Statement (.suboo a b c) :=
  one_row (regWord_row _ _ _ _)

theorem OpcodeRow.subio (a : Src) (b : Src) (c : Reg) : OpcodeRow.Statement (.subio a b c) :=
  one_row (regWord_row _ _ _ _)

theorem OpcodeRow.selo (a : Src) (b : Src) (c : Reg) : OpcodeRow.Statement (.selo a b c) :=
  one_row (regWord_row _ _ _ _)

theorem OpcodeRow.ldob (mem : MemOperand) (c : Reg) : OpcodeRow.Statement (.ldob mem c) :=
  mem_row _ _ _ (by decide)

theorem OpcodeRow.stob (c : Reg) (mem : MemOperand) : OpcodeRow.Statement (.stob c mem) :=
  mem_row _ _ _ (by decide)

theorem OpcodeRow.bx (mem : MemOperand) : OpcodeRow.Statement (.bx mem) :=
  mem_row _ _ _ (by decide)

theorem OpcodeRow.balx (mem : MemOperand) (c : Reg) : OpcodeRow.Statement (.balx mem c) :=
  mem_row _ _ _ (by decide)

theorem OpcodeRow.callx (mem : MemOperand) : OpcodeRow.Statement (.callx mem) :=
  mem_row _ _ _ (by decide)

theorem OpcodeRow.ldos (mem : MemOperand) (c : Reg) : OpcodeRow.Statement (.ldos mem c) :=
  mem_row _ _ _ (by decide)

theorem OpcodeRow.stos (c : Reg) (mem : MemOperand) : OpcodeRow.Statement (.stos c mem) :=
  mem_row _ _ _ (by decide)

theorem OpcodeRow.lda (mem : MemOperand) (c : Reg) : OpcodeRow.Statement (.lda mem c) :=
  mem_row _ _ _ (by decide)

theorem OpcodeRow.ld (mem : MemOperand) (c : Reg) : OpcodeRow.Statement (.ld mem c) :=
  mem_row _ _ _ (by decide)

theorem OpcodeRow.st (c : Reg) (mem : MemOperand) : OpcodeRow.Statement (.st c mem) :=
  mem_row _ _ _ (by decide)

theorem OpcodeRow.ldl (mem : MemOperand) (c : Reg) : OpcodeRow.Statement (.ldl mem c) :=
  mem_row _ _ _ (by decide)

theorem OpcodeRow.stl (c : Reg) (mem : MemOperand) : OpcodeRow.Statement (.stl c mem) :=
  mem_row _ _ _ (by decide)

theorem OpcodeRow.ldt (mem : MemOperand) (c : Reg) : OpcodeRow.Statement (.ldt mem c) :=
  mem_row _ _ _ (by decide)

theorem OpcodeRow.stt (c : Reg) (mem : MemOperand) : OpcodeRow.Statement (.stt c mem) :=
  mem_row _ _ _ (by decide)

theorem OpcodeRow.ldq (mem : MemOperand) (c : Reg) : OpcodeRow.Statement (.ldq mem c) :=
  mem_row _ _ _ (by decide)

theorem OpcodeRow.stq (c : Reg) (mem : MemOperand) : OpcodeRow.Statement (.stq c mem) :=
  mem_row _ _ _ (by decide)

theorem OpcodeRow.ldib (mem : MemOperand) (c : Reg) : OpcodeRow.Statement (.ldib mem c) :=
  mem_row _ _ _ (by decide)

theorem OpcodeRow.stib (c : Reg) (mem : MemOperand) : OpcodeRow.Statement (.stib c mem) :=
  mem_row _ _ _ (by decide)

theorem OpcodeRow.ldis (mem : MemOperand) (c : Reg) : OpcodeRow.Statement (.ldis mem c) :=
  mem_row _ _ _ (by decide)

theorem OpcodeRow.stis (c : Reg) (mem : MemOperand) : OpcodeRow.Statement (.stis c mem) :=
  mem_row _ _ _ (by decide)

/-! ### Lengths -/

/-- The length that the first word gives is that of the words written. -/
def EncodedLength.Statement (i : Instr) : Prop :=
  ∀ w ∈ (encode i).head?, instrLength w = 4 * (encode i).length

theorem one_length {w : Word} (h : (opField w).toNat < 0x80) :
    ∀ u ∈ [w].head?, instrLength u = 4 * [w].length := by
  simpa using instrLength_of_lt w h

theorem ctrl_length (op : BitVec 8) (d : BitVec 22) (h : op.toNat < 0x80) :
    ∀ u ∈ [ctrlWord op d].head?, instrLength u = 4 * [ctrlWord op d].length :=
  one_length (by rwa [opField_ctrlWord])

theorem cobr_length (op : BitVec 8) (a : Src) (b : Reg) (d : BitVec 11) (h : op.toNat < 0x80) :
    ∀ u ∈ [cobrWord op a b d].head?, instrLength u = 4 * [cobrWord op a b d].length :=
  one_length (by rwa [opField_cobrWord])

theorem reg_length (index : BitVec 12) (a b : Src) (c : Reg)
    (h : (index.extractLsb' 4 8).toNat < 0x80) :
    ∀ u ∈ [regWord index a b c].head?, instrLength u = 4 * [regWord index a b c].length :=
  one_length (by rwa [opField_regWord])

theorem mem_length (op : BitVec 8) (c : Reg) (m : MemOperand) (h : 0x80 ≤ op.toNat) :
    ∀ w ∈ (memWords op c m).head?, instrLength w = 4 * (memWords op c m).length := by
  obtain ⟨w, hw, -, -, hl, -⟩ := memWords_shape op c m h
  intro v hv
  rw [hw] at hv ⊢
  simp only [List.head?_cons, Option.mem_def, Option.some.injEq] at hv
  subst hv
  rw [hl]
  cases m <;> rfl

theorem EncodedLength.b (disp : BitVec 22) : EncodedLength.Statement (.b disp) :=
  ctrl_length _ _ (by decide)

theorem EncodedLength.call (disp : BitVec 22) : EncodedLength.Statement (.call disp) :=
  ctrl_length _ _ (by decide)

theorem EncodedLength.ret : EncodedLength.Statement .ret :=
  ctrl_length _ _ (by decide)

theorem EncodedLength.bal (disp : BitVec 22) : EncodedLength.Statement (.bal disp) :=
  ctrl_length _ _ (by decide)

theorem EncodedLength.bno (disp : BitVec 22) : EncodedLength.Statement (.bno disp) :=
  ctrl_length _ _ (by decide)

theorem EncodedLength.bg (disp : BitVec 22) : EncodedLength.Statement (.bg disp) :=
  ctrl_length _ _ (by decide)

theorem EncodedLength.be (disp : BitVec 22) : EncodedLength.Statement (.be disp) :=
  ctrl_length _ _ (by decide)

theorem EncodedLength.bge (disp : BitVec 22) : EncodedLength.Statement (.bge disp) :=
  ctrl_length _ _ (by decide)

theorem EncodedLength.bl (disp : BitVec 22) : EncodedLength.Statement (.bl disp) :=
  ctrl_length _ _ (by decide)

theorem EncodedLength.bne (disp : BitVec 22) : EncodedLength.Statement (.bne disp) :=
  ctrl_length _ _ (by decide)

theorem EncodedLength.ble (disp : BitVec 22) : EncodedLength.Statement (.ble disp) :=
  ctrl_length _ _ (by decide)

theorem EncodedLength.bo (disp : BitVec 22) : EncodedLength.Statement (.bo disp) :=
  ctrl_length _ _ (by decide)

theorem EncodedLength.faultno : EncodedLength.Statement .faultno :=
  ctrl_length _ _ (by decide)

theorem EncodedLength.faultg : EncodedLength.Statement .faultg :=
  ctrl_length _ _ (by decide)

theorem EncodedLength.faulte : EncodedLength.Statement .faulte :=
  ctrl_length _ _ (by decide)

theorem EncodedLength.faultge : EncodedLength.Statement .faultge :=
  ctrl_length _ _ (by decide)

theorem EncodedLength.faultl : EncodedLength.Statement .faultl :=
  ctrl_length _ _ (by decide)

theorem EncodedLength.faultne : EncodedLength.Statement .faultne :=
  ctrl_length _ _ (by decide)

theorem EncodedLength.faultle : EncodedLength.Statement .faultle :=
  ctrl_length _ _ (by decide)

theorem EncodedLength.faulto : EncodedLength.Statement .faulto :=
  ctrl_length _ _ (by decide)

theorem EncodedLength.testno (dst : Reg) : EncodedLength.Statement (.testno dst) :=
  cobr_length _ _ _ _ (by decide)

theorem EncodedLength.testg (dst : Reg) : EncodedLength.Statement (.testg dst) :=
  cobr_length _ _ _ _ (by decide)

theorem EncodedLength.teste (dst : Reg) : EncodedLength.Statement (.teste dst) :=
  cobr_length _ _ _ _ (by decide)

theorem EncodedLength.testge (dst : Reg) : EncodedLength.Statement (.testge dst) :=
  cobr_length _ _ _ _ (by decide)

theorem EncodedLength.testl (dst : Reg) : EncodedLength.Statement (.testl dst) :=
  cobr_length _ _ _ _ (by decide)

theorem EncodedLength.testne (dst : Reg) : EncodedLength.Statement (.testne dst) :=
  cobr_length _ _ _ _ (by decide)

theorem EncodedLength.testle (dst : Reg) : EncodedLength.Statement (.testle dst) :=
  cobr_length _ _ _ _ (by decide)

theorem EncodedLength.testo (dst : Reg) : EncodedLength.Statement (.testo dst) :=
  cobr_length _ _ _ _ (by decide)

theorem EncodedLength.bbc (a : Src) (b : Reg) (disp : BitVec 11) : EncodedLength.Statement (.bbc a b disp) :=
  cobr_length _ _ _ _ (by decide)

theorem EncodedLength.cmpobg (a : Src) (b : Reg) (disp : BitVec 11) : EncodedLength.Statement (.cmpobg a b disp) :=
  cobr_length _ _ _ _ (by decide)

theorem EncodedLength.cmpobe (a : Src) (b : Reg) (disp : BitVec 11) : EncodedLength.Statement (.cmpobe a b disp) :=
  cobr_length _ _ _ _ (by decide)

theorem EncodedLength.cmpobge (a : Src) (b : Reg) (disp : BitVec 11) : EncodedLength.Statement (.cmpobge a b disp) :=
  cobr_length _ _ _ _ (by decide)

theorem EncodedLength.cmpobl (a : Src) (b : Reg) (disp : BitVec 11) : EncodedLength.Statement (.cmpobl a b disp) :=
  cobr_length _ _ _ _ (by decide)

theorem EncodedLength.cmpobne (a : Src) (b : Reg) (disp : BitVec 11) : EncodedLength.Statement (.cmpobne a b disp) :=
  cobr_length _ _ _ _ (by decide)

theorem EncodedLength.cmpoble (a : Src) (b : Reg) (disp : BitVec 11) : EncodedLength.Statement (.cmpoble a b disp) :=
  cobr_length _ _ _ _ (by decide)

theorem EncodedLength.bbs (a : Src) (b : Reg) (disp : BitVec 11) : EncodedLength.Statement (.bbs a b disp) :=
  cobr_length _ _ _ _ (by decide)

theorem EncodedLength.cmpibno (a : Src) (b : Reg) (disp : BitVec 11) : EncodedLength.Statement (.cmpibno a b disp) :=
  cobr_length _ _ _ _ (by decide)

theorem EncodedLength.cmpibg (a : Src) (b : Reg) (disp : BitVec 11) : EncodedLength.Statement (.cmpibg a b disp) :=
  cobr_length _ _ _ _ (by decide)

theorem EncodedLength.cmpibe (a : Src) (b : Reg) (disp : BitVec 11) : EncodedLength.Statement (.cmpibe a b disp) :=
  cobr_length _ _ _ _ (by decide)

theorem EncodedLength.cmpibge (a : Src) (b : Reg) (disp : BitVec 11) : EncodedLength.Statement (.cmpibge a b disp) :=
  cobr_length _ _ _ _ (by decide)

theorem EncodedLength.cmpibl (a : Src) (b : Reg) (disp : BitVec 11) : EncodedLength.Statement (.cmpibl a b disp) :=
  cobr_length _ _ _ _ (by decide)

theorem EncodedLength.cmpibne (a : Src) (b : Reg) (disp : BitVec 11) : EncodedLength.Statement (.cmpibne a b disp) :=
  cobr_length _ _ _ _ (by decide)

theorem EncodedLength.cmpible (a : Src) (b : Reg) (disp : BitVec 11) : EncodedLength.Statement (.cmpible a b disp) :=
  cobr_length _ _ _ _ (by decide)

theorem EncodedLength.cmpibo (a : Src) (b : Reg) (disp : BitVec 11) : EncodedLength.Statement (.cmpibo a b disp) :=
  cobr_length _ _ _ _ (by decide)

theorem EncodedLength.notbit (a : Src) (b : Src) (c : Reg) : EncodedLength.Statement (.notbit a b c) :=
  reg_length _ _ _ _ (by decide)

theorem EncodedLength.and (a : Src) (b : Src) (c : Reg) : EncodedLength.Statement (.and a b c) :=
  reg_length _ _ _ _ (by decide)

theorem EncodedLength.andnot (a : Src) (b : Src) (c : Reg) : EncodedLength.Statement (.andnot a b c) :=
  reg_length _ _ _ _ (by decide)

theorem EncodedLength.setbit (a : Src) (b : Src) (c : Reg) : EncodedLength.Statement (.setbit a b c) :=
  reg_length _ _ _ _ (by decide)

theorem EncodedLength.notand (a : Src) (b : Src) (c : Reg) : EncodedLength.Statement (.notand a b c) :=
  reg_length _ _ _ _ (by decide)

theorem EncodedLength.filler585 (a : Src) (b : Src) (c : Reg) : EncodedLength.Statement (.filler585 a b c) :=
  reg_length _ _ _ _ (by decide)

theorem EncodedLength.xor (a : Src) (b : Src) (c : Reg) : EncodedLength.Statement (.xor a b c) :=
  reg_length _ _ _ _ (by decide)

theorem EncodedLength.or (a : Src) (b : Src) (c : Reg) : EncodedLength.Statement (.or a b c) :=
  reg_length _ _ _ _ (by decide)

theorem EncodedLength.nor (a : Src) (b : Src) (c : Reg) : EncodedLength.Statement (.nor a b c) :=
  reg_length _ _ _ _ (by decide)

theorem EncodedLength.xnor (a : Src) (b : Src) (c : Reg) : EncodedLength.Statement (.xnor a b c) :=
  reg_length _ _ _ _ (by decide)

theorem EncodedLength.not (a : Src) (c : Reg) : EncodedLength.Statement (.not a c) :=
  reg_length _ _ _ _ (by decide)

theorem EncodedLength.ornot (a : Src) (b : Src) (c : Reg) : EncodedLength.Statement (.ornot a b c) :=
  reg_length _ _ _ _ (by decide)

theorem EncodedLength.clrbit (a : Src) (b : Src) (c : Reg) : EncodedLength.Statement (.clrbit a b c) :=
  reg_length _ _ _ _ (by decide)

theorem EncodedLength.notor (a : Src) (b : Src) (c : Reg) : EncodedLength.Statement (.notor a b c) :=
  reg_length _ _ _ _ (by decide)

theorem EncodedLength.nand (a : Src) (b : Src) (c : Reg) : EncodedLength.Statement (.nand a b c) :=
  reg_length _ _ _ _ (by decide)

theorem EncodedLength.alterbit (a : Src) (b : Src) (c : Reg) : EncodedLength.Statement (.alterbit a b c) :=
  reg_length _ _ _ _ (by decide)

theorem EncodedLength.addo (a : Src) (b : Src) (c : Reg) : EncodedLength.Statement (.addo a b c) :=
  reg_length _ _ _ _ (by decide)

theorem EncodedLength.addi (a : Src) (b : Src) (c : Reg) : EncodedLength.Statement (.addi a b c) :=
  reg_length _ _ _ _ (by decide)

theorem EncodedLength.subo (a : Src) (b : Src) (c : Reg) : EncodedLength.Statement (.subo a b c) :=
  reg_length _ _ _ _ (by decide)

theorem EncodedLength.subi (a : Src) (b : Src) (c : Reg) : EncodedLength.Statement (.subi a b c) :=
  reg_length _ _ _ _ (by decide)

theorem EncodedLength.cmpob (a : Src) (b : Src) : EncodedLength.Statement (.cmpob a b) :=
  reg_length _ _ _ _ (by decide)

theorem EncodedLength.cmpib (a : Src) (b : Src) : EncodedLength.Statement (.cmpib a b) :=
  reg_length _ _ _ _ (by decide)

theorem EncodedLength.cmpos (a : Src) (b : Src) : EncodedLength.Statement (.cmpos a b) :=
  reg_length _ _ _ _ (by decide)

theorem EncodedLength.cmpis (a : Src) (b : Src) : EncodedLength.Statement (.cmpis a b) :=
  reg_length _ _ _ _ (by decide)

theorem EncodedLength.shro (a : Src) (b : Src) (c : Reg) : EncodedLength.Statement (.shro a b c) :=
  reg_length _ _ _ _ (by decide)

theorem EncodedLength.shrdi (a : Src) (b : Src) (c : Reg) : EncodedLength.Statement (.shrdi a b c) :=
  reg_length _ _ _ _ (by decide)

theorem EncodedLength.shri (a : Src) (b : Src) (c : Reg) : EncodedLength.Statement (.shri a b c) :=
  reg_length _ _ _ _ (by decide)

theorem EncodedLength.shlo (a : Src) (b : Src) (c : Reg) : EncodedLength.Statement (.shlo a b c) :=
  reg_length _ _ _ _ (by decide)

theorem EncodedLength.rotate (a : Src) (b : Src) (c : Reg) : EncodedLength.Statement (.rotate a b c) :=
  reg_length _ _ _ _ (by decide)

theorem EncodedLength.shli (a : Src) (b : Src) (c : Reg) : EncodedLength.Statement (.shli a b c) :=
  reg_length _ _ _ _ (by decide)

theorem EncodedLength.cmpo (a : Src) (b : Src) : EncodedLength.Statement (.cmpo a b) :=
  reg_length _ _ _ _ (by decide)

theorem EncodedLength.cmpi (a : Src) (b : Src) : EncodedLength.Statement (.cmpi a b) :=
  reg_length _ _ _ _ (by decide)

theorem EncodedLength.concmpo (a : Src) (b : Src) : EncodedLength.Statement (.concmpo a b) :=
  reg_length _ _ _ _ (by decide)

theorem EncodedLength.concmpi (a : Src) (b : Src) : EncodedLength.Statement (.concmpi a b) :=
  reg_length _ _ _ _ (by decide)

theorem EncodedLength.cmpinco (a : Src) (b : Src) (c : Reg) : EncodedLength.Statement (.cmpinco a b c) :=
  reg_length _ _ _ _ (by decide)

theorem EncodedLength.cmpinci (a : Src) (b : Src) (c : Reg) : EncodedLength.Statement (.cmpinci a b c) :=
  reg_length _ _ _ _ (by decide)

theorem EncodedLength.cmpdeco (a : Src) (b : Src) (c : Reg) : EncodedLength.Statement (.cmpdeco a b c) :=
  reg_length _ _ _ _ (by decide)

theorem EncodedLength.cmpdeci (a : Src) (b : Src) (c : Reg) : EncodedLength.Statement (.cmpdeci a b c) :=
  reg_length _ _ _ _ (by decide)

theorem EncodedLength.scanbyte (a : Src) (b : Src) : EncodedLength.Statement (.scanbyte a b) :=
  reg_length _ _ _ _ (by decide)

theorem EncodedLength.bswap (a : Src) (c : Reg) : EncodedLength.Statement (.bswap a c) :=
  reg_length _ _ _ _ (by decide)

theorem EncodedLength.chkbit (a : Src) (b : Src) : EncodedLength.Statement (.chkbit a b) :=
  reg_length _ _ _ _ (by decide)

theorem EncodedLength.addc (a : Src) (b : Src) (c : Reg) : EncodedLength.Statement (.addc a b c) :=
  reg_length _ _ _ _ (by decide)

theorem EncodedLength.subc (a : Src) (b : Src) (c : Reg) : EncodedLength.Statement (.subc a b c) :=
  reg_length _ _ _ _ (by decide)

theorem EncodedLength.intdis : EncodedLength.Statement .intdis :=
  reg_length _ _ _ _ (by decide)

theorem EncodedLength.inten : EncodedLength.Statement .inten :=
  reg_length _ _ _ _ (by decide)

theorem EncodedLength.mov (a : Src) (c : Reg) : EncodedLength.Statement (.mov a c) :=
  reg_length _ _ _ _ (by decide)

theorem EncodedLength.eshro (a : Src) (b : Src) (c : Reg) : EncodedLength.Statement (.eshro a b c) :=
  reg_length _ _ _ _ (by decide)

theorem EncodedLength.movl (a : Src) (c : Reg) : EncodedLength.Statement (.movl a c) :=
  reg_length _ _ _ _ (by decide)

theorem EncodedLength.movt (a : Src) (c : Reg) : EncodedLength.Statement (.movt a c) :=
  reg_length _ _ _ _ (by decide)

theorem EncodedLength.movq (a : Src) (c : Reg) : EncodedLength.Statement (.movq a c) :=
  reg_length _ _ _ _ (by decide)

theorem EncodedLength.atmod (a : Src) (b : Src) (c : Reg) : EncodedLength.Statement (.atmod a b c) :=
  reg_length _ _ _ _ (by decide)

theorem EncodedLength.atadd (a : Src) (b : Src) (c : Reg) : EncodedLength.Statement (.atadd a b c) :=
  reg_length _ _ _ _ (by decide)

theorem EncodedLength.spanbit (a : Src) (c : Reg) : EncodedLength.Statement (.spanbit a c) :=
  reg_length _ _ _ _ (by decide)

theorem EncodedLength.scanbit (a : Src) (c : Reg) : EncodedLength.Statement (.scanbit a c) :=
  reg_length _ _ _ _ (by decide)

theorem EncodedLength.modac (a : Src) (b : Src) (c : Reg) : EncodedLength.Statement (.modac a b c) :=
  reg_length _ _ _ _ (by decide)

theorem EncodedLength.modify (a : Src) (b : Src) (c : Reg) : EncodedLength.Statement (.modify a b c) :=
  reg_length _ _ _ _ (by decide)

theorem EncodedLength.extract (a : Src) (b : Src) (c : Reg) : EncodedLength.Statement (.extract a b c) :=
  reg_length _ _ _ _ (by decide)

theorem EncodedLength.modtc (a : Src) (b : Src) (c : Reg) : EncodedLength.Statement (.modtc a b c) :=
  reg_length _ _ _ _ (by decide)

theorem EncodedLength.modpc (a : Src) (b : Src) (c : Reg) : EncodedLength.Statement (.modpc a b c) :=
  reg_length _ _ _ _ (by decide)

theorem EncodedLength.calls (a : Src) : EncodedLength.Statement (.calls a) :=
  reg_length _ _ _ _ (by decide)

theorem EncodedLength.mark : EncodedLength.Statement .mark :=
  reg_length _ _ _ _ (by decide)

theorem EncodedLength.fmark : EncodedLength.Statement .fmark :=
  reg_length _ _ _ _ (by decide)

theorem EncodedLength.flushreg : EncodedLength.Statement .flushreg :=
  reg_length _ _ _ _ (by decide)

theorem EncodedLength.syncf : EncodedLength.Statement .syncf :=
  reg_length _ _ _ _ (by decide)

theorem EncodedLength.emul (a : Src) (b : Src) (c : Reg) : EncodedLength.Statement (.emul a b c) :=
  reg_length _ _ _ _ (by decide)

theorem EncodedLength.ediv (a : Src) (b : Src) (c : Reg) : EncodedLength.Statement (.ediv a b c) :=
  reg_length _ _ _ _ (by decide)

theorem EncodedLength.mulo (a : Src) (b : Src) (c : Reg) : EncodedLength.Statement (.mulo a b c) :=
  reg_length _ _ _ _ (by decide)

theorem EncodedLength.remo (a : Src) (b : Src) (c : Reg) : EncodedLength.Statement (.remo a b c) :=
  reg_length _ _ _ _ (by decide)

theorem EncodedLength.divo (a : Src) (b : Src) (c : Reg) : EncodedLength.Statement (.divo a b c) :=
  reg_length _ _ _ _ (by decide)

theorem EncodedLength.muli (a : Src) (b : Src) (c : Reg) : EncodedLength.Statement (.muli a b c) :=
  reg_length _ _ _ _ (by decide)

theorem EncodedLength.remi (a : Src) (b : Src) (c : Reg) : EncodedLength.Statement (.remi a b c) :=
  reg_length _ _ _ _ (by decide)

theorem EncodedLength.modi (a : Src) (b : Src) (c : Reg) : EncodedLength.Statement (.modi a b c) :=
  reg_length _ _ _ _ (by decide)

theorem EncodedLength.divi (a : Src) (b : Src) (c : Reg) : EncodedLength.Statement (.divi a b c) :=
  reg_length _ _ _ _ (by decide)

theorem EncodedLength.addono (a : Src) (b : Src) (c : Reg) : EncodedLength.Statement (.addono a b c) :=
  reg_length _ _ _ _ (by decide)

theorem EncodedLength.addino (a : Src) (b : Src) (c : Reg) : EncodedLength.Statement (.addino a b c) :=
  reg_length _ _ _ _ (by decide)

theorem EncodedLength.subono (a : Src) (b : Src) (c : Reg) : EncodedLength.Statement (.subono a b c) :=
  reg_length _ _ _ _ (by decide)

theorem EncodedLength.subino (a : Src) (b : Src) (c : Reg) : EncodedLength.Statement (.subino a b c) :=
  reg_length _ _ _ _ (by decide)

theorem EncodedLength.selno (a : Src) (b : Src) (c : Reg) : EncodedLength.Statement (.selno a b c) :=
  reg_length _ _ _ _ (by decide)

theorem EncodedLength.addog (a : Src) (b : Src) (c : Reg) : EncodedLength.Statement (.addog a b c) :=
  reg_length _ _ _ _ (by decide)

theorem EncodedLength.addig (a : Src) (b : Src) (c : Reg) : EncodedLength.Statement (.addig a b c) :=
  reg_length _ _ _ _ (by decide)

theorem EncodedLength.subog (a : Src) (b : Src) (c : Reg) : EncodedLength.Statement (.subog a b c) :=
  reg_length _ _ _ _ (by decide)

theorem EncodedLength.subig (a : Src) (b : Src) (c : Reg) : EncodedLength.Statement (.subig a b c) :=
  reg_length _ _ _ _ (by decide)

theorem EncodedLength.selg (a : Src) (b : Src) (c : Reg) : EncodedLength.Statement (.selg a b c) :=
  reg_length _ _ _ _ (by decide)

theorem EncodedLength.addoe (a : Src) (b : Src) (c : Reg) : EncodedLength.Statement (.addoe a b c) :=
  reg_length _ _ _ _ (by decide)

theorem EncodedLength.addie (a : Src) (b : Src) (c : Reg) : EncodedLength.Statement (.addie a b c) :=
  reg_length _ _ _ _ (by decide)

theorem EncodedLength.suboe (a : Src) (b : Src) (c : Reg) : EncodedLength.Statement (.suboe a b c) :=
  reg_length _ _ _ _ (by decide)

theorem EncodedLength.subie (a : Src) (b : Src) (c : Reg) : EncodedLength.Statement (.subie a b c) :=
  reg_length _ _ _ _ (by decide)

theorem EncodedLength.sele (a : Src) (b : Src) (c : Reg) : EncodedLength.Statement (.sele a b c) :=
  reg_length _ _ _ _ (by decide)

theorem EncodedLength.addoge (a : Src) (b : Src) (c : Reg) : EncodedLength.Statement (.addoge a b c) :=
  reg_length _ _ _ _ (by decide)

theorem EncodedLength.addige (a : Src) (b : Src) (c : Reg) : EncodedLength.Statement (.addige a b c) :=
  reg_length _ _ _ _ (by decide)

theorem EncodedLength.suboge (a : Src) (b : Src) (c : Reg) : EncodedLength.Statement (.suboge a b c) :=
  reg_length _ _ _ _ (by decide)

theorem EncodedLength.subige (a : Src) (b : Src) (c : Reg) : EncodedLength.Statement (.subige a b c) :=
  reg_length _ _ _ _ (by decide)

theorem EncodedLength.selge (a : Src) (b : Src) (c : Reg) : EncodedLength.Statement (.selge a b c) :=
  reg_length _ _ _ _ (by decide)

theorem EncodedLength.addol (a : Src) (b : Src) (c : Reg) : EncodedLength.Statement (.addol a b c) :=
  reg_length _ _ _ _ (by decide)

theorem EncodedLength.addil (a : Src) (b : Src) (c : Reg) : EncodedLength.Statement (.addil a b c) :=
  reg_length _ _ _ _ (by decide)

theorem EncodedLength.subol (a : Src) (b : Src) (c : Reg) : EncodedLength.Statement (.subol a b c) :=
  reg_length _ _ _ _ (by decide)

theorem EncodedLength.subil (a : Src) (b : Src) (c : Reg) : EncodedLength.Statement (.subil a b c) :=
  reg_length _ _ _ _ (by decide)

theorem EncodedLength.sell (a : Src) (b : Src) (c : Reg) : EncodedLength.Statement (.sell a b c) :=
  reg_length _ _ _ _ (by decide)

theorem EncodedLength.addone (a : Src) (b : Src) (c : Reg) : EncodedLength.Statement (.addone a b c) :=
  reg_length _ _ _ _ (by decide)

theorem EncodedLength.addine (a : Src) (b : Src) (c : Reg) : EncodedLength.Statement (.addine a b c) :=
  reg_length _ _ _ _ (by decide)

theorem EncodedLength.subone (a : Src) (b : Src) (c : Reg) : EncodedLength.Statement (.subone a b c) :=
  reg_length _ _ _ _ (by decide)

theorem EncodedLength.subine (a : Src) (b : Src) (c : Reg) : EncodedLength.Statement (.subine a b c) :=
  reg_length _ _ _ _ (by decide)

theorem EncodedLength.selne (a : Src) (b : Src) (c : Reg) : EncodedLength.Statement (.selne a b c) :=
  reg_length _ _ _ _ (by decide)

theorem EncodedLength.addole (a : Src) (b : Src) (c : Reg) : EncodedLength.Statement (.addole a b c) :=
  reg_length _ _ _ _ (by decide)

theorem EncodedLength.addile (a : Src) (b : Src) (c : Reg) : EncodedLength.Statement (.addile a b c) :=
  reg_length _ _ _ _ (by decide)

theorem EncodedLength.subole (a : Src) (b : Src) (c : Reg) : EncodedLength.Statement (.subole a b c) :=
  reg_length _ _ _ _ (by decide)

theorem EncodedLength.subile (a : Src) (b : Src) (c : Reg) : EncodedLength.Statement (.subile a b c) :=
  reg_length _ _ _ _ (by decide)

theorem EncodedLength.selle (a : Src) (b : Src) (c : Reg) : EncodedLength.Statement (.selle a b c) :=
  reg_length _ _ _ _ (by decide)

theorem EncodedLength.addoo (a : Src) (b : Src) (c : Reg) : EncodedLength.Statement (.addoo a b c) :=
  reg_length _ _ _ _ (by decide)

theorem EncodedLength.addio (a : Src) (b : Src) (c : Reg) : EncodedLength.Statement (.addio a b c) :=
  reg_length _ _ _ _ (by decide)

theorem EncodedLength.suboo (a : Src) (b : Src) (c : Reg) : EncodedLength.Statement (.suboo a b c) :=
  reg_length _ _ _ _ (by decide)

theorem EncodedLength.subio (a : Src) (b : Src) (c : Reg) : EncodedLength.Statement (.subio a b c) :=
  reg_length _ _ _ _ (by decide)

theorem EncodedLength.selo (a : Src) (b : Src) (c : Reg) : EncodedLength.Statement (.selo a b c) :=
  reg_length _ _ _ _ (by decide)

theorem EncodedLength.ldob (mem : MemOperand) (c : Reg) : EncodedLength.Statement (.ldob mem c) :=
  mem_length _ _ _ (by decide)

theorem EncodedLength.stob (c : Reg) (mem : MemOperand) : EncodedLength.Statement (.stob c mem) :=
  mem_length _ _ _ (by decide)

theorem EncodedLength.bx (mem : MemOperand) : EncodedLength.Statement (.bx mem) :=
  mem_length _ _ _ (by decide)

theorem EncodedLength.balx (mem : MemOperand) (c : Reg) : EncodedLength.Statement (.balx mem c) :=
  mem_length _ _ _ (by decide)

theorem EncodedLength.callx (mem : MemOperand) : EncodedLength.Statement (.callx mem) :=
  mem_length _ _ _ (by decide)

theorem EncodedLength.ldos (mem : MemOperand) (c : Reg) : EncodedLength.Statement (.ldos mem c) :=
  mem_length _ _ _ (by decide)

theorem EncodedLength.stos (c : Reg) (mem : MemOperand) : EncodedLength.Statement (.stos c mem) :=
  mem_length _ _ _ (by decide)

theorem EncodedLength.lda (mem : MemOperand) (c : Reg) : EncodedLength.Statement (.lda mem c) :=
  mem_length _ _ _ (by decide)

theorem EncodedLength.ld (mem : MemOperand) (c : Reg) : EncodedLength.Statement (.ld mem c) :=
  mem_length _ _ _ (by decide)

theorem EncodedLength.st (c : Reg) (mem : MemOperand) : EncodedLength.Statement (.st c mem) :=
  mem_length _ _ _ (by decide)

theorem EncodedLength.ldl (mem : MemOperand) (c : Reg) : EncodedLength.Statement (.ldl mem c) :=
  mem_length _ _ _ (by decide)

theorem EncodedLength.stl (c : Reg) (mem : MemOperand) : EncodedLength.Statement (.stl c mem) :=
  mem_length _ _ _ (by decide)

theorem EncodedLength.ldt (mem : MemOperand) (c : Reg) : EncodedLength.Statement (.ldt mem c) :=
  mem_length _ _ _ (by decide)

theorem EncodedLength.stt (c : Reg) (mem : MemOperand) : EncodedLength.Statement (.stt c mem) :=
  mem_length _ _ _ (by decide)

theorem EncodedLength.ldq (mem : MemOperand) (c : Reg) : EncodedLength.Statement (.ldq mem c) :=
  mem_length _ _ _ (by decide)

theorem EncodedLength.stq (c : Reg) (mem : MemOperand) : EncodedLength.Statement (.stq c mem) :=
  mem_length _ _ _ (by decide)

theorem EncodedLength.ldib (mem : MemOperand) (c : Reg) : EncodedLength.Statement (.ldib mem c) :=
  mem_length _ _ _ (by decide)

theorem EncodedLength.stib (c : Reg) (mem : MemOperand) : EncodedLength.Statement (.stib c mem) :=
  mem_length _ _ _ (by decide)

theorem EncodedLength.ldis (mem : MemOperand) (c : Reg) : EncodedLength.Statement (.ldis mem c) :=
  mem_length _ _ _ (by decide)

theorem EncodedLength.stis (c : Reg) (mem : MemOperand) : EncodedLength.Statement (.stis c mem) :=
  mem_length _ _ _ (by decide)

end Sys2Proof.Laws
end

