-- ==== Sys2Proof/Tests/Slice0.lean ====
section
/-! SUPPORT. Tests, their expected values taken from the spec: ill-formed terms, the decoding of every
constructor, one step per vector of spec/95_test_vectors.md, and a witness for the hypotheses of
every statement that has some. -/

namespace Sys2Proof.Tests

open Sys2Proof.Machine Sys2Proof.Config

/-! ### Well-formedness (R142) -/

theorem test_wf_movl :
    [Instr.movl (.reg 4) 6, .movl (.lit 4) 6, .movl (.reg 5) 6, .movl (.reg 4) 7].map Instr.wf =
      [true, false, false, false] := by
  decide

theorem test_wf_movt :
    [Instr.movt (.reg 4) 8, .movt (.lit 4) 8, .movt (.reg 6) 8, .movt (.reg 4) 10].map Instr.wf =
      [true, false, false, false] := by
  decide

theorem test_wf_movq :
    [Instr.movq (.reg 4) 8, .movq (.lit 4) 8, .movq (.reg 6) 8, .movq (.reg 4) 10].map Instr.wf =
      [true, false, false, false] := by
  decide

theorem test_wf_eshro :
    [Instr.eshro (.lit 4) (.reg 7) 9, .eshro (.reg 4) (.lit 6) 8].map Instr.wf = [true, false] := by
  decide

theorem test_wf_emul_ediv :
    [Instr.emul (.lit 1) (.lit 2) 8, .emul (.lit 1) (.lit 2) 9, .ediv (.lit 1) (.reg 6) 8,
      .ediv (.lit 1) (.lit 6) 8, .ediv (.lit 1) (.reg 7) 8, .ediv (.lit 1) (.reg 6) 9].map Instr.wf =
      [true, false, true, false, false, false] := by
  decide

theorem test_wf_loads :
    [Instr.ldl (.base 5) 6, .ldl (.base 5) 7, .ldt (.base 5) 8, .ldt (.base 5) 10,
      .ldq (.base 5) 8, .ldq (.base 5) 10].map Instr.wf =
      [true, false, true, false, true, false] := by
  decide

theorem test_wf_stores :
    [Instr.stl 6 (.base 5), .stl 7 (.base 5), .stt 8 (.base 5), .stt 10 (.base 5),
      .stq 8 (.base 5), .stq 10 (.base 5)].map Instr.wf =
      [true, false, true, false, true, false] := by
  decide

/-! ### Decoding

The words are the table's match with fields put in by R130, R133, R140 and R150 to R152, so that no
two fields of a word are equal. Every constructor is decoded once. -/

/-- The instructions the decoder reads from words of so many bits. -/
def decodes (l : List (Nat × Nat)) : List (Option Instr) := l.map fun p => decodeTableWord p.1 p.2

theorem test_decode_ctrl :
    decodes [
      (32, 0x08000100), (32, 0x09FFFFC0), (32, 0x0A000000), (32, 0x0BFFFFC0), (32, 0x10000100),
      (32, 0x11FFFFC0), (32, 0x12000100), (32, 0x13FFFFC0), (32, 0x14000100), (32, 0x15FFFFC0),
      (32, 0x16000100), (32, 0x17FFFFC0), (32, 0x18000000), (32, 0x19000000), (32, 0x1A000000),
      (32, 0x1B000000), (32, 0x1C000000), (32, 0x1D000000), (32, 0x1E000000), (32, 0x1F000000)] = [
      some (.b 0x40), some (.call 0x3FFFF0), some .ret, some (.bal 0x3FFFF0), some (.bno 0x40),
      some (.bg 0x3FFFF0), some (.be 0x40), some (.bge 0x3FFFF0), some (.bl 0x40),
      some (.bne 0x3FFFF0), some (.ble 0x40), some (.bo 0x3FFFF0), some .faultno, some .faultg,
      some .faulte, some .faultge, some .faultl, some .faultne, some .faultle, some .faulto] := by
  decide

theorem test_decode_cobr :
    decodes [
      (32, 0x20200000), (32, 0x21200000), (32, 0x22200000), (32, 0x23200000), (32, 0x24200000),
      (32, 0x25200000), (32, 0x26200000), (32, 0x27200000), (32, 0x30190040), (32, 0x31193FF0),
      (32, 0x32190040), (32, 0x33193FF0), (32, 0x34190040), (32, 0x35193FF0), (32, 0x36190040),
      (32, 0x37193FF0), (32, 0x38190040), (32, 0x39193FF0), (32, 0x3A190040), (32, 0x3B193FF0),
      (32, 0x3C190040), (32, 0x3D193FF0), (32, 0x3E190040), (32, 0x3F193FF0)] = [
      some (.testno 4), some (.testg 4), some (.teste 4), some (.testge 4), some (.testl 4),
      some (.testne 4), some (.testle 4), some (.testo 4), some (.bbc (.reg 3) 4 0x10),
      some (.cmpobg (.lit 3) 4 0x7FC), some (.cmpobe (.reg 3) 4 0x10),
      some (.cmpobge (.lit 3) 4 0x7FC), some (.cmpobl (.reg 3) 4 0x10),
      some (.cmpobne (.lit 3) 4 0x7FC), some (.cmpoble (.reg 3) 4 0x10),
      some (.bbs (.lit 3) 4 0x7FC), some (.cmpibno (.reg 3) 4 0x10),
      some (.cmpibg (.lit 3) 4 0x7FC), some (.cmpibe (.reg 3) 4 0x10),
      some (.cmpibge (.lit 3) 4 0x7FC), some (.cmpibl (.reg 3) 4 0x10),
      some (.cmpibne (.lit 3) 4 0x7FC), some (.cmpible (.reg 3) 4 0x10),
      some (.cmpibo (.lit 3) 4 0x7FC)] := by
  decide

theorem test_decode_reg_1 :
    decodes [
      (32, 0x58315004), (32, 0x58314884), (32, 0x58315104), (32, 0x58314984), (32, 0x58315204),
      (32, 0x58314A84), (32, 0x58315304), (32, 0x58314B84), (32, 0x58315404), (32, 0x58314C84),
      (32, 0x58300504), (32, 0x58314D84), (32, 0x58315604), (32, 0x58314E84), (32, 0x58315704),
      (32, 0x58314F84), (32, 0x59315004), (32, 0x59314884), (32, 0x59315104), (32, 0x59314984),
      (32, 0x59015204), (32, 0x59014A84), (32, 0x59015304), (32, 0x59014B84)] = [
      some (.notbit (.reg 4) (.lit 5) 6), some (.and (.lit 4) (.reg 5) 6),
      some (.andnot (.reg 4) (.lit 5) 6), some (.setbit (.lit 4) (.reg 5) 6),
      some (.notand (.reg 4) (.lit 5) 6), some (.filler585 (.lit 4) (.reg 5) 6),
      some (.xor (.reg 4) (.lit 5) 6), some (.or (.lit 4) (.reg 5) 6),
      some (.nor (.reg 4) (.lit 5) 6), some (.xnor (.lit 4) (.reg 5) 6), some (.not (.reg 4) 6),
      some (.ornot (.lit 4) (.reg 5) 6), some (.clrbit (.reg 4) (.lit 5) 6),
      some (.notor (.lit 4) (.reg 5) 6), some (.nand (.reg 4) (.lit 5) 6),
      some (.alterbit (.lit 4) (.reg 5) 6), some (.addo (.reg 4) (.lit 5) 6),
      some (.addi (.lit 4) (.reg 5) 6), some (.subo (.reg 4) (.lit 5) 6),
      some (.subi (.lit 4) (.reg 5) 6), some (.cmpob (.reg 4) (.lit 5)),
      some (.cmpib (.lit 4) (.reg 5)), some (.cmpos (.reg 4) (.lit 5)),
      some (.cmpis (.lit 4) (.reg 5))] := by
  decide

theorem test_decode_reg_2 :
    decodes [
      (32, 0x59315404), (32, 0x59314D04), (32, 0x59315584), (32, 0x59314E04), (32, 0x59315684),
      (32, 0x59314F04), (32, 0x5A015004), (32, 0x5A014884), (32, 0x5A015104), (32, 0x5A014984),
      (32, 0x5A315204), (32, 0x5A314A84), (32, 0x5A315304), (32, 0x5A314B84), (32, 0x5A015604),
      (32, 0x5A300E84), (32, 0x5A015704), (32, 0x5B314804), (32, 0x5B315104), (32, 0x5B000200),
      (32, 0x5B000280), (32, 0x5C300E04), (32, 0x5D620404), (32, 0x5D600604)] = [
      some (.shro (.reg 4) (.lit 5) 6), some (.shrdi (.lit 4) (.reg 5) 6),
      some (.shri (.reg 4) (.lit 5) 6), some (.shlo (.lit 4) (.reg 5) 6),
      some (.rotate (.reg 4) (.lit 5) 6), some (.shli (.lit 4) (.reg 5) 6),
      some (.cmpo (.reg 4) (.lit 5)), some (.cmpi (.lit 4) (.reg 5)),
      some (.concmpo (.reg 4) (.lit 5)), some (.concmpi (.lit 4) (.reg 5)),
      some (.cmpinco (.reg 4) (.lit 5) 6), some (.cmpinci (.lit 4) (.reg 5) 6),
      some (.cmpdeco (.reg 4) (.lit 5) 6), some (.cmpdeci (.lit 4) (.reg 5) 6),
      some (.scanbyte (.reg 4) (.lit 5)), some (.bswap (.lit 4) 6),
      some (.chkbit (.reg 4) (.lit 5)), some (.addc (.lit 4) (.reg 5) 6),
      some (.subc (.reg 4) (.lit 5) 6), some .intdis, some .inten, some (.mov (.lit 4) 6),
      some (.eshro (.reg 4) (.reg 8) 12), some (.movl (.reg 4) 12)] := by
  decide

theorem test_decode_reg_3 :
    decodes [
      (32, 0x5E600604), (32, 0x5F600604), (32, 0x61315004), (32, 0x61314904), (32, 0x64300004),
      (32, 0x64300884), (32, 0x64315284), (32, 0x65314804), (32, 0x65315084), (32, 0x65314A04),
      (32, 0x65315284), (32, 0x66000804), (32, 0x66000580), (32, 0x66000600), (32, 0x66000680),
      (32, 0x66000780), (32, 0x67615004), (32, 0x67620884), (32, 0x70315084), (32, 0x70314C04),
      (32, 0x70315584), (32, 0x74314884), (32, 0x74315404), (32, 0x74314C84)] = [
      some (.movt (.reg 4) 12), some (.movq (.reg 4) 12), some (.atmod (.reg 4) (.lit 5) 6),
      some (.atadd (.lit 4) (.reg 5) 6), some (.spanbit (.reg 4) 6), some (.scanbit (.lit 4) 6),
      some (.modac (.reg 4) (.lit 5) 6), some (.modify (.lit 4) (.reg 5) 6),
      some (.extract (.reg 4) (.lit 5) 6), some (.modtc (.lit 4) (.reg 5) 6),
      some (.modpc (.reg 4) (.lit 5) 6), some (.calls (.lit 4)), some .mark, some .fmark,
      some .flushreg, some .syncf, some (.emul (.reg 4) (.lit 5) 12),
      some (.ediv (.lit 4) (.reg 8) 12), some (.mulo (.reg 4) (.lit 5) 6),
      some (.remo (.lit 4) (.reg 5) 6), some (.divo (.reg 4) (.lit 5) 6),
      some (.muli (.lit 4) (.reg 5) 6), some (.remi (.reg 4) (.lit 5) 6),
      some (.modi (.lit 4) (.reg 5) 6)] := by
  decide

theorem test_decode_reg_4 :
    decodes [
      (32, 0x74315584), (32, 0x78314804), (32, 0x78315084), (32, 0x78314904), (32, 0x78315184),
      (32, 0x78314A04), (32, 0x79315004), (32, 0x79314884), (32, 0x79315104), (32, 0x79314984),
      (32, 0x79315204), (32, 0x7A314804), (32, 0x7A315084), (32, 0x7A314904), (32, 0x7A315184),
      (32, 0x7A314A04), (32, 0x7B315004), (32, 0x7B314884), (32, 0x7B315104), (32, 0x7B314984),
      (32, 0x7B315204), (32, 0x7C314804), (32, 0x7C315084), (32, 0x7C314904)] = [
      some (.divi (.reg 4) (.lit 5) 6), some (.addono (.lit 4) (.reg 5) 6),
      some (.addino (.reg 4) (.lit 5) 6), some (.subono (.lit 4) (.reg 5) 6),
      some (.subino (.reg 4) (.lit 5) 6), some (.selno (.lit 4) (.reg 5) 6),
      some (.addog (.reg 4) (.lit 5) 6), some (.addig (.lit 4) (.reg 5) 6),
      some (.subog (.reg 4) (.lit 5) 6), some (.subig (.lit 4) (.reg 5) 6),
      some (.selg (.reg 4) (.lit 5) 6), some (.addoe (.lit 4) (.reg 5) 6),
      some (.addie (.reg 4) (.lit 5) 6), some (.suboe (.lit 4) (.reg 5) 6),
      some (.subie (.reg 4) (.lit 5) 6), some (.sele (.lit 4) (.reg 5) 6),
      some (.addoge (.reg 4) (.lit 5) 6), some (.addige (.lit 4) (.reg 5) 6),
      some (.suboge (.reg 4) (.lit 5) 6), some (.subige (.lit 4) (.reg 5) 6),
      some (.selge (.reg 4) (.lit 5) 6), some (.addol (.lit 4) (.reg 5) 6),
      some (.addil (.reg 4) (.lit 5) 6), some (.subol (.lit 4) (.reg 5) 6)] := by
  decide

theorem test_decode_reg_5 :
    decodes [
      (32, 0x7C315184), (32, 0x7C314A04), (32, 0x7D315004), (32, 0x7D314884), (32, 0x7D315104),
      (32, 0x7D314984), (32, 0x7D315204), (32, 0x7E314804), (32, 0x7E315084), (32, 0x7E314904),
      (32, 0x7E315184), (32, 0x7E314A04), (32, 0x7F315004), (32, 0x7F314884), (32, 0x7F315104),
      (32, 0x7F314984), (32, 0x7F315204)] = [
      some (.subil (.reg 4) (.lit 5) 6), some (.sell (.lit 4) (.reg 5) 6),
      some (.addone (.reg 4) (.lit 5) 6), some (.addine (.lit 4) (.reg 5) 6),
      some (.subone (.reg 4) (.lit 5) 6), some (.subine (.lit 4) (.reg 5) 6),
      some (.selne (.reg 4) (.lit 5) 6), some (.addole (.lit 4) (.reg 5) 6),
      some (.addile (.reg 4) (.lit 5) 6), some (.subole (.lit 4) (.reg 5) 6),
      some (.subile (.reg 4) (.lit 5) 6), some (.selle (.lit 4) (.reg 5) 6),
      some (.addoo (.reg 4) (.lit 5) 6), some (.addio (.lit 4) (.reg 5) 6),
      some (.suboo (.reg 4) (.lit 5) 6), some (.subio (.lit 4) (.reg 5) 6),
      some (.selo (.reg 4) (.lit 5) 6)] := by
  decide

theorem test_decode_mem :
    decodes [
      (64, 0x1234567880803000), (64, 0x0000001082817400), (64, 0x0000001084003A07),
      (64, 0x0000000485817C87), (32, 0x860007FC), (32, 0x88816801), (32, 0x8A815000),
      (64, 0xFFFFFFF08C801400), (32, 0x90815D07), (64, 0x1234567892803000),
      (64, 0x0000001098817400), (64, 0x000000109A803A07), (64, 0x00000004A0817C87),
      (32, 0xA28007FC), (32, 0xB0816801), (32, 0xB2815000), (64, 0xFFFFFFF0C0801400),
      (32, 0xC2815D07), (64, 0x12345678C8803000), (64, 0x00000010CA817400)] = [
      some (.ldob (.disp 0x12345678) 16), some (.stob 16 (.baseDisp 5 0x10)),
      some (.bx (.indexDisp 7 4 0x10)), some (.balx (.baseIndexDisp 5 7 1 4) 16),
      some (.callx (.offset 0x7FC)), some (.ldos (.baseOffset 5 0x801) 16),
      some (.stos 16 (.base 5)), some (.lda (.ipDisp 0xFFFFFFF0) 16),
      some (.ld (.baseIndex 5 7 2) 16), some (.st 16 (.disp 0x12345678)),
      some (.ldl (.baseDisp 5 0x10) 16), some (.stl 16 (.indexDisp 7 4 0x10)),
      some (.ldt (.baseIndexDisp 5 7 1 4) 16), some (.stt 16 (.offset 0x7FC)),
      some (.ldq (.baseOffset 5 0x801) 16), some (.stq 16 (.base 5)),
      some (.ldib (.ipDisp 0xFFFFFFF0) 16), some (.stib 16 (.baseIndex 5 7 2)),
      some (.ldis (.disp 0x12345678) 16), some (.stis 16 (.baseDisp 5 0x10))] := by
  decide

/-- R170 to R172, R280, R340, R620, R740: one word of every reserved kind is refused by its name. -/
theorem test_reserved :
    [0x00000100, 0x0C000100, 0x08000101, 0x28000000, 0x32190009, 0x59314484, 0x5A014784,
      0x68314004, 0x79314284, 0x7A314284, 0x8C315800, 0x81300000].map
        (fun w => (decode (tableBytes 32 w)).toOption) = List.replicate 12 none ∧
      [0x00000100, 0x0C000100, 0x08000101, 0x28000000, 0x32190009, 0x59314484, 0x68314004,
        0x79314284, 0x8C315800, 0x81300000].map
        (fun w => match decode (tableBytes 32 w) with | .ok _ => none | .error e => some e) =
      [some .ctrlReservedOpcode, some .ctrlReservedOpcode, some .ctrlReservedBit,
        some .cobrReservedOpcode, some .cobrReservedBit, some .regUnnamed, some .fpu, some .fpu,
        some .memMode6, some .memUnnamed] := by
  decide

/-! ### One step -/

/-- The state after reset at 0x6000 with an instruction there, AC, registers and memory words. -/
def start (w : Nat) (ac : Word) (regs : List (Reg × Word)) (mem : List (Word × Word)) : State :=
  let s := ((State.reset.setIp 0x6000).withFetchWord 64 w).setAc ac
  let t := regs.foldl (fun t p => t.setReg p.1 p.2) s
  mem.foldl (fun t p => t.setMem (t.mem.store p.1 .word p.2)) t

/-- The registers and memory words asked for, AC and ip after one step from `start`. -/
def ran (w : Nat) (ac : Word) (regs : List (Reg × Word)) (mem : List (Word × Word))
    (rs : List Reg) (ms : List Word) : Option (List Word × List Word × Word × Word) :=
  match step (start w ac regs mem) with
  | .next t => some (rs.map t.reg, ms.map fun a => t.mem.load a .word, t.ac, t.ip)
  | _ => none

/-- Every pair has two equal sides. -/
def agree (l : List (Option (List Word × List Word × Word × Word) ×
    Option (List Word × List Word × Word × Word))) : Bool := l.all fun p => p.1 == p.2

/-- Vectors V1, V2, V8, V9, V10, V11, V12, V13, V14, V15, V16, V18 of spec/95_test_vectors.md. -/
theorem test_ctrl_1 :
    agree [
      (ran 0x08000100 0 [] [] [] [], some ([], [], 0, 0x6100)),
      (ran 0x08FFFFF8 0 [] [] [] [], some ([], [], 0, 0x5FF8)),
      (ran 0x0B000040 0 [] [] [30] [], some ([0x6004], [], 0, 0x6040)),
      (ran 0x10000040 0 [] [] [] [], some ([], [], 0, 0x6040)),
      (ran 0x10000040 2 [] [] [] [], some ([], [], 2, 0x6004)),
      (ran 0x12000040 2 [] [] [] [], some ([], [], 2, 0x6040)),
      (ran 0x12000040 4 [] [] [] [], some ([], [], 4, 0x6004)),
      (ran 0x15000040 2 [] [] [] [], some ([], [], 2, 0x6004)),
      (ran 0x13000040 1 [] [] [] [], some ([], [], 1, 0x6040)),
      (ran 0x17000040 0 [] [] [] [], some ([], [], 0, 0x6004)),
      (ran 0x17000040 7 [] [] [] [], some ([], [], 7, 0x6040)),
      (ran 0x1A000000 1 [] [] [] [], some ([], [], 1, 0x6004))] = true := by
  decide

/-- Vectors V20, V21, V22 of spec/95_test_vectors.md. -/
theorem test_ctrl_2 :
    agree [
      (ran 0x09000100 0 [(1, 0x1040), (4, 0x44), (31, 0x1000)]
          [] [0, 1, 2, 31] [0x1004, 0x1008, 0x1010],
        some ([0x1000, 0x1080, 0x6004, 0x1040], [0x1040, 0x6004, 0x44], 0, 0x6100)),
      (ran 0x09000100 0 [(1, 0x1044), (31, 0x1000)] [] [0, 1, 2, 31] [0x1004, 0x1008],
        some ([0x1000, 0x10C0, 0x6004, 0x1080], [0x1044, 0x6004], 0, 0x6100)),
      (ran 0x0A000000 0 [(0, 0x1000), (1, 0x1080), (31, 0x1040)]
          [(0x1000, 0xFC0), (0x1004, 0x1000), (0x1008, 0x7000), (0x1010, 0x12345678)]
          [0, 1, 2, 4, 31] [],
        some ([0xFC0, 0x1000, 0x7000, 0x12345678, 0x1000], [], 0, 0x7000))] = true := by
  decide

/-- Vectors V24, V25, V26, V27, V28, V29, V30, V31, V32, V33, V34, V35 of
spec/95_test_vectors.md. -/
theorem test_cobr_1 :
    agree [
      (ran 0x21200000 1 [(4, 7)] [] [4] [], some ([1], [], 1, 0x6004)),
      (ran 0x21200000 2 [(4, 7)] [] [4] [], some ([0], [], 2, 0x6004)),
      (ran 0x20200000 0 [] [] [4] [], some ([1], [], 0, 0x6004)),
      (ran 0x27200000 0 [(4, 7)] [] [4] [], some ([0], [], 0, 0x6004)),
      (ran 0x34190040 0 [(3, 0xFFFFFFFF), (4, 1)] [] [] [], some ([], [], 1, 0x6004)),
      (ran 0x3C190040 0 [(3, 0xFFFFFFFF), (4, 1)] [] [] [], some ([], [], 4, 0x6040)),
      (ran 0x32293000 0 [(4, 5)] [] [] [], some ([], [], 2, 0x5000)),
      (ran 0x32292FFC 0 [(4, 6)] [] [] [], some ([], [], 4, 0x6004)),
      (ran 0x3B190008 0 [(3, 0x80000000), (4, 0x7FFFFFFF)] [] [] [], some ([], [], 4, 0x6004)),
      (ran 0x38190008 0 [(3, 1), (4, 2)] [] [] [], some ([], [], 4, 0x6004)),
      (ran 0x3F190008 0 [(3, 1), (4, 2)] [] [] [], some ([], [], 4, 0x6008)),
      (ran 0x30190020 0 [(3, 5), (4, 0xFFFFFFDF)] [] [] [], some ([], [], 2, 0x6020))] = true := by
  decide

/-- Vectors V36, V37, V38 of spec/95_test_vectors.md. -/
theorem test_cobr_2 :
    agree [
      (ran 0x30190020 0 [(3, 5), (4, 0x20)] [] [] [], some ([], [], 0, 0x6004)),
      (ran 0x37190020 0 [(3, 0x25), (4, 0x20)] [] [] [], some ([], [], 2, 0x6020)),
      (ran 0x37F92020 0 [(4, 0x80000000)] [] [] [], some ([], [], 2, 0x6020))] = true := by
  decide

/-- Vectors V42, V43, V44, V45, V46, V47, V49, V50, V51, V52, V53, V54 of
spec/95_test_vectors.md. -/
theorem test_logic_1 :
    agree [
      (ran 0x58314004 0 [(4, 0x25), (5, 0x12345678)] [] [6] [],
        some ([0x12345658], [], 0, 0x6004)),
      (ran 0x58314084 0 [(4, 0x25), (5, 0x12345678)] [] [6] [], some ([0x20], [], 0, 0x6004)),
      (ran 0x58314104 0 [(4, 0x25), (5, 0x12345678)] [] [6] [],
        some ([0x12345658], [], 0, 0x6004)),
      (ran 0x58314184 0 [(4, 0x25), (5, 0x12345678)] [] [6] [],
        some ([0x12345678], [], 0, 0x6004)),
      (ran 0x58314204 0 [(4, 0x25), (5, 0x12345678)] [] [6] [], some ([5], [], 0, 0x6004)),
      (ran 0x58314284 0 [(4, 0x25), (5, 0x12345678)] [] [6] [], some ([5], [], 0, 0x6004)),
      (ran 0x58314304 0 [(4, 0x25), (5, 0x12345678)] [] [6] [],
        some ([0x1234565D], [], 0, 0x6004)),
      (ran 0x58314384 0 [(4, 0x25), (5, 0x12345678)] [] [6] [],
        some ([0x1234567D], [], 0, 0x6004)),
      (ran 0x58314404 0 [(4, 0x25), (5, 0x12345678)] [] [6] [],
        some ([0xEDCBA982], [], 0, 0x6004)),
      (ran 0x58314484 0 [(4, 0x25), (5, 0x12345678)] [] [6] [],
        some ([0xEDCBA9A2], [], 0, 0x6004)),
      (ran 0x58314504 0 [(4, 0x25), (5, 0x12345678)] [] [6] [],
        some ([0xFFFFFFDA], [], 0, 0x6004)),
      (ran 0x58314584 0 [(4, 0x25), (5, 0x12345678)] [] [6] [],
        some ([0xFFFFFFFA], [], 0, 0x6004))] = true := by
  decide

/-- Vectors V55, V56, V57, V58, V59, V60, V61, V62 of spec/95_test_vectors.md. -/
theorem test_logic_2 :
    agree [
      (ran 0x58314604 0 [(4, 0x25), (5, 0x12345678)] [] [6] [],
        some ([0x12345658], [], 0, 0x6004)),
      (ran 0x58314684 0 [(4, 0x25), (5, 0x12345678)] [] [6] [],
        some ([0xEDCBA9A7], [], 0, 0x6004)),
      (ran 0x58314704 0 [(4, 0x25), (5, 0x12345678)] [] [6] [],
        some ([0xFFFFFFDF], [], 0, 0x6004)),
      (ran 0x58314784 2 [(4, 0x25), (5, 0x12345678)] [] [6] [],
        some ([0x12345678], [], 2, 0x6004)),
      (ran 0x58314784 0 [(4, 0x25), (5, 0x12345678)] [] [6] [],
        some ([0x12345658], [], 0, 0x6004)),
      (ran 0x5831499F 0 [(5, 0)] [] [6] [], some ([0x80000000], [], 0, 0x6004)),
      (ran 0x5831D084 0 [(4, 0xFFFFFFFE)] [] [6] [], some ([6], [], 0, 0x6004)),
      (ran 0x58210304 0 [(4, 0xDEADBEEF), (6, 0xDDDDDDDD)] [] [4, 6] [],
        some ([0, 0xDDDDDDDD], [], 0, 0x6004))] = true := by
  decide

/-- Vectors V63, V64, V66, V67, V68, V70, V71, V72, V74, V75, V77, V78 of
spec/95_test_vectors.md. -/
theorem test_arith_1 :
    agree [
      (ran 0x59314004 0 [(4, 0xFFFFFFFF), (5, 2)] [] [6] [], some ([1], [], 0, 0x6004)),
      (ran 0x59314084 0 [(4, 0xFFFFFFFF), (5, 2)] [] [6] [], some ([1], [], 0, 0x6004)),
      (ran 0x59314084 0x1000 [(4, 0x80000000), (5, 0x80000000)] [] [6] [],
        some ([0], [], 0x1100, 0x6004)),
      (ran 0x59314104 0 [(4, 3), (5, 1)] [] [6] [], some ([0xFFFFFFFE], [], 0, 0x6004)),
      (ran 0x59314184 0 [(4, 3), (5, 1)] [] [6] [], some ([0xFFFFFFFE], [], 0, 0x6004)),
      (ran 0x59314184 0x1100 [(4, 1), (5, 0x80000000)] [] [6] [],
        some ([0x7FFFFFFF], [], 0x1100, 0x6004)),
      (ran 0x5B314004 2 [(4, 0xFFFFFFFF), (5, 0)] [] [6] [], some ([0], [], 2, 0x6004)),
      (ran 0x5B314004 2 [(4, 0x7FFFFFFF), (5, 0)] [] [6] [], some ([0x80000000], [], 1, 0x6004)),
      (ran 0x5B314104 2 [(4, 1), (5, 3)] [] [6] [], some ([2], [], 2, 0x6004)),
      (ran 0x5B314104 0 [(4, 1), (5, 3)] [] [6] [], some ([1], [], 2, 0x6004)),
      (ran 0x59314404 0 [(4, 4), (5, 0x80000000)] [] [6] [], some ([0x8000000], [], 0, 0x6004)),
      (ran 0x59314404 0 [(4, 0x20), (5, 0xFFFFFFFF)] [] [6] [], some ([0], [], 0, 0x6004))] = true := by
  decide

/-- Vectors V79, V80, V82, V83, V84, V85, V86, V87, V88, V90 of spec/95_test_vectors.md. -/
theorem test_arith_2 :
    agree [
      (ran 0x59314504 0 [(4, 1), (5, 0xFFFFFFF9)] [] [6] [], some ([0xFFFFFFFD], [], 0, 0x6004)),
      (ran 0x59314504 0 [(4, 2), (5, 0xFFFFFFF8)] [] [6] [], some ([0xFFFFFFFE], [], 0, 0x6004)),
      (ran 0x59314584 0 [(4, 1), (5, 0xFFFFFFF9)] [] [6] [], some ([0xFFFFFFFC], [], 0, 0x6004)),
      (ran 0x59314584 0 [(4, 0x64), (5, 0x80000000)] [] [6] [],
        some ([0xFFFFFFFF], [], 0, 0x6004)),
      (ran 0x59314604 0 [(4, 0x1F), (5, 3)] [] [6] [], some ([0x80000000], [], 0, 0x6004)),
      (ran 0x59314604 0 [(4, 0x20), (5, 3)] [] [6] [], some ([0], [], 0, 0x6004)),
      (ran 0x59314684 0 [(4, 4), (5, 0x12345678)] [] [6] [], some ([0x23456781], [], 0, 0x6004)),
      (ran 0x59314684 0 [(4, 0x24), (5, 0x12345678)] [] [6] [],
        some ([0x23456781], [], 0, 0x6004)),
      (ran 0x59314704 0 [(4, 1), (5, 0xC0000000)] [] [6] [], some ([0x80000000], [], 0, 0x6004)),
      (ran 0x59314704 0 [(4, 0x20), (5, 0)] [] [6] [], some ([0], [], 0, 0x6004))] = true := by
  decide

/-- Vectors V93, V94, V95, V96, V97, V98, V99, V100, V101, V103, V104, V105 of
spec/95_test_vectors.md. -/
theorem test_compare_1 :
    agree [
      (ran 0x59014204 0 [(4, 0x1FF), (5, 0x201), (6, 0xDDDDDDDD)] [] [6] [],
        some ([0xDDDDDDDD], [], 1, 0x6004)),
      (ran 0x59014284 0 [(4, 0x1FF), (5, 0x201), (6, 0xDDDDDDDD)] [] [6] [],
        some ([0xDDDDDDDD], [], 4, 0x6004)),
      (ran 0x59014304 0 [(4, 0x1FFFF), (5, 0x8000), (6, 0xDDDDDDDD)] [] [6] [],
        some ([0xDDDDDDDD], [], 1, 0x6004)),
      (ran 0x59014384 0 [(4, 0x1FFFF), (5, 0x8000), (6, 0xDDDDDDDD)] [] [6] [],
        some ([0xDDDDDDDD], [], 1, 0x6004)),
      (ran 0x5A014004 0x1000 [(4, 0xFFFFFFFF), (5, 1), (6, 0xDDDDDDDD)] [] [6] [],
        some ([0xDDDDDDDD], [], 0x1001, 0x6004)),
      (ran 0x5A014084 0x1000 [(4, 0xFFFFFFFF), (5, 1), (6, 0xDDDDDDDD)] [] [6] [],
        some ([0xDDDDDDDD], [], 0x1004, 0x6004)),
      (ran 0x5A010084 7 [(4, 0x12345678), (6, 0xDDDDDDDD)] [] [6] [],
        some ([0xDDDDDDDD], [], 2, 0x6004)),
      (ran 0x5A014104 4 [(4, 1), (5, 2), (6, 0xDDDDDDDD)] [] [6] [],
        some ([0xDDDDDDDD], [], 4, 0x6004)),
      (ran 0x5A014104 1 [(4, 1), (5, 2), (6, 0xDDDDDDDD)] [] [6] [],
        some ([0xDDDDDDDD], [], 2, 0x6004)),
      (ran 0x5A014184 1 [(4, 0xFFFFFFFF), (5, 0), (6, 0xDDDDDDDD)] [] [6] [],
        some ([0xDDDDDDDD], [], 2, 0x6004)),
      (ran 0x5A314204 0 [(4, 3), (5, 0xFFFFFFFF)] [] [6] [], some ([0], [], 4, 0x6004)),
      (ran 0x5A314284 0 [(4, 3), (5, 0x7FFFFFFF)] [] [6] [], some ([0x80000000], [], 4, 0x6004))] = true := by
  decide

/-- Vectors V106, V107, V108, V109, V110, V111, V112 of spec/95_test_vectors.md. -/
theorem test_compare_2 :
    agree [
      (ran 0x5A314304 0 [(4, 3), (5, 0)] [] [6] [], some ([0xFFFFFFFF], [], 1, 0x6004)),
      (ran 0x5A314384 0 [(4, 3), (5, 0x80000000)] [] [6] [], some ([0x7FFFFFFF], [], 1, 0x6004)),
      (ran 0x5A014604 0 [(4, 0x11223344), (5, 0x55663377), (6, 0xDDDDDDDD)] [] [6] [],
        some ([0xDDDDDDDD], [], 2, 0x6004)),
      (ran 0x5A014604 2 [(4, 0x11223344), (5, 0x44332211), (6, 0xDDDDDDDD)] [] [6] [],
        some ([0xDDDDDDDD], [], 0, 0x6004)),
      (ran 0x5A300684 0 [(4, 0x11223344)] [] [6] [], some ([0x44332211], [], 0, 0x6004)),
      (ran 0x5A014704 0 [(4, 0x25), (5, 0x20), (6, 0xDDDDDDDD)] [] [6] [],
        some ([0xDDDDDDDD], [], 2, 0x6004)),
      (ran 0x5A014704 2 [(4, 4), (5, 0x20), (6, 0xDDDDDDDD)] [] [6] [],
        some ([0xDDDDDDDD], [], 0, 0x6004))] = true := by
  decide

/-- Vectors V114, V115, V116, V119, V120, V123, V124, V125, V126 of spec/95_test_vectors.md. -/
theorem test_move :
    agree [
      (ran 0x5C300604 0 [(4, 0xCAFEF00D)] [] [6] [], some ([0xCAFEF00D], [], 0, 0x6004)),
      (ran 0x5C300E11 0 [] [] [6] [], some ([0x11], [], 0, 0x6004)),
      (ran 0x5D300604 0 [(4, 0x11), (5, 0x22)] [] [6, 7] [], some ([0x11, 0x22], [], 0, 0x6004)),
      (ran 0x5E600608 0 [(8, 1), (9, 2), (10, 3), (11, 4)] [] [12, 13, 14] [],
        some ([1, 2, 3], [], 0, 0x6004)),
      (ran 0x5F800608 0 [(8, 1), (9, 2), (10, 3), (11, 4)] [] [16, 17, 18, 19] [],
        some ([1, 2, 3, 4], [], 0, 0x6004)),
      (ran 0x5D418404 0 [(4, 4), (6, 0x89ABCDEF), (7, 0x1234567)] [] [8] [],
        some ([0x789ABCDE], [], 0, 0x6004)),
      (ran 0x5D418404 0 [(4, 0x24), (6, 0x89ABCDEF), (7, 0x1234567)] [] [8] [],
        some ([0x789ABCDE], [], 0, 0x6004)),
      (ran 0x61290003 0 [(3, 0x2002), (4, 0xF0F0F0F), (5, 0xAAAAAAAA)]
          [(0x2000, 0xA5A5A5A5)] [5] [0x2000],
        some ([0xA5A5A5A5], [0xAAAAAAAA], 0, 0x6004)),
      (ran 0x61290103 0 [(3, 0x2000), (4, 0xFFFFFFFF)] [(0x2000, 0)] [] [0x2000],
        some ([], [0xFFFFFFFF], 0, 0x6004))] = true := by
  decide

/-- Vectors V127, V128, V129, V130, V131, V132, V133, V134, V135, V145, V146, V147 of
spec/95_test_vectors.md. -/
theorem test_control_1 :
    agree [
      (ran 0x64300004 0 [(4, 0xFFFF0FFF)] [] [6] [], some ([0xF], [], 2, 0x6004)),
      (ran 0x64300004 2 [(4, 0xFFFFFFFF)] [] [6] [], some ([0xFFFFFFFF], [], 0, 0x6004)),
      (ran 0x64300084 0 [(4, 1)] [] [6] [], some ([0], [], 2, 0x6004)),
      (ran 0x64300084 0 [(4, 0)] [] [6] [], some ([0xFFFFFFFF], [], 0, 0x6004)),
      (ran 0x64314284 0x8104 [(4, 0x1007), (5, 0x1002)] [] [6] [],
        some ([0x8104], [], 0x9102, 0x6004)),
      (ran 0x64314284 0x1102 [(4, 0), (5, 0xFFFFFFFF)] [] [6] [],
        some ([0x1102], [], 0x1102, 0x6004)),
      (ran 0x65314004 0 [(4, 0xFF00), (5, 0x12345678), (6, 0xAAAAAAAA)] [] [6] [],
        some ([0xAAAA56AA], [], 0, 0x6004)),
      (ran 0x65314084 0 [(4, 8), (5, 4), (6, 0x12345678)] [] [6] [], some ([6], [], 0, 0x6004)),
      (ran 0x65314084 0 [(4, 8), (5, 0), (6, 0x12345678)] [] [6] [], some ([0], [], 0, 0x6004)),
      (ran 0x66000580 0 [(6, 0xDDDDDDDD)] [] [6] [], some ([0xDDDDDDDD], [], 0, 0x6004)),
      (ran 0x66000600 0 [(6, 0xDDDDDDDD)] [] [6] [], some ([0xDDDDDDDD], [], 0, 0x6004)),
      (ran 0x66000680 0 [(6, 0xDDDDDDDD)] [] [6] [], some ([0xDDDDDDDD], [], 0, 0x6004))] = true := by
  decide

/-- Vectors V148 of spec/95_test_vectors.md. -/
theorem test_control_2 :
    agree [
      (ran 0x66000780 0 [(6, 0xDDDDDDDD)] [] [6] [], some ([0xDDDDDDDD], [], 0, 0x6004))] = true := by
  decide

/-- Vectors V152, V153, V157, V158, V159, V161, V163, V164, V165, V166, V167, V169 of
spec/95_test_vectors.md. -/
theorem test_muldiv_cond_1 :
    agree [
      (ran 0x67414004 0 [(4, 0xFFFFFFFF), (5, 0xFFFFFFFF), (6, 0xDDDDDDDD)] [] [8, 9, 6] [],
        some ([1, 0xFFFFFFFE, 0xDDDDDDDD], [], 0, 0x6004)),
      (ran 0x67418084 0 [(4, 0xA), (6, 7), (7, 1)] [] [8, 9] [],
        some ([3, 0x1999999A], [], 0, 0x6004)),
      (ran 0x70314084 0 [(4, 0x10000), (5, 0x10001)] [] [6] [], some ([0x10000], [], 0, 0x6004)),
      (ran 0x70314404 0 [(4, 3), (5, 0xA)] [] [6] [], some ([1], [], 0, 0x6004)),
      (ran 0x70314584 0 [(4, 3), (5, 0xA)] [] [6] [], some ([3], [], 0, 0x6004)),
      (ran 0x74314084 0 [(4, 0xFFFFFFFE), (5, 3)] [] [6] [], some ([0xFFFFFFFA], [], 0, 0x6004)),
      (ran 0x74314404 0 [(4, 3), (5, 0xFFFFFFF9)] [] [6] [], some ([0xFFFFFFFF], [], 0, 0x6004)),
      (ran 0x74314404 0 [(4, 0xFFFFFFFF), (5, 0x80000000)] [] [6] [], some ([0], [], 0, 0x6004)),
      (ran 0x74314484 0 [(4, 3), (5, 0xFFFFFFF9)] [] [6] [], some ([2], [], 0, 0x6004)),
      (ran 0x74314484 0 [(4, 0xFFFFFFFD), (5, 7)] [] [6] [], some ([0xFFFFFFFE], [], 0, 0x6004)),
      (ran 0x74314584 0 [(4, 2), (5, 0xFFFFFFF9)] [] [6] [], some ([0xFFFFFFFD], [], 0, 0x6004)),
      (ran 0x74314584 0x1000 [(4, 0xFFFFFFFF), (5, 0x80000000)] [] [6] [],
        some ([0x80000000], [], 0x1100, 0x6004))] = true := by
  decide

/-- Vectors V171, V172, V174, V175, V176, V177, V178, V179 of spec/95_test_vectors.md. -/
theorem test_muldiv_cond_2 :
    agree [
      (ran 0x79314004 1 [(4, 1), (5, 2), (6, 0x99)] [] [6] [], some ([3], [], 1, 0x6004)),
      (ran 0x79314004 2 [(4, 1), (5, 2), (6, 0x99)] [] [] [], some ([], [], 2, 0x6004)),
      (ran 0x7A314084 4 [(4, 0x7FFFFFFF), (5, 1), (6, 0xDDDDDDDD)] [] [6] [],
        some ([0xDDDDDDDD], [], 4, 0x6004)),
      (ran 0x7E314104 4 [(4, 1), (5, 5)] [] [6] [], some ([4], [], 4, 0x6004)),
      (ran 0x78314184 0 [(4, 1), (5, 5)] [] [6] [], some ([4], [], 0, 0x6004)),
      (ran 0x7D314204 1 [(4, 0xA), (5, 0xB)] [] [6] [], some ([0xB], [], 1, 0x6004)),
      (ran 0x7D314204 2 [(4, 0xA), (5, 0xB)] [] [6] [], some ([0xA], [], 2, 0x6004)),
      (ran 0x78314204 0 [(4, 0xA), (5, 0xB)] [] [6] [], some ([0xB], [], 0, 0x6004))] = true := by
  decide

/-- Vectors V182, V183, V196, V197, V198, V199, V200, V201, V202, V203, V204, V205 of
spec/95_test_vectors.md. -/
theorem test_mem_1 :
    agree [
      (ran 0x8C300FFF 0 [] [] [6] [], some ([0xFFF], [], 0, 0x6004)),
      (ran 0x8C316010 0 [(5, 0x1000)] [] [6] [], some ([0x1010], [], 0, 0x6004)),
      (ran 0x84015000 0 [(5, 0x7000)] [] [] [], some ([], [], 0, 0x7000)),
      (ran 0x85300200 0 [] [] [6] [], some ([0x6004], [], 0, 0x200)),
      (ran 0x0000800085303000 0 [] [] [6] [], some ([0x6008], [], 0, 0x8000)),
      (ran 0x86015000 0 [(1, 0x2000), (5, 0x7000), (6, 0xDDDDDDDD), (31, 0x1F00)]
          [] [0, 1, 2, 31] [0x1F04, 0x1F08, 0x1F14, 0x1F18],
        some ([0x1F00, 0x2040, 0x6004, 0x2000], [0x2000, 0x6004, 0x7000, 0xDDDDDDDD], 0, 0x7000)),
      (ran 0x80315000 0 [(5, 0x1000)]
          [(0x1000, 0xF2E380C1), (0x1004, 0x11111111), (0x1008, 0x22222222), (0x100C, 0x33333333)]
          [6] [],
        some ([0xC1], [], 0, 0x6004)),
      (ran 0xC0315000 0 [(5, 0x1000)]
          [(0x1000, 0xF2E380C1), (0x1004, 0x11111111), (0x1008, 0x22222222), (0x100C, 0x33333333)]
          [6] [],
        some ([0xFFFFFFC1], [], 0, 0x6004)),
      (ran 0x88316002 0 [(5, 0x1000)]
          [(0x1000, 0xF2E380C1), (0x1004, 0x11111111), (0x1008, 0x22222222), (0x100C, 0x33333333)]
          [6] [],
        some ([0xF2E3], [], 0, 0x6004)),
      (ran 0xC8316002 0 [(5, 0x1000)]
          [(0x1000, 0xF2E380C1), (0x1004, 0x11111111), (0x1008, 0x22222222), (0x100C, 0x33333333)]
          [6] [],
        some ([0xFFFFF2E3], [], 0, 0x6004)),
      (ran 0x90315000 0 [(5, 0x1000)]
          [(0x1000, 0xF2E380C1), (0x1004, 0x11111111), (0x1008, 0x22222222), (0x100C, 0x33333333)]
          [6] [],
        some ([0xF2E380C1], [], 0, 0x6004)),
      (ran 0x90316001 0 [(5, 0x1000)]
          [(0x1000, 0xF2E380C1), (0x1004, 0x11111111), (0x1008, 0x22222222), (0x100C, 0x33333333)]
          [6] [],
        some ([0x11F2E380], [], 0, 0x6004))] = true := by
  decide

/-- Vectors V206, V208, V209, V211, V212, V213, V215, V217, V218, V219, V220 of
spec/95_test_vectors.md. -/
theorem test_mem_2 :
    agree [
      (ran 0x98415000 0 [(5, 0x1000)]
          [(0x1000, 0xF2E380C1), (0x1004, 0x11111111), (0x1008, 0x22222222), (0x100C, 0x33333333)]
          [8, 9] [],
        some ([0xF2E380C1, 0x11111111], [], 0, 0x6004)),
      (ran 0xA0415000 0 [(5, 0x1000)]
          [(0x1000, 0xF2E380C1), (0x1004, 0x11111111), (0x1008, 0x22222222), (0x100C, 0x33333333)]
          [8, 9, 10] [],
        some ([0xF2E380C1, 0x11111111, 0x22222222], [], 0, 0x6004)),
      (ran 0xB0415000 0 [(5, 0x1000)]
          [(0x1000, 0xF2E380C1), (0x1004, 0x11111111), (0x1008, 0x22222222), (0x100C, 0x33333333)]
          [8, 9, 10, 11] [],
        some ([0xF2E380C1, 0x11111111, 0x22222222, 0x33333333], [], 0, 0x6004)),
      (ran 0x82316003 0 [(5, 0x1000), (6, 0x12345678)] [(0x1000, 0)] [] [0x1000],
        some ([], [0x78000000], 0, 0x6004)),
      (ran 0x8A316002 0 [(5, 0x1000), (6, 0x12345678)] [(0x1000, 0)] [] [0x1000],
        some ([], [0x56780000], 0, 0x6004)),
      (ran 0xC2315000 0 [(5, 0x1000), (6, 0xFFFFFF80)] [(0x1000, 0)] [] [0x1000],
        some ([], [0x80], 0, 0x6004)),
      (ran 0xC2315000 0x1000 [(5, 0x1000), (6, 0x80)] [(0x1000, 0)] [] [0x1000],
        some ([], [0x80], 0x1100, 0x6004)),
      (ran 0x92315000 0 [(5, 0x1000), (6, 0xCAFEF00D)] [] [] [0x1000],
        some ([], [0xCAFEF00D], 0, 0x6004)),
      (ran 0x9A415000 0 [(5, 0x1000), (8, 1), (9, 2)] [] [] [0x1000, 0x1004],
        some ([], [1, 2], 0, 0x6004)),
      (ran 0xA2415000 0 [(5, 0x1000), (8, 1), (9, 2), (10, 3)] [] [] [0x1000, 0x1004, 0x1008],
        some ([], [1, 2, 3], 0, 0x6004)),
      (ran 0xB2415000 0 [(5, 0x1000), (8, 1), (9, 2), (10, 3), (11, 4)]
          [] [] [0x1000, 0x1004, 0x1008, 0x100C],
        some ([], [1, 2, 3, 4], 0, 0x6004))] = true := by
  decide

/-- Scenario S3 and vectors V125 and V126: the address loses its low two bits. -/
theorem test_atomics :
    agree [
      (ran 0x61290003 0 [(3, 0x2000), (4, 0x0F0F0F0F), (5, 0x12345678)] [(0x2000, 0xAAAAAAAA)]
          [5] [0x2000],
        some ([0xAAAAAAAA], [0xA2A4A6A8], 0, 0x6004)),
      (ran 0x61290003 0 [(3, 0x2002), (4, 0x0F0F0F0F), (5, 0xAAAAAAAA)] [(0x2000, 0xA5A5A5A5)]
          [5] [0x2000],
        some ([0xA5A5A5A5], [0xAAAAAAAA], 0, 0x6004)),
      (ran 0x61290103 0 [(3, 0x2000), (4, 0xFFFFFFFF)] [] [5] [0x2000],
        some ([0], [0xFFFFFFFF], 0, 0x6004))] = true := by
  decide

/-- The fault, the instruction's address, and ip and r6 of the state left. -/
def faulted (s : State) : Option (FaultType × Word × Word × Word) :=
  match step s with
  | .fault (.raised e p u) => some (e, p, u.ip, u.reg 6)
  | _ => none

/-- Why a step is refused. -/
def refusal (s : State) : Option Refusal :=
  match step s with
  | .refused r => some r
  | _ => none

/-- Every open parameter at the value that is not the spec's default. -/
def others : Params := { filler585 := .xor, misalignedData := .refuse, overflowWrite := .unchanged }

/-- Vectors V5, V17, V138, V142, V154, V160, V170, V195 of spec/95_test_vectors.md. -/
theorem test_faults :
    [start 0x08000101 0 [] [], start 0x1A000000 2 [] [], start 0x65314280 0 [(5, 2), (6, 2)] [],
      start 0x5B000280 0 [] [], start 0x67418084 0 [(6, 7)] [], start 0x70314584 0 [(5, 10)] [],
      start 0x74314584 0 [(5, 1)] [], start 0x81303000 0 [] []].map faulted =
      [some (.invalidOpcode, 0x6000, 0x6004, 0), some (.constraintRange, 0x6000, 0x6004, 0),
        some (.typeMismatch, 0x6000, 0x6004, 2), some (.typeMismatch, 0x6000, 0x6004, 0),
        some (.divisionByZero, 0x6000, 0x6004, 7), some (.divisionByZero, 0x6000, 0x6004, 0),
        some (.divisionByZero, 0x6000, 0x6004, 0), some (.invalidOpcode, 0x6000, 0x6008, 0)] := by
  decide

/-- Vectors V65, V69, V89, V162, V168 and V173 of spec/95_test_vectors.md, under each value of
OverflowWrite. -/
theorem test_overflow :
    (let l := [start 0x59314084 0 [(4, 0x80000000), (5, 0x80000000), (6, 7)] [],
      start 0x59314184 0 [(4, 1), (5, 0x80000000), (6, 7)] [],
      start 0x59314704 0 [(4, 1), (5, 0x40000000), (6, 7)] [],
      start 0x74314084 0 [(4, 0x10000), (5, 0x8000), (6, 7)] [],
      start 0x74314584 0 [(4, 0xFFFFFFFF), (5, 0x80000000), (6, 7)] [],
      start 0x7A314084 2 [(4, 0x7FFFFFFF), (5, 1), (6, 7)] []]
     l.map faulted ++ l.map fun s => faulted { s with params := others }) =
      [0, 0x7FFFFFFF, 0x80000000, 0x80000000, 0x80000000, 0x80000000, 7, 7, 7, 7, 7, 7].map fun v =>
        some (.integerOverflow, 0x6000, 0x6004, v) := by
  decide

/-- Vectors V214 and V216: the bytes are stored before the fault. -/
theorem test_store_overflow :
    [start 0xC2315000 0 [(5, 0x1000), (6, 0x80)] [],
      start 0xCA315000 0 [(5, 0x1000), (6, 0xFFFF7FFF)] []].map (fun s => match step s with
        | .fault (.raised e _ u) => some (e, u.mem.load 0x1000 .word, u.ac)
        | _ => none) =
      [some (.integerOverflow, 0x80, 0), some (.integerOverflow, 0x7FFF, 0)] := by
  decide

/-- Vectors V23, V117, V118, V121, V151, V155, V156, V207, V210, V221, V222, V227 and V228. -/
theorem test_refusals :
    [start 0x0A000000 0 [(0, 0x1001)] [], start 0x5D300605 0 [] [], start 0x5D300E03 0 [] [],
      start 0x5F500608 0 [] [], start 0x67394004 0 [] [], start 0x67418084 0 [(4, 1), (7, 1)] [],
      start 0x6741C084 0 [] [], start 0x98495000 0 [] [], start 0xB0515000 0 [] [],
      start 0xB2495000 0 [] [], (start 0x08000100 0 [] []).setIp 0x6002, start 0x67498084 0 [] [],
      start 0x5D380E03 0 [] []].map refusal =
      [Refusal.retVariant, .unalignedGroup, .literalGroup, .unalignedGroup, .unalignedGroup,
        .edivQuotientOverflow, .unalignedGroup, .unalignedGroup, .unalignedGroup, .unalignedGroup,
        .unalignedFetch, .unalignedGroup, .literalGroup].map some := by
  decide

/-- R90 and R356: a misaligned `ld` under `refuse`, and vector V48. -/
theorem test_other_parameters :
    refusal { start 0x90316001 0 [(5, 0x1000)] [] with params := others } = some .misalignedData ∧
      (match step { start 0x58314284 0 [(4, 0x25), (5, 0x12345678)] [] with params := others } with
        | .next t => t.reg 6
        | _ => 0) = 0x1234565D := by
  decide

/-- Vectors V136, V139, V140, V141: TC, PC and ICON. -/
theorem test_controls :
    (match step ((start 0x65314204 0 [(4, 0xFF), (5, 0x12345678)] []).setTc 0xAAAAAAAA) with
      | .next t => (t.reg 6, t.tc) | _ => (0, 0)) = (0xAAAAAAAA, 0xAAAAAA78) ∧
    (match step ((start 0x65314280 0 [(5, 0x1F0002), (6, 0x100000)] []).setPc 3) with
      | .next t => (t.reg 6, t.pc) | _ => (0, 0)) = (3, 0x100001) ∧
    [(0x5B000200, (0x12345 : Word)), (0x5B000280, 0x12745)].map (fun p =>
      match step ((start p.1 0 [] [(0xFF008510, p.2)]).setPc 2) with
      | .next t => t.mem.load 0xFF008510 .word | _ => 0) = [0x12745, 0x12345] := by
  decide

/-- Vectors V143 and V144: the vector at the supervisor-call port. -/
theorem test_calls :
    [start 0x66000803 0 [] [], start 0x66000004 0 [(4, 0x105)] []].map (fun s => match step s with
      | .next t => (t.callsPort, t.ip) | _ => (none, 0)) =
      [(some 3, 0x6004), (some 0x105, 0x6004)] := by
  decide

/-! ### Witnesses

One for every statement with hypotheses; `witness_<Name>` meets those of `Obligations.<Name>`. -/

/-- A state at 0x6000 with registers r4, r5, r6 and AC. -/
def small (r4 r5 r6 ac : Word) : State := start 0 ac [(4, r4), (5, r5), (6, r6)] []

/-- `small` in supervisor mode. -/
def supervisor (r4 r5 r6 : Word) : State := (small r4 r5 r6 0).setPc 2

/-- For every clause two words that differ in all the bits it lets differ. -/
theorem witness_IgnoredBitsDoNotMatter :
    ([(0x08000100, 0x2), (0x0A000000, 0xFFFFFE), (0x1F000000, 0xFFFFFE), (0x27200000, 0x7FFFE),
      (0x59314084, 0x2060), (0x58314504, 0x7F060), (0x5A014004, 0xF82060), (0x66000803, 0xFFF060),
      (0x5B000280, 0xFFF87F), (0x8C300FFF, 0x7C000), (0x8C315000, 0x3FF), (0x8C301400, 0x7C3FF),
      (0x8C303A07, 0x7C060), (0x8C315D07, 0x60), (0x84015000, 0xF80000)] :
        List (Word × Word)).all (fun p =>
          p.1 &&& ~~~p.2 == (p.1 ^^^ p.2) &&& ~~~p.2 && p.1 != p.1 ^^^ p.2) = true ∧
    [0x58314504, 0x5A014004, 0x66000803, 0x5B000280].map regIndex =
      [0x58A, 0x5A0, 0x660, 0x5B5] ∧
    [0x8C300FFF, 0x8C315000, 0x8C301400, 0x8C303A07, 0x8C315D07].map modeField =
      [0x3, 0x4, 0x5, 0xE, 0x7] := by
  decide

theorem witness_InvalidOpcodesAreExactlyTheReserved :
    [start 0x8C315800 0 [] [], start 0x58314084 0 [] []].map (fun s =>
      decide (s.callsPort = none ∧ s.haltIp ≠ some s.ip ∧ s.ip.toNat % 4 = 0)) = [true, true] ∧
    InvalidWord ((start 0x8C315800 0 [] []).mem.load 0x6000 .word) ∧
    ¬InvalidWord ((start 0x58314084 0 [] []).mem.load 0x6000 .word) := by
  decide

theorem witness_StepRunsTheDecodedInstruction :
    ∃ (s : State) (i : Instr) (rest : List Byte), s.callsPort = none ∧ s.haltIp ≠ some s.ip ∧
      s.ipAligned = true ∧ decode s.fetchBytes = .ok (i, rest) :=
  ⟨start 0x58314084 0 [] [], .and (.reg 4) (.reg 5) 6, [], by decide, by decide, by decide, rfl⟩

theorem witness_EncodedInstructionRuns :
    (let s := start 0x123456788C303000 0 [] []
     let i := Instr.lda (.disp 0x12345678) 6
     s.callsPort = none ∧ s.haltIp ≠ some s.ip ∧ s.ip.toNat % 4 = 0 ∧
       ∀ k (h : k < (encodeBytes i).length),
         s.byteAt (s.ip + BitVec.ofNat 32 k) = (encodeBytes i)[k]) := by
  decide

theorem witness_FetchNeedsAnAlignedIp :
    [(1 : Word), 2, 3, 0xFFFFFFFF].all (fun a =>
      let s := State.reset.setIp a
      s.callsPort == none && s.haltIp != some s.ip && s.ip.toNat % 4 != 0) = true ∧
    (0xFFFFFFFC : Word).toNat % 4 = 0 := by
  decide

theorem witness_StoreIsSeenByTheNextFetch :
    (let s := start 0 0 [(5, 0x6004), (6, 0x58314084)] []
     s.callsPort = none ∧ efa s (.base 5) = s.ip + lengthOf (.st 6 (.base 5)) ∧
       (efa s (.base 5)).toNat % 4 = 0 ∧ s.haltIp ≠ some (efa s (.base 5)) ∧
       encode (.and (.reg 4) (.reg 5) 6) = [s.reg 6]) := by
  decide

theorem witness_RunBoundaries_halt :
    (let s := { State.reset with haltIp := some 0 }
     s.callsPort = none ∧ s.haltIp = some s.ip) := by
  decide

/-- The handler is opaque (log 5), so which of the two answers it gives is not known. -/
theorem witness_RunBoundaries_call :
    (let s := { State.reset with callsPort := some 3 }
     s.callsPort = some 3 ∧
       ((∃ core stores, callsHandler 3 s.core s.mem = .resume core stores) ∨
         ∃ code, callsHandler 3 s.core s.mem = .fault code)) := by
  refine ⟨rfl, ?_⟩
  cases callsHandler 3 _ _ with
  | resume core stores => exact .inl ⟨core, stores, rfl⟩
  | fault code => exact .inr ⟨code, rfl⟩

theorem witness_StepKeepsTheInvariant :
    ∃ s t : State, s.Inv ∧ step s = .next t ∧ s ≠ t :=
  ⟨start 0x92315000 0 [(5, 0x1000), (6, 7)] [], _, ⟨by decide, by decide⟩, rfl, by decide⟩

theorem witness_EveryInstructionKeepsToItsScope :
    ∃ (i : Instr) (s t : State), exec i s = .next t ∧ s.mem ≠ t.mem :=
  ⟨.stq 4 (.base 16), small 1 2 3 0, _, rfl, by decide⟩

theorem witness_OnlyModpcWritesPcAndOnlyInSupervisorMode :
    ∃ (i : Instr) (s t : State), exec i s = .next t ∧ t.pc ≠ s.pc :=
  ⟨.modpc (.lit 0) (.lit 1) 6, supervisor 0 0 1, _, rfl, by decide⟩

theorem witness_SupervisorCheckIsExactlyThePrivileged :
    (small 0 1 0 0).pc.getLsbD 1 = false ∧
      (∀ i ∈ [Instr.intdis, .inten, .modpc (.lit 0) (.reg 5) 6], Privileged (small 0 1 0 0) i) ∧
      ¬Privileged (small 0 0 0 0) (.modpc (.lit 0) (.reg 5) 6) ∧
      ¬(Privileged (supervisor 0 0 0) .inten ∧ (supervisor 0 0 0).pc.getLsbD 1 = false) := by
  refine ⟨by decide, ?_, ?_, by simp +decide [supervisor]⟩
  · simp +decide [Privileged, srcValue]
  · simp +decide [Privileged, srcValue]

theorem witness_OverflowFlagIsSticky_clear :
    ∃ (i : Instr) (s t : State), exec i s = .next t ∧ ofOf s.ac = true ∧ ofOf t.ac = false :=
  ⟨.modac (.reg 4) (.lit 0) 6, small 0x100 0 0 0x100, _, rfl, by decide⟩

theorem witness_OverflowFlagIsSticky_set :
    ∃ (i : Instr) (s t : State), exec i s = .next t ∧ ofOf s.ac = false ∧ ofOf t.ac = true :=
  ⟨.addi (.reg 4) (.lit 1) 6, small 0x7FFFFFFF 0 0 0x1000, _, rfl, by decide⟩

theorem witness_OverflowFlagIsSticky_fault :
    ∃ (i : Instr) (s u : State) (e : FaultType) (p : Word), exec i s = .fault (.raised e p u) :=
  ⟨.addi (.reg 4) (.lit 1) 6, small 0x7FFFFFFF 0 0 0x100, _, _, _, rfl⟩

theorem witness_TraceControlsHaveNoEffect : ∀ a b c, Instr.addo (.lit 1) (.lit 2) 3 ≠ .modtc a b c := by
  simp

theorem witness_StorageOnlyControlBitsHaveNoEffect :
    (∀ a b c, Instr.addo (.lit 1) (.lit 2) 3 ≠ .modpc a b c) ∧
      (0xFFFFFFFD : Word).getLsbD 1 = State.reset.pc.getLsbD 1 ∧
      (∀ a b c, Instr.addo (.lit 1) (.lit 2) 3 ≠ .modac a b c) ∧ 0xFFFFEEF8 &&& 0x1107#32 = 0 := by
  simp +decide

theorem witness_ConditionCodeStaysOneOfTheFourValues :
    ∀ cc ∈ [0#3, 1#3, 2#3, 4#3], ∃ (i : Instr) (s t : State), exec i s = .next t ∧
      (∀ a b c, i ≠ .modac a b c) ∧ (∀ a b c, i ≠ .addc a b c) ∧ (∀ a b c, i ≠ .subc a b c) ∧
      ccOf s.ac = cc := by
  intro cc _
  exact ⟨.cmpo (.lit 1) (.lit 2), small 0 0 0 (withCc 0 cc), _, rfl, by simp, by simp, by simp,
    by revert cc; decide⟩

theorem witness_TransfersByDisplacementStayAligned :
    ∃ (i : Instr) (s t : State), exec i s = .next t ∧ s.ip.toNat % 4 = 0 ∧ i ≠ .ret ∧
      (∀ m, i ≠ .bx m) ∧ (∀ m c, i ≠ .balx m c) ∧ ∀ m, i ≠ .callx m :=
  ⟨.b 0x3FFFFF, small 0 0 0 0, _, rfl, by decide, by decide, by simp, by simp, by simp⟩

theorem witness_FaultsLeaveWhatWasCommitted :
    (∃ (s : State) (p : Word) (u : State), step s = .fault (.raised .invalidOpcode p u)) ∧
    (∃ (s : State) (p : Word) (u : State), step s = .fault (.raised .integerOverflow p u) ∧
      s.params.overflowWrite = .unchanged) ∧
    ∃ (s : State) (p : Word) (u : State), step s = .fault (.raised .integerOverflow p u) ∧
      s.params.overflowWrite = .written :=
  ⟨⟨start 0 0 [] [], _, _, rfl⟩,
    ⟨{ start 0xC2315000 0 [(6, 0x80)] [] with params := others }, _, _, rfl, rfl⟩,
    ⟨start 0xC2315000 0 [(6, 0x80)] [], _, _, rfl, rfl⟩⟩

theorem witness_RefusalsAreTheClosedList :
    exec .ret (State.reset.setReg 0 1) = .refused .retVariant ∧
      exec (.movl (.lit 1) 4) State.reset = .refused .literalGroup ∧
      exec (.movl (.reg 1) 4) State.reset = .refused .unalignedGroup ∧
      exec (.ediv (.lit 1) (.reg 4) 6) (small 0 1 0 0) = .refused .edivQuotientOverflow ∧
      exec (.ld (.offset 1) 4) { State.reset with params := others } = .refused .misalignedData ∧
      exec (.atadd (.lit 1) (.lit 1) 4) State.reset.lock = .fault .stuckOnLock :=
  ⟨rfl, rfl, rfl, rfl, rfl, rfl⟩

theorem witness_IllFormedGroupsAreRefused :
    (Instr.movl (.lit 3) 7).wf = false ∧ (Instr.stq 2 (.base 5)).wf = false ∧
      (Instr.movl (.reg 2) 6).wf = true ∧
      exec (.movl (.lit 3) 7) State.reset = .refused .literalGroup :=
  ⟨by decide, by decide, by decide, rfl⟩

/-- Every mode but 6 has a first word with an operand. -/
theorem witness_EffectiveAddressFollowsTheModeTable :
    (List.range 16).map (fun k =>
      (decodeMemOperand (0x8C314000 ||| BitVec.ofNat 32 (k <<< 10)) 0x10).isSome) =
      (List.range 16).map (· != 6) := by
  decide

/-- 3 is below, 4 at, 8 at and 9 above the bounds 4 and 8; so are -3, -2, 2 and 3 those of -2 and 2. -/
theorem witness_RangeCheckIdiom :
    (let v := srcValue (small 0xFFFFFFFE 2 0 0)
     (v (.lit 4)).toNat ≤ (v (.lit 8)).toNat ∧ (v (.lit 3)).toNat < (v (.lit 4)).toNat ∧
       (v (.lit 8)).toNat < (v (.lit 9)).toNat ∧ (v (.reg 4)).toInt ≤ (v (.reg 5)).toInt ∧
       (srcValue (small 0xFFFFFFFD 0 0 0) (.reg 4)).toInt < (v (.reg 4)).toInt ∧
       (v (.reg 5)).toInt < (v (.lit 3)).toInt) := by
  decide

theorem witness_BitPrimitiveLaws :
    (Src.lit 31 ≠ .reg 6) ∧ Src.reg 5 ≠ .reg 6 := by
  decide

theorem witness_ConditionalFaults :
    (∀ p ∈ [(0, 0), (1, 1), (2, 2), (3, 1), (4, 4), (5, 4), (6, 2), (7, 7)],
      ConditionTrue p.1 (small 0 0 0 (BitVec.ofNat 32 p.2)).ac) ∧
    (∀ p ∈ [(0, 2), (1, 2), (2, 4), (3, 4), (4, 1), (5, 2), (6, 1), (7, 0)],
      ¬ConditionTrue p.1 (small 0 0 0 (BitVec.ofNat 32 p.2)).ac) := by
  decide

/-- addi's sum at the ends of the signed range and one past them, OM 0 and 1; shli's two counts; a
divisor of divi. -/
theorem witness_IntegerArithmeticChecksOverflow :
    FitsWord 2147483647 ∧ FitsWord (-2147483648) ∧ ¬FitsWord 2147483648 ∧ ¬FitsWord (-2147483649) ∧
      (srcValue (small 0x7FFFFFFF 0 0 0) (.reg 4)).toInt + (srcValue State.reset (.lit 0)).toInt =
        2147483647 ∧
      (srcValue (small 0x7FFFFFFF 0 0 0) (.reg 4)).toInt + (srcValue State.reset (.lit 1)).toInt =
        2147483648 ∧
      omOf (small 0 0 0 0).ac = false ∧ omOf (small 0 0 0 0x1000).ac = true ∧
      (srcValue State.reset (.lit 31)).toNat < 32 ∧ 32 ≤ (srcValue (small 32 0 0 0) (.reg 4)).toNat ∧
      (srcValue (small 0xFFFFFFFF 0 0 0) (.reg 4)).toInt ≠ 0 := by
  decide

theorem witness_ConditionalIntegerArithmetic :
    (∀ p ∈ [(0, 0), (1, 1), (2, 2), (3, 1), (4, 4), (5, 4), (6, 2), (7, 7)],
      ConditionTrue p.1 (small 0x7FFFFFFF 1 0 (BitVec.ofNat 32 p.2)).ac) ∧
    (∀ p ∈ [(0, 2), (1, 2), (2, 4), (3, 4), (4, 1), (5, 2), (6, 1), (7, 0)],
      ¬ConditionTrue p.1 (small 0x7FFFFFFF 1 0 (BitVec.ofNat 32 p.2)).ac) := by
  decide

/-- The operand with bit 31 only, bit 0 only, none, and all. -/
theorem witness_ScanAndSpanFindTheHighestBit :
    (∃ k < 32, (0x80000000 : Word).getLsbD k = true) ∧ (∃ k < 32, (1 : Word).getLsbD k = true) ∧
      (∀ k < 32, (0 : Word).getLsbD k = false) ∧ (∃ k < 32, (0x7FFFFFFF : Word).getLsbD k = false) ∧
      ∀ k < 32, (0xFFFFFFFF : Word).getLsbD k = true := by
  decide

theorem witness_ModpcExchangesPc :
    ((supervisor 0 5 0).pc.getLsbD 1 = true ∧ srcValue (supervisor 0 5 0) (.reg 5) ≠ 0) ∧
      ((small 0 0 0 0).pc.getLsbD 1 = false ∧ srcValue (small 0 0 0 0) (.reg 5) = 0) ∧
      (small 0 5 0 0).pc.getLsbD 1 = false ∧ srcValue (small 0 5 0 0) (.reg 5) ≠ 0 := by
  decide

theorem witness_InterruptControlChangesOneBit :
    (supervisor 0 0 0).pc.getLsbD 1 = true ∧ (small 0 0 0 0).pc.getLsbD 1 = false := by
  decide

theorem witness_MovesCopyRegistersAndGroups :
    (0 : Reg).toNat % 2 = 0 ∧ (30 : Reg).toNat % 2 = 0 ∧ (0 : Reg).toNat % 4 = 0 ∧
      (28 : Reg).toNat % 4 = 0 := by
  decide

/-- A divisor of 0, and a divisor of 2 with the largest dividend whose quotient fits and the
smallest whose quotient does not. -/
theorem witness_ExtendedMultiplyAndDivide :
    (let d (s : State) := (s.reg (4 + 1)).toNat * 2 ^ 32 + (s.reg 4).toNat
     let x (s : State) := (srcValue s (.reg 6)).toNat
     (30 : Reg).toNat % 2 = 0 ∧ (4 : Reg).toNat % 2 = 0 ∧ x (small 1 0 0 0) = 0 ∧
       x (small 0xFFFFFFFF 1 2 0) ≠ 0 ∧
       d (small 0xFFFFFFFF 1 2 0) + 1 = 2 ^ 32 * x (small 0xFFFFFFFF 1 2 0) ∧
       2 ^ 32 * x (small 0 2 2 0) = d (small 0 2 2 0)) := by
  decide

theorem witness_DivisionsAndRemainders :
    srcValue (small 0xFFFFFFFF 0x80000001 0 0) (.reg 4) ≠ 0 ∧
      ¬(srcValue (small 0xFFFFFFFF 0x80000001 0 0) (.reg 5) = 0x80000000 ∧
        srcValue (small 0xFFFFFFFF 0x80000001 0 0) (.reg 4) = 0xFFFFFFFF) ∧
      srcValue (small 0 1 0 0) (.reg 4) = 0 := by
  decide

/-- Composed at any address; with `refuse`, taken at a multiple of the width and refused off one. -/
theorem witness_LoadsReadLittleEndian :
    (8 : Reg).toNat % 4 = 0 ∧ (6 : Reg).toNat % 2 = 0 ∧
      Accessible State.reset (efa State.reset (.disp 0xFFFFFFFF)) 4 ∧
      (let s := { State.reset with params := others }
       (∀ n ∈ [1, 2, 4], Accessible s (efa s (.disp 0xFFFFFFFC)) n) ∧
         ∀ n ∈ [2, 4], ¬Accessible s (efa s (.disp 0xFFFFFFFF)) n) := by
  decide

theorem witness_StoresWriteLittleEndian :
    (8 : Reg).toNat % 4 = 0 ∧ (6 : Reg).toNat % 2 = 0 ∧
      Accessible State.reset (efa State.reset (.disp 0xFFFFFFFF)) 4 ∧
      (let s := { State.reset with params := others }
       (∀ n ∈ [1, 2, 4], Accessible s (efa s (.offset 0xFFC)) n) ∧
         ∀ n ∈ [2, 4], ¬Accessible s (efa s (.offset 0xFFD)) n) := by
  decide

/-- Both ends of both ranges and one past each, OM 0 and 1, both values of OverflowWrite. -/
theorem witness_SignedNarrowStoresCheckOverflow :
    (let v (r6 : Word) := ((small 0 0 r6 0).reg 6).toInt
     FitsByte (v 0x7F) ∧ FitsByte (v 0xFFFFFF80) ∧ ¬FitsByte (v 0x80) ∧ ¬FitsByte (v 0xFFFFFF7F) ∧
       FitsShort (v 0x7FFF) ∧ FitsShort (v 0xFFFF8000) ∧ ¬FitsShort (v 0x8000) ∧
       ¬FitsShort (v 0xFFFF7FFF) ∧ omOf (small 0 0 0x80 0x1000).ac = true ∧
       omOf (small 0 0 0x80 0).ac = false ∧ (small 0 0 0x80 0).params.overflowWrite = .written ∧
       others.overflowWrite = .unchanged ∧ Accessible (small 0 0 0x8000 0) 3 2 ∧
       Accessible { small 0 0 0x8000 0 with params := others } 0x1000 2) := by
  decide

/-- An odd address the port refuses: with a value that fits, and with one that does not. -/
theorem witness_SignedNarrowStoresCheckOverflow_misaligned :
    (let s (r6 : Word) := { small 0 0 r6 0 with params := others }
     ¬Accessible (s 0x7FFF) (efa (s 0x7FFF) (.offset 0x7FF)) 2 ∧
       ¬Accessible (s 0x8000) (efa (s 0x8000) (.offset 0x7FF)) 2 ∧
       FitsShort ((s 0x7FFF).reg 6).toInt ∧ ¬FitsShort ((s 0x8000).reg 6).toInt ∧
       omOf (s 0x8000).ac = false ∧ (s 0x8000).params.overflowWrite = .unchanged) := by
  decide

theorem witness_AtomicsExchangeOneWord :
    (small 3 1 0 0).lockHeld = false ∧ (small 3 1 0 0).lock.lockHeld = true := by
  decide

theorem witness_CallBuildsAFrame :
    (∃ (i : Instr) (s : State), (∃ d : BitVec 22, i = .call d) ∧ Accessible s (s.reg 31) 4) ∧
      (∃ (i : Instr) (s : State), (∃ m, i = .callx m) ∧ Accessible s (s.reg 31) 4) ∧
      ∃ s : State, ¬Accessible s (s.reg 31) 4 :=
  ⟨⟨.call 1, State.reset, ⟨1, rfl⟩, by decide⟩, ⟨.callx (.base 5), State.reset, ⟨_, rfl⟩, by decide⟩,
    { State.reset.setReg 31 1 with params := others }, by decide⟩

theorem witness_RetRestoresAFrame :
    ((State.reset.setReg 0 0x1038).reg 0).toNat % 8 = 0 ∧
      ((State.reset.setReg 0 0x1001).reg 0).toNat % 8 ≠ 0 ∧
      ((State.reset.setReg 0 0x1007).reg 0).toNat % 8 ≠ 0 := by
  decide

theorem witness_CallThenRetComesBack :
    ∃ (i : Instr) (s : State), ((∃ d, i = .call d) ∨ ∃ m, i = .callx m) ∧
      (s.reg 31).toNat % 64 = 0 :=
  ⟨.call 1, State.reset.setReg 31 0xFFFFFFC0, .inl ⟨1, rfl⟩, by decide⟩

end Sys2Proof.Tests
end

section
/-! What each instruction does to AC (R43): the overflow conditions of R763 as numbers, the effect on
AC of each shared operation, then of every instruction, and from it the statement on OF. -/

namespace Sys2Proof.Machine

/-! ### The overflow conditions as numbers -/

theorem ccOf_toNat (ac : Word) : (ccOf ac).toNat = ac.toNat % 8 := by
  simp [ccOf, BitVec.extractLsb'_toNat]

/-- A condition holds exactly where the table of R231 says. -/
theorem checkCond_iff (cond : Cond) (ac : Word) :
    checkCond cond ac = true ↔ ConditionTrue cond.mask.toNat ac := by
  unfold checkCond ConditionTrue
  rw [← ccOf_toNat]
  generalize ccOf ac = v
  revert v
  cases cond <;> decide

theorem not_fitsSigned (n : Nat) (r : Int) :
    (!fitsSigned n r) = true ↔ ¬(-(2 ^ (n - 1)) ≤ r ∧ r ≤ 2 ^ (n - 1) - 1) := by
  rw [fitsSigned, ← Bool.decide_and, ← decide_not, decide_eq_true_iff]

theorem not_fitsSigned_word (r : Int) : (!fitsSigned 32 r) = true ↔ ¬FitsWord r :=
  not_fitsSigned 32 r

theorem not_fitsSigned_short (r : Int) : (!fitsSigned 16 r) = true ↔ ¬FitsShort r :=
  not_fitsSigned 16 r

theorem not_fitsSigned_byte (r : Int) : (!fitsSigned 8 r) = true ↔ ¬FitsByte r :=
  not_fitsSigned 8 r

theorem addOverflows_iff (a b : Word) :
    addOverflows a b false = true ↔ ¬FitsWord (a.toInt + b.toInt) := by
  rw [addOverflows, not_fitsSigned_word]
  simp

theorem subOverflows_iff (b a : Word) :
    subOverflows b a true = true ↔ ¬FitsWord (b.toInt - a.toInt) := by
  rw [subOverflows, not_fitsSigned_word]
  simp

theorem shiftLeftOverflows_iff (b n : Word) :
    shiftLeftOverflows b n = true ↔
      if n.toNat < 32 then ¬FitsWord (b.toInt * 2 ^ n.toNat) else b ≠ 0 := by
  unfold shiftLeftOverflows
  by_cases h : n.toNat < 32
  · rw [if_neg (by omega), if_pos h, not_fitsSigned_word]
  · rw [if_pos (by omega), if_neg h, bne_iff_ne]

/-- The conditional integer add of a condition (R640 to R647). -/
def addWhen : Cond → Src → Src → Reg → Instr
  | .no => .addino
  | .g => .addig
  | .e => .addie
  | .ge => .addige
  | .l => .addil
  | .ne => .addine
  | .le => .addile
  | .o => .addio

/-- The conditional integer subtract of a condition (R660 to R667). -/
def subWhen : Cond → Src → Src → Reg → Instr
  | .no => .subino
  | .g => .subig
  | .e => .subie
  | .ge => .subige
  | .l => .subil
  | .ne => .subine
  | .le => .subile
  | .o => .subio

theorem exec_addWhen (cond : Cond) (a b : Src) (c : Reg) (s : State) :
    exec (addWhen cond a b c) s = whenCond cond s
      (writeChecked (addOverflows (srcValue s a) (srcValue s b) false) c
        (srcValue s a + srcValue s b) s) := by
  cases cond <;> rfl

theorem exec_subWhen (cond : Cond) (a b : Src) (c : Reg) (s : State) :
    exec (subWhen cond a b c) s = whenCond cond s
      (writeChecked (subOverflows (srcValue s b) (srcValue s a) true) c
        (srcValue s b - srcValue s a) s) := by
  cases cond <;> rfl

theorem overflowDetected_addWhen {cond : Cond} {a b : Src} {c : Reg} {s : State}
    (hc : checkCond cond s.ac = true)
    (ho : addOverflows (srcValue s a) (srcValue s b) false = true) :
    OverflowDetected s (addWhen cond a b c) :=
  .inl ⟨a, b, c, (addOverflows_iff _ _).1 ho, .inr
    ⟨(cond.mask.toNat, addWhen cond), by cases cond <;> simp [addWhen, Cond.mask],
      (checkCond_iff _ _).1 hc, rfl⟩⟩

theorem overflowDetected_subWhen {cond : Cond} {a b : Src} {c : Reg} {s : State}
    (hc : checkCond cond s.ac = true)
    (ho : subOverflows (srcValue s b) (srcValue s a) true = true) :
    OverflowDetected s (subWhen cond a b c) :=
  .inr <| .inl ⟨a, b, c, (subOverflows_iff _ _).1 ho, .inr
    ⟨(cond.mask.toNat, subWhen cond), by cases cond <;> simp [subWhen, Cond.mask],
      (checkCond_iff _ _).1 hc, rfl⟩⟩

/-! ### The effect on AC of the shared operations -/

/-- What any instruction but `modac` makes of AC: it is kept, or CC is written, or OF is set where OM
masks an overflow and `overflow` holds; a fault keeps it. -/
def AcEffect (ac : Word) (overflow : Prop) : Result → Prop
  | .next t =>
    t.ac = ac ∨ (∃ v, t.ac = withCc ac v) ∨ (omOf ac = true ∧ overflow ∧ t.ac = withOf ac)
  | .fault (.raised _ _ u) => u.ac = ac
  | .fault _ => True
  | .refused _ => True

theorem AcEffect.same {ac : Word} {P : Prop} {t : State} (h : t.ac = ac) : AcEffect ac P (.next t) :=
  .inl h

theorem AcEffect.cc {ac : Word} {P : Prop} {t : State} (v : BitVec 3) (h : t.ac = withCc ac v) :
    AcEffect ac P (.next t) :=
  .inr (.inl ⟨v, h⟩)

theorem AcEffect.orRefuse {α : Type} {ac : Word} {P : Prop} {e : Except Refusal α} {k : α → Result}
    (h : ∀ v, e = .ok v → AcEffect ac P (k v)) : AcEffect ac P (orRefuse e k) := by
  cases e with
  | ok v => exact h v rfl
  | error => trivial

theorem AcEffect.whenCond {cond : Cond} {P : Prop} {s : State} {k : Result}
    (h : checkCond cond s.ac = true → AcEffect s.ac P k) : AcEffect s.ac P (whenCond cond s k) := by
  unfold Machine.whenCond
  split
  · next hc => exact h hc
  · exact .same rfl

theorem AcEffect.requireGroup {ac : Word} {P : Prop} {n : Nat} {r : Reg} {k : Result}
    (h : AcEffect ac P k) : AcEffect ac P (requireGroup n r k) := by
  unfold Machine.requireGroup
  split
  · exact h
  · trivial

theorem AcEffect.requireReg {ac : Word} {P : Prop} {a : Src} {k : Reg → Result}
    (h : ∀ r, AcEffect ac P (k r)) : AcEffect ac P (requireReg a k) := by
  cases a with
  | reg r => exact h r
  | lit => trivial

theorem AcEffect.requireSupervisor {P : Prop} {s u : State} {k : Result} (hu : u.ac = s.ac)
    (h : AcEffect s.ac P k) : AcEffect s.ac P (requireSupervisor s u k) := by
  unfold Machine.requireSupervisor
  split
  · exact h
  · exact hu

theorem AcEffect.requireDivisor {P : Prop} {d : Word} {s u : State} {k : Result} (hu : u.ac = s.ac)
    (h : AcEffect s.ac P k) : AcEffect s.ac P (requireDivisor d s u k) := by
  unfold Machine.requireDivisor
  split
  · exact hu
  · exact h

/-- The overflow policy (R762): OF is set under OM alone, and neither fault touches AC. -/
theorem AcEffect.commit {overflow : Bool} {P : Prop} {p : Word} {s : State}
    {effect : State → Except Refusal State} (hP : overflow = true → P)
    (he : ∀ u, effect s = .ok u → u.ac = s.ac) :
    AcEffect s.ac P (commit overflow p s effect) := by
  cases h : Machine.commit overflow p s effect with
  | next t =>
    obtain ⟨-, hu⟩ | ⟨ho, hm, u, hu, rfl⟩ := commit_next.1 h
    · exact .same (he t hu)
    · exact .inr (.inr ⟨hm, hP ho, by rw [State.setAc_ac, he u hu]⟩)
  | fault f =>
    obtain ⟨-, -, u, rfl, ⟨-, hu⟩ | ⟨-, rfl⟩⟩ := commit_fault.1 h
    · exact he u hu
    · rfl
  | refused => trivial

theorem AcEffect.writeChecked {overflow : Bool} {P : Prop} {c : Reg} {v : Word} {s : State}
    (hP : overflow = true → P) : AcEffect s.ac P (writeChecked overflow c v s) :=
  .commit (s := s.advance 4) hP fun u hu => by
    obtain rfl := Except.ok.inj hu
    rfl

theorem write_ac {s t : State} {addr : Word} {n : Width} {v : Word}
    (h : s.write addr n v = .ok t) : t.ac = s.ac := by
  obtain ⟨-, rfl⟩ := write_ok.1 h
  rfl

theorem writeWords_ac {s t : State} {addr : Word} {vs : List Word}
    (h : s.writeWords addr vs = .ok t) : t.ac = s.ac := by
  obtain ⟨ht, -⟩ := writeWords_ok h
  rw [ht, State.setMem_ac]

theorem AcEffect.storeChecked {P : Prop} {n : Width} {c : Reg} {m : MemOperand} {s : State}
    (hP : (!fitsSigned (8 * n.bytes) (s.reg c).toInt) = true → P) :
    AcEffect s.ac P (storeChecked n c m s) :=
  .commit (s := s.advance (memLength m)) hP fun _ hu => write_ac hu

theorem AcEffect.loadOne {P : Prop} {n : Width} {widen : Word → Word} {m : MemOperand} {c : Reg}
    {s : State} : AcEffect s.ac P (loadOne n widen m c s) :=
  .orRefuse fun _ _ => .same rfl

theorem AcEffect.loadGroup {P : Prop} {n : Nat} {m : MemOperand} {c : Reg} {s : State} :
    AcEffect s.ac P (loadGroup n m c s) :=
  .requireGroup <| .orRefuse fun _ _ => .same (State.setRegs_ac _ _ _)

theorem AcEffect.storeOne {P : Prop} {n : Width} {c : Reg} {m : MemOperand} {s : State} :
    AcEffect s.ac P (storeOne n c m s) :=
  .orRefuse fun _ hu => .same ((write_ac hu).trans rfl)

theorem AcEffect.storeGroup {P : Prop} {n : Nat} {c : Reg} {m : MemOperand} {s : State} :
    AcEffect s.ac P (storeGroup n c m s) :=
  .requireGroup <| .orRefuse fun _ hu => .same ((writeWords_ac hu).trans rfl)

theorem AcEffect.moveGroup {P : Prop} {n : Nat} {a : Src} {c : Reg} {s : State} :
    AcEffect s.ac P (moveGroup n a c s) :=
  .requireReg fun _ => .requireGroup <| .requireGroup <| .same (State.setRegs_ac _ _ _)

theorem AcEffect.branchWhen {P : Prop} {cond : Cond} {disp : BitVec 22} {s : State} :
    AcEffect s.ac P (branchWhen cond disp s) := by
  unfold Machine.branchWhen
  split <;> exact .same rfl

theorem AcEffect.faultWhen {P : Prop} {cond : Cond} {s : State} :
    AcEffect s.ac P (faultWhen cond s) := by
  unfold Machine.faultWhen
  split
  · exact rfl
  · exact .same rfl

theorem AcEffect.bitBranch {P : Prop} {c0 : Bool} {a : Src} {b : Reg} {disp : BitVec 11}
    {s : State} : AcEffect s.ac P (bitBranch c0 a b disp s) := by
  unfold Machine.bitBranch
  dsimp only
  split <;> exact .cc _ rfl

theorem AcEffect.compareBranch {P : Prop} {sg : Signedness} {cond : Cond} {a : Src} {b : Reg}
    {disp : BitVec 11} {s : State} : AcEffect s.ac P (compareBranch sg cond a b disp s) := by
  unfold Machine.compareBranch
  dsimp only
  split <;> exact .cc _ rfl

theorem AcEffect.concmp {P : Prop} {sg : Signedness} {x y : Word} {s : State} :
    AcEffect s.ac P (.next ((s.advance 4).setAc (concmpAc sg x y s.ac))) := by
  obtain h | h | h := concmpAc_cases sg x y s.ac
  · exact .same h
  · exact .cc _ h
  · exact .cc _ h

theorem AcEffect.scanResult {P : Prop} {v : Word} {c : Reg} {s : State} :
    AcEffect s.ac P (scanResult v c s) := by
  unfold Machine.scanResult
  split <;> exact .cc _ rfl

theorem AcEffect.rewriteIcon {P : Prop} {f : Word → Word} {s : State} :
    AcEffect s.ac P (rewriteIcon f s) :=
  .requireSupervisor rfl (.same rfl)

theorem AcEffect.atomicModify {ac : Word} {P : Prop} {addr : Word} {f : Word → Word} {c : Reg}
    {s : State} (hs : s.ac = ac) : AcEffect ac P (atomicModify addr f c s) := by
  unfold Machine.atomicModify
  split
  · trivial
  · exact .same hs

theorem AcEffect.callProc {ac : Word} {P : Prop} {target : Word} {s : State} (hs : s.ac = ac) :
    AcEffect ac P (callProc target s) :=
  .orRefuse fun _ hu => .same ((writeWords_ac hu).trans hs)

theorem AcEffect.retProc {ac : Word} {P : Prop} {s : State} (hs : s.ac = ac) :
    AcEffect ac P (retProc s) := by
  unfold Machine.retProc
  split
  · trivial
  · exact .orRefuse fun _ _ => .same ((State.setRegs_ac _ _ _).trans hs)

theorem AcEffect.filler585 {P : Prop} {a b : Src} {c : Reg} {s : State} :
    AcEffect s.ac P (execFiller585 a b c s) := by
  unfold execFiller585
  split <;> exact .same rfl

theorem AcEffect.modpc {P : Prop} {a b : Src} {c : Reg} {s : State} :
    AcEffect s.ac P (execModpc a b c s) := by
  unfold execModpc
  dsimp only
  split
  · exact .same rfl
  · exact .requireSupervisor rfl (.same rfl)

theorem AcEffect.addWhen (cond : Cond) (a b : Src) (c : Reg) (s : State) :
    AcEffect s.ac (OverflowDetected s (addWhen cond a b c)) (exec (addWhen cond a b c) s) := by
  rw [exec_addWhen]
  exact .whenCond fun hc => .writeChecked (overflowDetected_addWhen hc)

theorem AcEffect.subWhen (cond : Cond) (a b : Src) (c : Reg) (s : State) :
    AcEffect s.ac (OverflowDetected s (subWhen cond a b c)) (exec (subWhen cond a b c) s) := by
  rw [exec_subWhen]
  exact .whenCond fun hc => .writeChecked (overflowDetected_subWhen hc)

/-! ### The effect on AC of every instruction -/

/-- Every instruction but `modac` keeps AC, or writes CC, or sets OF by a masked overflow of R763's
table. -/
theorem exec_acEffect (i : Instr) (s : State) (hi : ∀ a b c, i ≠ .modac a b c) :
    AcEffect s.ac (OverflowDetected s i) (exec i s) := by
  unfold exec
  cases i with
  | modac a b c => exact absurd rfl (hi a b c)
  | b | bal | bx | balx | lda | testno | testg | teste | testge | testl | testne | testle | testo
  | notbit | and | andnot | setbit | notand | xor | or | nor | xnor | not | ornot | clrbit | notor
  | nand | alterbit | addo | subo | shro | shrdi | shri | shlo | rotate | mulo | bswap | mov | modify
  | extract | selno | selg | sele | selge | sell | selne | selle | selo | modtc | calls | mark | fmark
  | flushreg | syncf => exact .same rfl
  | filler585 => exact .filler585
  | call | callx => exact .callProc rfl
  | ret => exact .retProc rfl
  | bno | bg | be | bge | bl | bne | ble | bo => exact .branchWhen
  | faultno | faultg | faulte | faultge | faultl | faultne | faultle | faulto => exact .faultWhen
  | bbc | bbs => exact .bitBranch
  | cmpobg | cmpobe | cmpobge | cmpobl | cmpobne | cmpoble | cmpibno | cmpibg | cmpibe | cmpibge
  | cmpibl | cmpibne | cmpible | cmpibo => exact .compareBranch
  | cmpob | cmpib | cmpos | cmpis | cmpo | cmpi | scanbyte | chkbit | cmpinco | cmpinci | cmpdeco
  | cmpdeci | addc | subc => exact .cc _ rfl
  | concmpo | concmpi => exact .concmp
  | spanbit | scanbit => exact .scanResult
  | intdis => exact .rewriteIcon
  | inten => exact .rewriteIcon
  | modpc => exact .modpc
  | eshro => exact .requireReg fun _ => .same rfl
  | movl | movt | movq => exact .moveGroup
  | atmod | atadd => exact .atomicModify rfl
  | emul => exact .requireGroup (.same rfl)
  | ediv =>
    refine .requireReg fun r => .requireGroup <| .requireGroup <| .requireDivisor rfl ?_
    dsimp only
    split
    · trivial
    · exact .same rfl
  | remo | divo | remi | modi => exact .requireDivisor rfl (.same rfl)
  | addono | addog | addoe | addoge | addol | addone | addole | addoo | subono | subog | suboe
  | suboge | subol | subone | subole | suboo => exact .whenCond fun _ => .same rfl
  | addi a b c =>
    exact .writeChecked fun h => .inl ⟨a, b, c, (addOverflows_iff _ _).1 h, .inl rfl⟩
  | subi a b c =>
    exact .writeChecked fun h => .inr <| .inl ⟨a, b, c, (subOverflows_iff _ _).1 h, .inl rfl⟩
  | shli a b c =>
    exact .writeChecked fun h =>
      .inr <| .inr <| .inl ⟨a, b, c, rfl, (shiftLeftOverflows_iff _ _).1 h⟩
  | muli a b c =>
    exact .writeChecked fun h =>
      .inr <| .inr <| .inr <| .inl ⟨a, b, c, rfl, (not_fitsSigned_word _).1 h⟩
  | divi a b c =>
    refine .requireDivisor rfl <| .writeChecked fun h =>
      .inr <| .inr <| .inr <| .inr <| .inl ⟨a, b, c, rfl, ?_⟩
    simpa using h
  | stib c m =>
    exact .storeChecked fun h =>
      .inr <| .inr <| .inr <| .inr <| .inr ⟨c, m, .inl ⟨rfl, (not_fitsSigned_byte _).1 h⟩⟩
  | stis c m =>
    exact .storeChecked fun h =>
      .inr <| .inr <| .inr <| .inr <| .inr ⟨c, m, .inr ⟨rfl, (not_fitsSigned_short _).1 h⟩⟩
  | addino a b c => exact .addWhen .no a b c s
  | addig a b c => exact .addWhen .g a b c s
  | addie a b c => exact .addWhen .e a b c s
  | addige a b c => exact .addWhen .ge a b c s
  | addil a b c => exact .addWhen .l a b c s
  | addine a b c => exact .addWhen .ne a b c s
  | addile a b c => exact .addWhen .le a b c s
  | addio a b c => exact .addWhen .o a b c s
  | subino a b c => exact .subWhen .no a b c s
  | subig a b c => exact .subWhen .g a b c s
  | subie a b c => exact .subWhen .e a b c s
  | subige a b c => exact .subWhen .ge a b c s
  | subil a b c => exact .subWhen .l a b c s
  | subine a b c => exact .subWhen .ne a b c s
  | subile a b c => exact .subWhen .le a b c s
  | subio a b c => exact .subWhen .o a b c s
  | ldob | ldos | ldib | ldis | ld => exact .loadOne
  | ldl | ldt | ldq => exact .loadGroup
  | stob | stos | st => exact .storeOne
  | stl | stt | stq => exact .storeGroup

/-! ### OF -/

/-- The effect on OF: kept, or set by a masked overflow. -/
theorem AcEffect.ofOf_next {ac : Word} {P : Prop} {t : State} (h : AcEffect ac P (.next t)) :
    ofOf t.ac = ofOf ac ∨ (omOf ac = true ∧ P ∧ ofOf t.ac = true) := by
  obtain h | ⟨v, h⟩ | ⟨hm, hP, h⟩ := h
  · exact .inl (by rw [h])
  · exact .inl (by rw [h, ofOf_withCc])
  · exact .inr ⟨hm, hP, by rw [h, ofOf_withOf]⟩

theorem exec_modac_ne_fault (a b : Src) (c : Reg) (s : State) (f : Fault) :
    exec (.modac a b c) s ≠ .fault f := nofun

/-- Settles O18: OF follows AC, so the statement is read off `exec_acEffect`; `modac`, the one
instruction outside it, never faults. -/
theorem overflowFlagIsSticky : Obligations.OverflowFlagIsSticky := by
  intro i s
  by_cases hi : ∃ a b c, i = .modac a b c
  · refine ⟨fun _ _ _ _ => hi, fun _ _ _ _ => .inr hi, fun e p u h => ?_⟩
    obtain ⟨a, b, c, rfl⟩ := hi
    exact absurd h (exec_modac_ne_fault a b c s _)
  · have hac := exec_acEffect i s fun a b c e => hi ⟨a, b, c, e⟩
    refine ⟨fun t ht h1 h0 => ?_, fun t ht h0 h1 => ?_, fun e p u hu => ?_⟩
    · rw [ht] at hac
      obtain h | ⟨-, -, h⟩ := hac.ofOf_next <;> simp_all
    · rw [ht] at hac
      obtain h | ⟨hm, hP, -⟩ := hac.ofOf_next
      · simp_all
      · exact .inl ⟨hm, hP⟩
    · rw [hu] at hac
      exact congrArg ofOf hac

end Sys2Proof.Machine
end

section
/-! Noninterference of stored control bits: a change of AC, PC and TC that no field in use sees
commutes with every shared operation, hence with every instruction that does not exchange the changed
register. From it and the exchange of `modtc`, the statement on TC (R55). -/

namespace Sys2Proof.Machine

/-! ### Changes of the control registers -/

/-- A change of the three control registers. -/
structure ControlMap where
  ac : Word → Word := id
  pc : Word → Word := id
  tc : Word → Word := id

/-- The change made in a state. -/
def ControlMap.onState (f : ControlMap) (s : State) : State :=
  { s with ac := f.ac s.ac, pc := f.pc s.pc, tc := f.tc s.tc }

/-- The change is not seen in CC and OM, and commutes with the writes of CC and OF. -/
structure ControlMap.Hidden (f : ControlMap) : Prop where
  cc : ∀ ac, ccOf (f.ac ac) = ccOf ac
  om : ∀ ac, omOf (f.ac ac) = omOf ac
  setCc : ∀ ac v, f.ac (withCc ac v) = withCc (f.ac ac) v
  setOf : ∀ ac, f.ac (withOf ac) = withOf (f.ac ac)

/-- The change that puts `v` in TC. -/
def ControlMap.setTc (v : Word) : ControlMap := { tc := fun _ => v }

theorem ControlMap.onState_of_setTc (v : Word) :
    (ControlMap.setTc v).onState = fun s => s.setTc v := rfl

theorem ControlMap.hidden_setTc (v : Word) : (ControlMap.setTc v).Hidden :=
  ⟨fun _ => rfl, fun _ => rfl, fun _ _ => rfl, fun _ => rfl⟩

namespace ControlMap

variable {f : ControlMap} {s : State}

/-! ### The change and the state -/

@[simp] theorem onState_reg (r : Reg) : (f.onState s).reg r = s.reg r := rfl
@[simp] theorem onState_ip : (f.onState s).ip = s.ip := rfl
@[simp] theorem onState_ac : (f.onState s).ac = f.ac s.ac := rfl
@[simp] theorem onState_pc : (f.onState s).pc = f.pc s.pc := rfl
@[simp] theorem onState_tc : (f.onState s).tc = f.tc s.tc := rfl
@[simp] theorem onState_params : (f.onState s).params = s.params := rfl

@[simp] theorem onState_setReg (r : Reg) (v : Word) :
    (f.onState s).setReg r v = f.onState (s.setReg r v) := rfl
@[simp] theorem onState_setIp (v : Word) : (f.onState s).setIp v = f.onState (s.setIp v) := rfl
@[simp] theorem onState_advance (n : Nat) : (f.onState s).advance n = f.onState (s.advance n) := rfl

@[simp] theorem onState_regs (r : Reg) (n : Nat) : (f.onState s).regs r n = s.regs r n := by
  induction n generalizing r with
  | zero => rfl
  | succ n ih => simp [State.regs, ih]

@[simp] theorem onState_setRegs (r : Reg) (vs : List Word) :
    (f.onState s).setRegs r vs = f.onState (s.setRegs r vs) := by
  induction vs generalizing s r with
  | nil => rfl
  | cons v vs ih => simp [State.setRegs, ih]

@[simp] theorem onState_srcValue (a : Src) : srcValue (f.onState s) a = srcValue s a := by
  cases a <;> rfl

@[simp] theorem onState_efa (m : MemOperand) : efa (f.onState s) m = efa s m := by
  cases m <;> rfl

@[simp] theorem onState_ctrlTarget (disp : BitVec 22) :
    ctrlTarget disp (f.onState s) = ctrlTarget disp s := rfl

@[simp] theorem onState_cobrTarget (disp : BitVec 11) :
    cobrTarget disp (f.onState s) = cobrTarget disp s := rfl

@[simp] theorem onState_read (addr : Word) (n : Width) :
    (f.onState s).read addr n = s.read addr n := rfl

@[simp] theorem onState_readWords (addr : Word) (n : Nat) :
    (f.onState s).readWords addr n = s.readWords addr n := by
  induction n generalizing addr with
  | zero => rfl
  | succ n ih => simp [State.readWords, ih]

@[simp] theorem onState_write (addr : Word) (n : Width) (v : Word) :
    (f.onState s).write addr n v = (s.write addr n v).map f.onState := by
  have hp : (f.onState s).portRefuses addr n = s.portRefuses addr n := rfl
  unfold State.write
  rw [hp]
  cases s.portRefuses addr n <;> rfl

@[simp] theorem onState_writeWords (addr : Word) (vs : List Word) :
    (f.onState s).writeWords addr vs = (s.writeWords addr vs).map f.onState := by
  induction vs generalizing s addr with
  | nil => rfl
  | cons v vs ih =>
    simp only [State.writeWords, onState_write]
    cases s.write addr .word v with
    | error => rfl
    | ok t => exact ih _

theorem onState_setAc (hac : f.ac = id) (v : Word) :
    (f.onState s).setAc v = f.onState (s.setAc v) := by
  simp only [State.setAc, onState, hac, id]

theorem onState_setPc (hpc : f.pc = id) (v : Word) :
    (f.onState s).setPc v = f.onState (s.setPc v) := by
  simp only [State.setPc, onState, hpc, id]

theorem onState_setTc (htc : f.tc = id) (v : Word) :
    (f.onState s).setTc v = f.onState (s.setTc v) := by
  simp only [State.setTc, onState, htc, id]

theorem onState_setCc (hf : f.Hidden) (v : BitVec 3) :
    (f.onState s).setCc v = f.onState (s.setCc v) := by
  simp only [State.setCc, State.setAc, onState, hf.setCc]

theorem onState_setOf (hf : f.Hidden) :
    (f.onState s).setAc (withOf (f.onState s).ac) = f.onState (s.setAc (withOf s.ac)) := by
  simp only [State.setAc, onState, hf.setOf]

theorem onState_checkCond (hf : f.Hidden) (cond : Cond) :
    checkCond cond (f.onState s).ac = checkCond cond s.ac := by
  simp only [checkCond, onState, hf.cc]

theorem onState_carryOf (hf : f.Hidden) : carryOf (f.onState s).ac = carryOf s.ac := by
  have h (ac : Word) : carryOf ac = (ccOf ac).getLsbD 1 := by simp [carryOf, ccOf]
  rw [h, h, onState, hf.cc]

theorem onState_concmp (hf : f.Hidden) (sg : Signedness) (x y : Word) :
    concmpAc sg x y (f.onState s).ac = f.ac (concmpAc sg x y s.ac) := by
  simp only [concmpAc, onState, hf.cc, ← hf.setCc, apply_ite f.ac]

/-! ### The change and the shared operations -/

/-- Both runs have the same outcome but for the change in the state they leave. -/
abbrev Commutes (f : ControlMap) (r' r : Result) : Prop := r' = mapState f.onState r

theorem commutes_ite {c : Prop} [Decidable c] {k k' l l' : Result} (hk : f.Commutes k' k)
    (hl : f.Commutes l' l) : f.Commutes (if c then k' else l') (if c then k else l) := by
  split
  · exact hk
  · exact hl

theorem commutes_whenCond (hf : f.Hidden) {cond : Cond} {k k' : Result} (hk : f.Commutes k' k) :
    f.Commutes (whenCond cond (f.onState s) k') (whenCond cond s k) := by
  unfold whenCond
  rw [onState_checkCond hf]
  exact commutes_ite hk rfl

theorem commutes_requireGroup {n : Nat} {r : Reg} {k k' : Result} (hk : f.Commutes k' k) :
    f.Commutes (requireGroup n r k') (requireGroup n r k) :=
  commutes_ite hk rfl

theorem commutes_requireReg {a : Src} {k k' : Reg → Result} (hk : ∀ r, f.Commutes (k' r) (k r)) :
    f.Commutes (requireReg a k') (requireReg a k) := by
  cases a with
  | reg r => exact hk r
  | lit => rfl

theorem commutes_requireSupervisor {k k' : Result} (he : emOf (f.pc s.pc) = emOf s.pc)
    (hk : f.Commutes k' k) :
    f.Commutes (requireSupervisor (f.onState s) ((f.onState s).advance 4) k')
      (requireSupervisor s (s.advance 4) k) := by
  unfold requireSupervisor
  rw [onState_pc, he]
  exact commutes_ite hk rfl

theorem commutes_requireDivisor {d d' : Word} {k k' : Result} (hd : d' = d)
    (hk : f.Commutes k' k) :
    f.Commutes (requireDivisor d' (f.onState s) ((f.onState s).advance 4) k')
      (requireDivisor d s (s.advance 4) k) := by
  rw [hd]
  exact commutes_ite rfl hk

theorem commutes_orRefuse {α : Type} {e : Except Refusal α} {k k' : α → Result}
    (hk : ∀ v, f.Commutes (k' v) (k v)) : f.Commutes (orRefuse e k') (orRefuse e k) := by
  cases e with
  | ok v => exact hk v
  | error => rfl

theorem commutes_orRefuse_map {e : Except Refusal State} {k k' : State → Result}
    (hk : ∀ u, f.Commutes (k' (f.onState u)) (k u)) :
    f.Commutes (orRefuse (e.map f.onState) k') (orRefuse e k) := by
  cases e with
  | ok u => exact hk u
  | error => rfl

theorem commutes_commit (hf : f.Hidden) {overflow : Bool} {p : Word}
    {e e' : State → Except Refusal State} (he : e' (f.onState s) = (e s).map f.onState) :
    f.Commutes (commit overflow p (f.onState s) e') (commit overflow p s e) := by
  have hom : omOf (f.onState s).ac = omOf s.ac := hf.om s.ac
  have hparams : (f.onState s).params = s.params := rfl
  unfold commit overflowEvent
  rw [he, hom, hparams]
  refine commutes_ite (commutes_ite ?_ ?_) ?_
  · exact commutes_orRefuse_map fun u => congrArg _ (onState_setOf hf)
  · cases s.params.overflowWrite with
    | written => exact commutes_orRefuse_map fun _ => rfl
    | unchanged => rfl
  · exact commutes_orRefuse_map fun _ => rfl

theorem commutes_writeChecked (hf : f.Hidden) {o o' : Bool} {c : Reg} {v v' : Word} (ho : o' = o)
    (hv : v' = v) : f.Commutes (writeChecked o' c v' (f.onState s)) (writeChecked o c v s) := by
  subst ho hv
  exact commutes_commit hf (s := s.advance 4) rfl

theorem commutes_storeChecked (hf : f.Hidden) {n : Width} {c : Reg} {m : MemOperand} :
    f.Commutes (storeChecked n c m (f.onState s)) (storeChecked n c m s) := by
  simp only [storeChecked, onState_efa]
  exact commutes_commit hf (s := s.advance (memLength m)) (onState_write _ _ _)

theorem commutes_loadOne {n : Width} {widen : Word → Word} {m : MemOperand} {c : Reg} :
    f.Commutes (loadOne n widen m c (f.onState s)) (loadOne n widen m c s) := by
  simp only [loadOne, onState_efa]
  exact commutes_orRefuse fun _ => rfl

theorem commutes_loadGroup {n : Nat} {m : MemOperand} {c : Reg} :
    f.Commutes (loadGroup n m c (f.onState s)) (loadGroup n m c s) := by
  simp only [loadGroup, onState_efa, onState_readWords, onState_advance, onState_setRegs]
  exact commutes_requireGroup <| commutes_orRefuse fun _ => rfl

theorem commutes_storeOne {n : Width} {c : Reg} {m : MemOperand} :
    f.Commutes (storeOne n c m (f.onState s)) (storeOne n c m s) := by
  simp only [storeOne, onState_efa, onState_advance, onState_write]
  exact commutes_orRefuse_map fun _ => rfl

theorem commutes_storeGroup {n : Nat} {c : Reg} {m : MemOperand} :
    f.Commutes (storeGroup n c m (f.onState s)) (storeGroup n c m s) := by
  simp only [storeGroup, onState_efa, onState_advance, onState_regs, onState_writeWords]
  exact commutes_requireGroup <| commutes_orRefuse_map fun _ => rfl

theorem commutes_moveGroup {n : Nat} {a : Src} {c : Reg} :
    f.Commutes (moveGroup n a c (f.onState s)) (moveGroup n a c s) := by
  simp only [moveGroup, onState_advance, onState_regs, onState_setRegs]
  exact commutes_requireReg fun _ => commutes_requireGroup <| commutes_requireGroup rfl

theorem commutes_writeReg {c : Reg} {v v' : Word} (hv : v' = v) :
    f.Commutes (writeReg c v' (f.onState s)) (writeReg c v s) := by
  subst hv
  rfl

theorem commutes_writeCc (hf : f.Hidden) {v v' : BitVec 3} (hv : v' = v) :
    f.Commutes (writeCc v' (f.onState s)) (writeCc v s) := by
  subst hv
  simp only [writeCc, onState_advance, onState_setCc hf]
  rfl

theorem commutes_writeCcReg (hf : f.Hidden) {v v' : BitVec 3} {c : Reg} {w w' : Word} (hv : v' = v)
    (hw : w' = w) : f.Commutes (writeCcReg v' c w' (f.onState s)) (writeCcReg v c w s) := by
  subst hv hw
  simp only [writeCcReg, onState_advance, onState_setCc hf]
  rfl

theorem commutes_branchWhen (hf : f.Hidden) {cond : Cond} {disp : BitVec 22} :
    f.Commutes (branchWhen cond disp (f.onState s)) (branchWhen cond disp s) := by
  simp only [branchWhen, onState_checkCond hf, Commutes, mapState, onState_ctrlTarget,
    onState_setIp, onState_advance, apply_ite f.onState]

theorem commutes_faultWhen (hf : f.Hidden) {cond : Cond} :
    f.Commutes (faultWhen cond (f.onState s)) (faultWhen cond s) := by
  simp only [faultWhen, onState_checkCond hf]
  exact commutes_ite rfl rfl

theorem commutes_bitBranch (hf : f.Hidden) {c0 : Bool} {a : Src} {b : Reg} {disp : BitVec 11} :
    f.Commutes (bitBranch c0 a b disp (f.onState s)) (bitBranch c0 a b disp s) := by
  simp only [bitBranch, Commutes, mapState, onState_srcValue, onState_reg, onState_cobrTarget,
    onState_advance, onState_setCc hf, onState_setIp, apply_ite f.onState]

theorem commutes_compareBranch (hf : f.Hidden) {sg : Signedness} {cond : Cond} {a : Src} {b : Reg}
    {disp : BitVec 11} :
    f.Commutes (compareBranch sg cond a b disp (f.onState s)) (compareBranch sg cond a b disp s) := by
  simp only [compareBranch, Commutes, mapState, onState_srcValue, onState_reg, onState_cobrTarget,
    onState_advance, onState_setCc hf, onState_setIp, onState_checkCond hf, apply_ite f.onState]

theorem commutes_concmp (hf : f.Hidden) {sg : Signedness} {x x' y y' : Word} (hx : x' = x)
    (hy : y' = y) :
    f.Commutes (.next (((f.onState s).advance 4).setAc (concmpAc sg x' y' (f.onState s).ac)))
      (.next ((s.advance 4).setAc (concmpAc sg x y s.ac))) := by
  rw [hx, hy, onState_concmp hf]
  rfl

theorem commutes_scanResult (hf : f.Hidden) {v v' : Word} {c : Reg} (hv : v' = v) :
    f.Commutes (scanResult v' c (f.onState s)) (scanResult v c s) := by
  subst hv
  exact commutes_ite (commutes_writeCcReg hf rfl rfl) (commutes_writeCcReg hf rfl rfl)

theorem commutes_rewriteIcon (he : emOf (f.pc s.pc) = emOf s.pc) {g : Word → Word} :
    f.Commutes (rewriteIcon g (f.onState s)) (rewriteIcon g s) :=
  commutes_requireSupervisor he rfl

theorem commutes_atomicModify {addr addr' : Word} {g g' : Word → Word} {c : Reg}
    (ha : addr' = addr) (hg : g' = g) :
    f.Commutes (atomicModify addr' g' c (f.onState s)) (atomicModify addr g c s) := by
  subst ha hg
  exact commutes_ite rfl rfl

theorem commutes_callProc {target target' : Word} (ht : target' = target) :
    f.Commutes (callProc target' (f.onState s)) (callProc target s) := by
  subst ht
  simp only [callProc, onState_reg, onState_ip, onState_setReg, onState_regs, onState_writeWords]
  exact commutes_orRefuse_map fun _ => rfl

theorem commutes_retProc : f.Commutes (retProc (f.onState s)) (retProc s) := by
  simp only [retProc, onState_reg, onState_setReg, onState_readWords, onState_setRegs,
    onState_setIp]
  exact commutes_ite rfl (commutes_orRefuse fun _ => rfl)

theorem commutes_filler585 {a b : Src} {c : Reg} :
    f.Commutes (execFiller585 a b c (f.onState s)) (execFiller585 a b c s) := by
  simp only [execFiller585, onState_params, onState_srcValue]
  cases s.params.filler585 with
  | notand => rfl
  | xor => rfl

theorem commutes_ediv {a b : Src} {c : Reg} :
    f.Commutes (execEdiv a b c (f.onState s)) (execEdiv a b c s) := by
  simp only [execEdiv, onState_srcValue, onState_reg, onState_advance]
  exact commutes_requireReg fun _ => commutes_requireGroup <| commutes_requireGroup <|
    commutes_requireDivisor rfl <| commutes_ite rfl rfl

theorem commutes_modac (hac : f.ac = id) {a b : Src} {c : Reg} :
    f.Commutes (execModac a b c (f.onState s)) (execModac a b c s) := by
  simp only [execModac, onState_srcValue, onState_advance, onState_ac, onState_setAc hac, hac, id,
    onState_setReg]
  rfl

theorem commutes_modtc (htc : f.tc = id) {a b : Src} {c : Reg} :
    f.Commutes (execModtc a b c (f.onState s)) (execModtc a b c s) := by
  simp only [execModtc, onState_srcValue, onState_advance, onState_tc, onState_setTc htc, htc, id,
    onState_setReg]
  rfl

theorem commutes_modpc (hpc : f.pc = id) {a b : Src} {c : Reg} :
    f.Commutes (execModpc a b c (f.onState s)) (execModpc a b c s) := by
  have he : emOf (f.pc s.pc) = emOf s.pc := by rw [hpc]; rfl
  simp only [execModpc, onState_srcValue, onState_reg, onState_advance, onState_pc,
    onState_setPc hpc, hpc, id, onState_setReg]
  exact commutes_ite rfl (commutes_requireSupervisor he rfl)

/-! ### The change and every instruction -/

/-- A hidden change commutes with every instruction that does not exchange a changed register. -/
theorem commutes_exec (hf : f.Hidden) (he : emOf (f.pc s.pc) = emOf s.pc) (i : Instr)
    (hac : f.ac = id ∨ ∀ a b c, i ≠ .modac a b c) (hpc : f.pc = id ∨ ∀ a b c, i ≠ .modpc a b c)
    (htc : f.tc = id ∨ ∀ a b c, i ≠ .modtc a b c) :
    f.Commutes (exec i (f.onState s)) (exec i s) := by
  unfold exec
  cases i with
  | modac a b c => exact commutes_modac (hac.resolve_right fun h => h a b c rfl)
  | modpc a b c => exact commutes_modpc (hpc.resolve_right fun h => h a b c rfl)
  | modtc a b c => exact commutes_modtc (htc.resolve_right fun h => h a b c rfl)
  | b | bal | bx | balx | lda | calls | mark | fmark | flushreg | syncf => rfl
  | notbit | and | andnot | setbit | notand | xor | or | nor | xnor | not | ornot | clrbit | notor
  | nand | addo | subo | shro | shrdi | shri | shlo | rotate | mulo | bswap | mov | modify
  | extract => exact commutes_writeReg rfl
  | testno | testg | teste | testge | testl | testne | testle | testo =>
    exact commutes_writeReg (by rw [onState_checkCond hf])
  | selno | selg | sele | selge | sell | selne | selle | selo =>
    exact commutes_writeReg (by simp only [onState_checkCond hf, onState_srcValue])
  | alterbit => exact commutes_writeReg (by rw [onState_carryOf hf]; rfl)
  | filler585 => exact commutes_filler585
  | call => exact commutes_callProc (s := s.advance 4) rfl
  | callx m => exact commutes_callProc (s := s.advance (memLength m)) (onState_efa m)
  | ret => exact commutes_retProc (s := s.advance 4)
  | bno | bg | be | bge | bl | bne | ble | bo => exact commutes_branchWhen hf
  | faultno | faultg | faulte | faultge | faultl | faultne | faultle | faulto =>
    exact commutes_faultWhen hf
  | bbc | bbs => exact commutes_bitBranch hf
  | cmpobg | cmpobe | cmpobge | cmpobl | cmpobne | cmpoble | cmpibno | cmpibg | cmpibe | cmpibge
  | cmpibl | cmpibne | cmpible | cmpibo => exact commutes_compareBranch hf
  | cmpob | cmpib | cmpos | cmpis | cmpo | cmpi | scanbyte | chkbit => exact commutes_writeCc hf rfl
  | cmpinco | cmpinci | cmpdeco | cmpdeci => exact commutes_writeCcReg hf rfl rfl
  | addc | subc =>
    exact commutes_writeCcReg hf (by rw [onState_carryOf hf]; rfl) (by rw [onState_carryOf hf]; rfl)
  | concmpo | concmpi => exact commutes_concmp hf rfl rfl
  | spanbit | scanbit => exact commutes_scanResult hf rfl
  | intdis | inten => exact commutes_rewriteIcon he
  | eshro => exact commutes_requireReg fun _ => commutes_writeReg rfl
  | movl | movt | movq => exact commutes_moveGroup
  | atmod | atadd => exact commutes_atomicModify (s := s.advance 4) rfl rfl
  | emul => exact commutes_requireGroup rfl
  | ediv => exact commutes_ediv
  | remo | divo | remi | modi => exact commutes_requireDivisor rfl (commutes_writeReg rfl)
  | addi | subi | shli | muli => exact commutes_writeChecked hf rfl rfl
  | divi => exact commutes_requireDivisor rfl (commutes_writeChecked hf rfl rfl)
  | addono | addog | addoe | addoge | addol | addone | addole | addoo | subono | subog | suboe
  | suboge | subol | subone | subole | suboo =>
    exact commutes_whenCond hf (commutes_writeReg rfl)
  | addino | addig | addie | addige | addil | addine | addile | addio | subino | subig | subie
  | subige | subil | subine | subile | subio =>
    exact commutes_whenCond hf (commutes_writeChecked hf rfl rfl)
  | ldob | ldos | ldib | ldis | ld => exact commutes_loadOne
  | ldl | ldt | ldq => exact commutes_loadGroup
  | stob | stos | st => exact commutes_storeOne
  | stib | stis => exact commutes_storeChecked hf
  | stl | stt | stq => exact commutes_storeGroup

end ControlMap

/-! ### TC -/

theorem exec_setTc (i : Instr) (s : State) (v : Word) (hi : ∀ a b c, i ≠ .modtc a b c) :
    exec i (s.setTc v) = mapState (fun t => t.setTc v) (exec i s) := by
  rw [← ControlMap.onState_of_setTc]
  exact ControlMap.commutes_exec (ControlMap.hidden_setTc v) rfl i (.inl rfl) (.inl rfl) (.inr hi)

theorem frame_setTc (s : State) (w : Scope) (v : Word) (h : w.tc = BitVec.allOnes 32) :
    Frame w s (s.setTc v) :=
  ⟨fun _ _ => rfl, rfl, rfl, by rw [h]; exact and_not_allOnes _ _, fun _ _ => rfl, fun _ => rfl,
    rfl, rfl, rfl⟩

/-- Settles O19: that no other instruction sees TC is `exec_setTc`; the exchange of `modtc` is read
off its one next state. -/
theorem traceControlsHaveNoEffect : Obligations.TraceControlsHaveNoEffect := by
  refine ⟨exec_setTc, fun a b c s =>
    ⟨_, rfl, fun k _ => modifyBits_getLsbD _ _ _ k, by simp, rfl, ?_⟩⟩
  exact ((frame_advance s _ 4).trans (frame_setTc _ _ _ rfl)).trans (frame_setReg _ _ c _ (by simp))

end Sys2Proof.Machine
end

section
/-! Bytes and the words they make (R82, R87): the byte and the short read inside a value written,
and the bytes of a word read. From them the mixed-width reads and the bytes a fetch sees (R93). -/

namespace Sys2Proof.Machine

/-! ### Reads inside a value written -/

/-- Byte `k` of the access reads byte `k` of the value. -/
theorem Memory.load_byte_store (m : Memory) (addr : Word) (n : Width) (v : Word) (k : Nat)
    (hk : k < n.bytes) :
    (m.store addr n v).load (addr + BitVec.ofNat 32 k) .byte =
      (v.extractLsb' (8 * k) 8).setWidth 32 := by
  rw [Memory.load, Memory.store_getElem m addr n v k hk]

/-- The short at byte `k` of the access reads bytes `k` and `k + 1` of the value. -/
theorem Memory.load_short_store (m : Memory) (addr : Word) (n : Width) (v : Word) (k : Nat)
    (hk : k + 1 < n.bytes) :
    (m.store addr n v).load (addr + BitVec.ofNat 32 k) .short =
      (v.extractLsb' (8 * k) 16).setWidth 32 := by
  have hnext : addr + BitVec.ofNat 32 k + 1 = addr + BitVec.ofNat 32 (k + 1) := by
    rw [BitVec.ofNat_add, BitVec.add_assoc]
    rfl
  rw [Memory.load, hnext, Memory.store_getElem m addr n v k (by omega),
    Memory.store_getElem m addr n v (k + 1) hk,
    BitVec.extractLsb'_append_extractLsb'_eq_extractLsb' (by omega)]

/-- Settles O27: the four reads are inside the word written, at bytes 0, 1, 0 and 2 of it. -/
theorem mixedWidthReadsAreLittleEndian : Obligations.MixedWidthReadsAreLittleEndian := by
  intro m a n
  have hbyte (k : Nat) (hk : k < 4) := Memory.load_byte_store m a .word 0x11223344 k hk
  have hshort (k : Nat) (hk : k + 1 < 4) := Memory.load_short_store m a .word 0x11223344 k hk
  have hzero : a + BitVec.ofNat 32 0 = a := BitVec.add_zero a
  refine ⟨?_, hbyte 1 (by decide), ?_, hshort 2 (by decide)⟩
  · exact hzero ▸ hbyte 0 (by decide)
  · exact hzero ▸ hshort 0 (by decide)

/-! ### The bytes of a fetch -/

/-- The bytes of a word put together are the four put together. -/
theorem wordBytes_append (b₀ b₁ b₂ b₃ : Byte) :
    wordBytes (b₃ ++ b₂ ++ b₁ ++ b₀) = [b₀, b₁, b₂, b₃] := by
  simp (disch := decide) only [wordBytes, BitVec.extractLsb'_append_eq_of_le,
    BitVec.extractLsb'_append_eq_of_add_le, BitVec.extractLsb'_eq_self, Nat.reduceSub]

/-- The bytes of a word read are those at its address and the three after it. -/
theorem Memory.wordBytes_load (m : Memory) (addr : Word) :
    wordBytes (m.load addr .word) =
      (List.range 4).map fun k => m.byteAt (addr + BitVec.ofNat 32 k).toNat := by
  rw [Memory.load, wordBytes_append]
  simp [List.range_succ, -BitVec.toNat_add]

/-- The bytes fetched are those from `ip` up, as many as the length. -/
theorem State.fetchBytes_eq (s : State) :
    s.fetchBytes =
      (List.range s.fetchLength).map fun k => s.byteAt (s.ip + BitVec.ofNat 32 k) := by
  unfold State.fetchBytes State.fetchLength
  simp only [Memory.wordBytes_load, State.byteAt]
  obtain h | h := instrLength_cases (s.mem.load s.ip .word)
  · simp [h]
  · rw [if_pos h, h, List.range_add (n := 4) (m := 4), List.map_append, List.map_map]
    congr 1
    refine List.map_congr_left fun k _ => ?_
    rw [Function.comp_apply, BitVec.ofNat_add, BitVec.add_assoc]
    rfl

/-- The fetch condition of R93 on the low bits of `ip`, as a number. -/
theorem State.ipAligned_iff (s : State) : s.ipAligned = true ↔ s.ip.toNat % 4 = 0 := by
  simp [State.ipAligned, ← BitVec.toNat_inj, BitVec.extractLsb'_toNat]

theorem step_unaligned {s : State} (hcalls : s.callsPort = none) (hhalt : s.haltIp ≠ some s.ip)
    (hip : s.ip.toNat % 4 ≠ 0) : step s = .refused .unalignedFetch := by
  have halign : ¬s.ipAligned = true := mt s.ipAligned_iff.1 hip
  simp only [step, hcalls, if_neg hhalt, if_neg halign]

/-- Settles O8: the fetch reads one word or two, and their bytes are `wordBytes_load`'s. -/
theorem fetchNeedsAnAlignedIp : Obligations.FetchNeedsAnAlignedIp := by
  refine fun s => ⟨step_unaligned, s.fetchBytes_eq, fun hip => ?_⟩
  have hnext : (s.ip + 4).toNat = (s.ip.toNat + 4) % 2 ^ 32 := BitVec.toNat_add s.ip 4
  omega

end Sys2Proof.Machine
end

section
/-! Which words decode: the fields of a word as numbers, the length they give (R127), the opcodes
each format takes, and from these that the words refused at decode are the reserved ones of R170. -/

namespace Sys2Proof.Machine

/-! ### Fields as numbers -/

theorem opField_toNat (w : Word) : (opField w).toNat = w.toNat / 2 ^ 24 := by
  rw [opField, BitVec.extractLsb'_toNat, Nat.shiftRight_eq_div_pow]
  omega

theorem regFunField_toNat (w : Word) : (regFunField w).toNat = w.toNat / 2 ^ 7 % 16 := by
  rw [regFunField, BitVec.extractLsb'_toNat, Nat.shiftRight_eq_div_pow]

theorem modeField_toNat (w : Word) : (modeField w).toNat = w.toNat / 2 ^ 10 % 16 := by
  rw [modeField, BitVec.extractLsb'_toNat, Nat.shiftRight_eq_div_pow]

theorem regIndex_toNat (w : Word) :
    (regIndex w).toNat = 16 * (opField w).toNat + (regFunField w).toNat := by
  rw [regIndex, BitVec.toNat_append, ← Nat.shiftLeft_add_eq_or_of_lt (regFunField w).isLt,
    Nat.shiftLeft_eq, Nat.mul_comm]

theorem getLsbD_zero_iff (w : Word) : w.getLsbD 0 = true ↔ w.toNat % 2 = 1 := by
  rw [← BitVec.testBit_toNat, Nat.testBit_zero, decide_eq_true_iff]

/-- The MEM opcodes are those with bit 31 set. -/
theorem opField_ge_iff (w : Word) : 0x80 ≤ (opField w).toNat ↔ w.getLsbD 31 = true := by
  rw [opField_toNat, ← BitVec.testBit_toNat, Nat.testBit_eq_decide_div_mod_eq, decide_eq_true_iff]
  omega

/-! ### Length -/

/-- The modes with a displacement word all have bit 2, which is `w[12]`, set. -/
theorem modeFlags_dispWord_iff (mode : BitVec 4) : (modeFlags mode).getLsbD 3 = true ↔
    mode.getLsbD 2 = true ∧ mode ∈ [0x5#4, 0xC#4, 0xD#4, 0xE#4, 0xF#4] := by
  revert mode
  decide

theorem modeField_getLsbD_two (w : Word) : (modeField w).getLsbD 2 = w.getLsbD 12 := by
  simp [modeField]

/-- Settles O4: bit 31 is the MEM format, bit 12 a bit of the mode. -/
theorem lengthFromFirstWord : Obligations.LengthFromFirstWord := by
  intro w
  simp only [instrLength, Bool.and_eq_true, decide_eq_true_iff, opField_ge_iff,
    modeFlags_dispWord_iff, modeField_getLsbD_two]
  rfl

/-! ### The opcodes each format takes

In each split the last arm is the table's default, which no named opcode reaches. -/

/-- A list of numbers, each in range, names a value exactly where the list of values does. -/
theorem toNat_mem_iff {n : Nat} {l : List Nat} (hl : ∀ k ∈ l, k < 2 ^ n) (v : BitVec n) :
    v.toNat ∈ l ↔ v ∈ l.map (BitVec.ofNat n) := by
  constructor
  · exact fun h => List.mem_map.2 ⟨_, h, by simp⟩
  · intro h
    obtain ⟨k, hk, rfl⟩ := List.mem_map.1 h
    rwa [BitVec.toNat_ofNat, Nat.mod_eq_of_lt (hl k hk)]

/-- The CTRL opcodes (R160) and the reserved bit (R130). -/
theorem decodeCtrl_isOk_iff (w : Word) (h : (opField w).toNat < 0x20) :
    (decodeCtrl w).isOk = true ↔
      ¬((opField w).toNat < 0x08 ∨ (0x0C ≤ (opField w).toNat ∧ (opField w).toNat < 0x10) ∨
        w.getLsbD 0 = true) := by
  unfold decodeCtrl
  generalize opField w = op at *
  generalize w.getLsbD 0 = reserved
  cases reserved with
  | true => exact iff_of_false Bool.false_ne_true (by simp)
  | false =>
    simp only [Bool.false_eq_true, if_false, or_false]
    split
    case h_21 =>
      simp only [imp_false] at *
      exact iff_of_false Bool.false_ne_true (by bv_omega)
    all_goals exact iff_of_true rfl (by decide)

/-- The COBR opcodes (R161) and the reserved bit (R133). -/
theorem decodeCobr_isOk_iff (w : Word) (h : 0x20 ≤ (opField w).toNat)
    (h' : (opField w).toNat < 0x40) :
    (decodeCobr w).isOk = true ↔
      ¬((0x28 ≤ (opField w).toNat ∧ (opField w).toNat < 0x30) ∨ w.getLsbD 0 = true) := by
  unfold decodeCobr
  generalize opField w = op at *
  generalize w.getLsbD 0 = reserved
  cases reserved with
  | true => exact iff_of_false Bool.false_ne_true (by simp)
  | false =>
    simp only [Bool.false_eq_true, if_false, or_false]
    split
    case h_25 =>
      simp only [imp_false] at *
      exact iff_of_false Bool.false_ne_true (by bv_omega)
    all_goals exact iff_of_true rfl (by decide)

/-- The REG indices (R162). -/
theorem decodeReg_isOk_iff (w : Word) :
    (decodeReg w).isOk = true ↔ (regIndex w).toNat ∈ namedRegIndices := by
  rw [toNat_mem_iff (by decide)]
  unfold decodeReg
  generalize regIndex w = index
  split
  case h_114 => exact iff_of_false Bool.false_ne_true (by simp_all [namedRegIndices])
  all_goals exact iff_of_true rfl (by decide)

theorem decodeMemOperand_eq_none_iff (w disp : Word) :
    decodeMemOperand w disp = none ↔ modeField w = 6 := by
  unfold decodeMemOperand
  generalize modeField w = mode
  split <;> simp_all

/-- The MEM opcodes (R163) and the reserved mode (R152). -/
theorem decodeMem_isOk_iff (w disp : Word) :
    (decodeMem w disp).isOk = true ↔
      ¬(modeField w = 6 ∨ (opField w).toNat ∉ namedMemOpcodes) := by
  rw [← decodeMemOperand_eq_none_iff w disp, toNat_mem_iff (by decide)]
  unfold decodeMem
  generalize opField w = op
  split
  next hnone => exact iff_of_false Bool.false_ne_true (by simp [hnone])
  next hsome =>
    split
    case h_21 => exact iff_of_false Bool.false_ne_true (by simp_all [namedMemOpcodes])
    all_goals exact iff_of_true rfl (by simp [hsome, namedMemOpcodes])

/-! ### The reserved words -/

/-- R170 in the fields of the word. -/
theorem invalidWord_iff (w : Word) : InvalidWord w ↔
    ((opField w).toNat < 0x20 ∧ ((opField w).toNat < 0x08 ∨
      (0x0C ≤ (opField w).toNat ∧ (opField w).toNat < 0x10) ∨ w.getLsbD 0 = true)) ∨
    (0x20 ≤ (opField w).toNat ∧ (opField w).toNat < 0x40 ∧
      ((0x28 ≤ (opField w).toNat ∧ (opField w).toNat < 0x30) ∨ w.getLsbD 0 = true)) ∨
    (0x40 ≤ (opField w).toNat ∧ (opField w).toNat < 0x80 ∧
      (regIndex w).toNat ∉ namedRegIndices) ∨
    (0x80 ≤ (opField w).toNat ∧ (modeField w = 6 ∨ (opField w).toNat ∉ namedMemOpcodes)) := by
  simp only [← BitVec.toNat_inj, regIndex_toNat, regFunField_toNat, modeField_toNat, opField_toNat,
    getLsbD_zero_iff]
  rfl

/-- A word decodes, whatever the displacement word, exactly where R170 does not reserve it. -/
theorem decodeWords_isOk_iff (w disp : Word) :
    (decodeWords w disp).isOk = true ↔ ¬InvalidWord w := by
  rw [invalidWord_iff]
  obtain h | h := Nat.lt_or_ge (opField w).toNat 0x20
  · rw [decodeWords_ctrl w disp h, decodeCtrl_isOk_iff w h]
    grind
  obtain h' | h' := Nat.lt_or_ge (opField w).toNat 0x40
  · rw [decodeWords_cobr w disp h h', decodeCobr_isOk_iff w h h']
    grind
  obtain h'' | h'' := Nat.lt_or_ge (opField w).toNat 0x80
  · rw [decodeWords_reg w disp h' h'', decodeReg_isOk_iff]
    grind
  · rw [decodeWords_mem w disp h'', decodeMem_isOk_iff]
    grind

/-! ### Fetch -/

/-- What is decoded at `ip` is the word there, with some displacement word. -/
theorem State.decode_fetchBytes (s : State) : ∃ disp,
    decode s.fetchBytes = (decodeWords (s.mem.load s.ip .word) disp).map (·, []) := by
  unfold State.fetchBytes
  obtain h | h := instrLength_cases (s.mem.load s.ip .word)
  · exact ⟨0, by simpa [h] using decode_short _ [] h⟩
  · exact ⟨_, by simpa [h] using decode_long _ (s.mem.load (s.ip + 4) .word) [] h⟩

theorem step_of_decode_error {s : State} {e : Reject} (hcalls : s.callsPort = none)
    (hhalt : s.haltIp ≠ some s.ip) (hip : s.ip.toNat % 4 = 0)
    (he : decode s.fetchBytes = .error e) :
    step s = raise .invalidOpcode s.ip (s.advance s.fetchLength) := by
  simp only [step, hcalls, if_neg hhalt, if_pos (s.ipAligned_iff.2 hip), he]

/-- Settles O5: the word at `ip` decodes or not by `decodeWords_isOk_iff`. -/
theorem invalidOpcodesAreExactlyTheReserved : Obligations.InvalidOpcodesAreExactlyTheReserved := by
  intro s hcalls hhalt hip w
  obtain ⟨disp, hdecode⟩ := s.decode_fetchBytes
  have hok : (decodeWords w disp).isOk = true ↔ ¬InvalidWord w := decodeWords_isOk_iff w disp
  cases hw : decodeWords w disp with
  | ok i =>
    rw [hw] at hok hdecode
    exact ⟨fun h => absurd h (hok.1 rfl), fun _ => ⟨i, [], hdecode⟩⟩
  | error e =>
    rw [hw] at hok hdecode
    exact ⟨fun _ => step_of_decode_error hcalls hhalt hip hdecode,
      fun h => absurd (hok.2 h) Bool.false_ne_true⟩

end Sys2Proof.Machine
end

section
/-! Primitives through the instructions that use them (40_primitives.md): a source operand after a
write, the range check that a compare and a conditional compare make (R228), and the laws of the bit
primitives (R204) with the bit that `chkbit` then reads (R472). -/

namespace Sys2Proof.Machine

/-! ### A source operand after a write -/

@[simp] theorem srcValue_reg (s : State) (r : Reg) : srcValue s (.reg r) = s.reg r := rfl

@[simp] theorem srcValue_advance (s : State) (n : Nat) (a : Src) :
    srcValue (s.advance n) a = srcValue s a := by
  cases a <;> rfl

@[simp] theorem srcValue_setCc (s : State) (v : BitVec 3) (a : Src) :
    srcValue (s.setCc v) a = srcValue s a := by
  cases a <;> rfl

theorem srcValue_setReg_of_ne (s : State) {a : Src} {c : Reg} (v : Word) (h : a ≠ .reg c) :
    srcValue (s.setReg c v) a = srcValue s a := by
  cases a with
  | reg r =>
    have hr : r ≠ c := fun e => h (e ▸ rfl)
    simp [srcValue, hr]
  | lit n => rfl

/-! ### Compares, for both signednesses (R226, R227) -/

/-- The number a word stands for. -/
def Signedness.value : Signedness → Word → Int
  | .ordinal, a => a.toNat
  | .integer, a => a.toInt

theorem lessThan_iff (sg : Signedness) (a b : Word) :
    lessThan sg a b = true ↔ sg.value a < sg.value b := by
  cases sg <;> simp [lessThan, Signedness.value]

/-- Bit 2 of a compare's code is its less. -/
theorem cmpCode_getLsbD_two (sg : Signedness) (a b : Word) :
    (cmpCode sg a b).getLsbD 2 = lessThan sg a b := by
  unfold cmpCode
  split
  · next h => rw [h]; rfl
  · next h =>
    rw [Bool.eq_false_iff.2 h]
    split <;> rfl

theorem cmpCode_of_lessThan {sg : Signedness} {a b : Word} (h : lessThan sg a b = true) :
    cmpCode sg a b = 4 :=
  if_pos h

theorem concmpAc_of_less {sg : Signedness} {a b ac : Word} (h : (ccOf ac).getLsbD 2 = true) :
    concmpAc sg a b ac = ac :=
  if_pos h

theorem concmpAc_of_not_less {sg : Signedness} {a b ac : Word} (h : (ccOf ac).getLsbD 2 = false) :
    concmpAc sg a b ac = withCc ac (if lessThan sg b a then 1 else 2) :=
  if_neg (Bool.eq_false_iff.1 h)

/-- The compare of a signedness (R461, R462). -/
def Signedness.cmp : Signedness → Src → Src → Instr
  | .ordinal => .cmpo
  | .integer => .cmpi

/-- The conditional compare of a signedness (R463, R464). -/
def Signedness.concmp : Signedness → Src → Src → Instr
  | .ordinal => .concmpo
  | .integer => .concmpi

theorem exec_cmp (sg : Signedness) (a b : Src) (s : State) :
    exec (sg.cmp a b) s = writeCc (cmpCode sg (srcValue s a) (srcValue s b)) s := by
  cases sg <;> rfl

theorem exec_concmp (sg : Signedness) (a b : Src) (s : State) :
    exec (sg.concmp a b) s =
      .next ((s.advance 4).setAc (concmpAc sg (srcValue s a) (srcValue s b) s.ac)) := by
  cases sg <;> rfl

/-! ### The range check (R228) -/

/-- The code the two compares leave. -/
def rangeCode (sg : Signedness) (x lo hi : Word) : BitVec 3 :=
  if lessThan sg x lo then 4 else if lessThan sg hi x then 1 else 2

/-- A less of the first compare stops the second; else the second writes its own code. -/
theorem ccOf_concmpAc_cmpCode (sg : Signedness) (x lo hi ac : Word) :
    ccOf (concmpAc sg x hi (withCc ac (cmpCode sg x lo))) = rangeCode sg x lo hi := by
  have hbit : (ccOf (withCc ac (cmpCode sg x lo))).getLsbD 2 = lessThan sg x lo := by
    rw [ccOf_withCc, cmpCode_getLsbD_two]
  cases h : lessThan sg x lo with
  | true =>
    rw [concmpAc_of_less (hbit.trans h), ccOf_withCc, cmpCode_of_lessThan h, rangeCode, if_pos h]
  | false =>
    rw [concmpAc_of_not_less (hbit.trans h), ccOf_withCc, rangeCode,
      if_neg (Bool.eq_false_iff.1 h)]

theorem exec_cmp_concmp (sg : Signedness) (x lo hi : Src) (s : State) :
    ∃ t u, exec (sg.cmp x lo) s = .next t ∧ exec (sg.concmp x hi) t = .next u ∧
      ccOf u.ac = rangeCode sg (srcValue s x) (srcValue s lo) (srcValue s hi) := by
  refine ⟨_, _, exec_cmp sg x lo s, exec_concmp sg x hi _, ?_⟩
  simpa using ccOf_concmpAc_cmpCode sg (srcValue s x) (srcValue s lo) (srcValue s hi) s.ac

/-- Below, inside and above the range, for the numbers of either signedness. -/
theorem rangeCode_of_le {sg : Signedness} {x lo hi : Word} (h : sg.value lo ≤ sg.value hi) :
    (sg.value x < sg.value lo → rangeCode sg x lo hi = 4) ∧
    (sg.value lo ≤ sg.value x → sg.value x ≤ sg.value hi → rangeCode sg x lo hi = 2) ∧
    (sg.value hi < sg.value x → rangeCode sg x lo hi = 1) := by
  simp only [rangeCode, lessThan_iff]
  refine ⟨fun hlt => if_pos hlt, fun hlo hhi => ?_, fun hgt => ?_⟩
  · rw [if_neg (by omega), if_neg (by omega)]
  · rw [if_neg (by omega), if_pos hgt]

theorem cmp_concmp_sorts (sg : Signedness) (x lo hi : Src) (s : State)
    (h : sg.value (srcValue s lo) ≤ sg.value (srcValue s hi)) :
    ∃ t u, exec (sg.cmp x lo) s = .next t ∧ exec (sg.concmp x hi) t = .next u ∧
      (sg.value (srcValue s x) < sg.value (srcValue s lo) → ccOf u.ac = 4) ∧
      (sg.value (srcValue s lo) ≤ sg.value (srcValue s x) →
        sg.value (srcValue s x) ≤ sg.value (srcValue s hi) → ccOf u.ac = 2) ∧
      (sg.value (srcValue s hi) < sg.value (srcValue s x) → ccOf u.ac = 1) := by
  obtain ⟨t, u, ht, hu, hcc⟩ := exec_cmp_concmp sg x lo hi s
  exact ⟨t, u, ht, hu, hcc ▸ rangeCode_of_le h⟩

/-- Settles O29: `cmp_concmp_sorts` at either signedness. -/
theorem rangeCheckIdiom : Obligations.RangeCheckIdiom := by
  intro x lo hi s
  refine ⟨fun h => ?_, cmp_concmp_sorts .integer x lo hi s⟩
  simpa only [Signedness.value, Signedness.cmp, Signedness.concmp, Int.ofNat_lt, Int.ofNat_le] using
    cmp_concmp_sorts .ordinal x lo hi s (Int.ofNat_le.2 h)

/-! ### The bit primitives (R200, R201, R204) -/

theorem bitMask_getLsbD (p : Word) (k : Nat) :
    (bitMask p).getLsbD k = decide (p.toNat % 32 = k) := by
  have hlt : p.toNat % 32 < 32 := Nat.mod_lt _ (by decide)
  rw [bitMask, ← BitVec.twoPow_eq, BitVec.getLsbD_twoPow, decide_eq_true hlt, Bool.true_and]

/-- The bit of the position is set in the mask. -/
theorem bitMask_getLsbD_self (p : Word) : (bitMask p).getLsbD (p.toNat % 32) = true := by
  simp [bitMask_getLsbD]

theorem bitSelect_or_bitMask (x p : Word) : bitSelect (x ||| bitMask p) p = true := by
  rw [bitSelect, BitVec.getLsbD_or, bitMask_getLsbD_self, Bool.or_true]

theorem bitSelect_and_not_bitMask (x p : Word) : bitSelect (x &&& ~~~bitMask p) p = false := by
  simp [bitSelect, bitMask_getLsbD_self]

/-- What is or-ed in need not be cleared first. -/
theorem and_not_or_self (x m : Word) : (x &&& ~~~m) ||| m = x ||| m := by
  ext k hk
  cases hm : m[k] <;> simp [hm]

/-! ### The bit instructions -/

/-- After a write of one register it holds the value, and an operand other than it is as before. -/
theorem writeReg_reads {p : Src} {c : Reg} (hp : p ≠ .reg c) (v : Word) (s : State) :
    ∃ t, writeReg c v s = .next t ∧ t.reg c = v ∧ srcValue t p = srcValue s p :=
  ⟨_, rfl, by simp, by rw [srcValue_setReg_of_ne _ _ hp, srcValue_advance]⟩

section
variable {p : Src} {c : Reg} (hp : p ≠ .reg c) (x : Src) (s : State)
include hp

theorem exec_notbit_reads : ∃ t, exec (.notbit p x c) s = .next t ∧
    t.reg c = srcValue s x ^^^ bitMask (srcValue s p) ∧ srcValue t p = srcValue s p :=
  writeReg_reads hp _ s

theorem exec_setbit_reads : ∃ t, exec (.setbit p x c) s = .next t ∧
    t.reg c = srcValue s x ||| bitMask (srcValue s p) ∧ srcValue t p = srcValue s p :=
  writeReg_reads hp _ s

theorem exec_clrbit_reads : ∃ t, exec (.clrbit p x c) s = .next t ∧
    t.reg c = srcValue s x &&& ~~~bitMask (srcValue s p) ∧ srcValue t p = srcValue s p :=
  writeReg_reads hp _ s

end

theorem exec_chkbit_code (p x : Src) (s : State) : ∃ t, exec (.chkbit p x) s = .next t ∧
    ccOf t.ac = matchCode (bitSelect (srcValue s x) (srcValue s p)) :=
  ⟨_, rfl, by rw [State.setCc_ac, ccOf_withCc]⟩

/-! ### The laws (R204) and the bit read after them (R472) -/

theorem clrbit_setbit_chkbit {p : Src} {c : Reg} (hp : p ≠ .reg c) (x : Src) (s : State) :
    ∃ t u v, exec (.clrbit p x c) s = .next t ∧ exec (.setbit p (.reg c) c) t = .next u ∧
      u.reg c = srcValue s x ||| bitMask (srcValue s p) ∧
      exec (.chkbit p (.reg c)) u = .next v ∧ ccOf v.ac = 2 := by
  obtain ⟨t, ht, htc, htp⟩ := exec_clrbit_reads hp x s
  obtain ⟨u, hu, huc, hup⟩ := exec_setbit_reads hp (.reg c) t
  obtain ⟨v, hv, hcc⟩ := exec_chkbit_code p (.reg c) u
  have hset : u.reg c = srcValue s x ||| bitMask (srcValue s p) := by
    rw [huc, srcValue_reg, htc, htp, and_not_or_self]
  refine ⟨t, u, v, ht, hu, hset, hv, ?_⟩
  rw [hcc, srcValue_reg, hset, hup, htp, bitSelect_or_bitMask]
  rfl

theorem clrbit_chkbit {p : Src} {c : Reg} (hp : p ≠ .reg c) (x : Src) (s : State) :
    ∃ t u, exec (.clrbit p x c) s = .next t ∧ exec (.chkbit p (.reg c)) t = .next u ∧
      ccOf u.ac = 0 := by
  obtain ⟨t, ht, htc, htp⟩ := exec_clrbit_reads hp x s
  obtain ⟨u, hu, hcc⟩ := exec_chkbit_code p (.reg c) t
  refine ⟨t, u, ht, hu, ?_⟩
  rw [hcc, srcValue_reg, htc, htp, bitSelect_and_not_bitMask]
  rfl

theorem notbit_notbit {p : Src} {c : Reg} (hp : p ≠ .reg c) (x : Src) (s : State) :
    ∃ t u, exec (.notbit p x c) s = .next t ∧ exec (.notbit p (.reg c) c) t = .next u ∧
      u.reg c = srcValue s x := by
  obtain ⟨t, ht, htc, htp⟩ := exec_notbit_reads hp x s
  obtain ⟨u, hu, huc, -⟩ := exec_notbit_reads hp (.reg c) t
  refine ⟨t, u, ht, hu, ?_⟩
  rw [huc, srcValue_reg, htc, htp, BitVec.xor_assoc, BitVec.xor_self, BitVec.xor_zero]

/-- Settles O30: the three laws, each the run of its instructions. -/
theorem bitPrimitiveLaws : Obligations.BitPrimitiveLaws := fun _ x _ s hp =>
  ⟨clrbit_setbit_chkbit hp x s, clrbit_chkbit hp x s, notbit_notbit hp x s⟩

end Sys2Proof.Machine
end

section
/-! The COBR branches (42_cobr.md): the displacement as a number of bytes, the code of a compare as
the order of the numbers, the state a branch with a code lands in, and from these the bit branches
(R302) and the compare branches (R301). -/

namespace Sys2Proof.Machine

/-! ### The target (R133) -/

/-- The two zero bits below a displacement make it a count of words. -/
theorem signExtend_append_zeros {n : Nat} (d : BitVec n) :
    (d ++ 0#2).signExtend 32 = BitVec.ofInt 32 (4 * d.toInt) := by
  rw [BitVec.signExtend, BitVec.toInt_append_zero]
  rfl

theorem cobrTarget_eq (d : BitVec 11) (s : State) :
    cobrTarget d s = s.ip + BitVec.ofInt 32 (4 * d.toInt) := by
  rw [cobrTarget, signExtend_append_zeros]

/-! ### The code of a compare (R226) and a condition of it (R230) -/

theorem Signedness.value_inj (sg : Signedness) {a b : Word} : sg.value a = sg.value b ↔ a = b := by
  cases sg with
  | ordinal => exact Int.ofNat_inj.trans BitVec.toNat_inj
  | integer => exact BitVec.toInt_inj

theorem cmpCode_eq_orderCode (sg : Signedness) (a b : Word) :
    cmpCode sg a b = orderCode (sg.value a) (sg.value b) := by
  simp only [cmpCode, orderCode, lessThan_iff, sg.value_inj]

theorem orderCode_cases (x y : Int) :
    orderCode x y = 4 ∨ orderCode x y = 2 ∨ orderCode x y = 1 := by
  unfold orderCode
  split
  · exact .inl rfl
  · split
    · exact .inr (.inl rfl)
    · exact .inr (.inr rfl)

/-- `o` holds of every compare's code. -/
theorem seven_and_orderCode (x y : Int) : 7 &&& (orderCode x y).toNat ≠ 0 := by
  obtain h | h | h := orderCode_cases x y <;> rw [h] <;> decide

theorem orderCode_toNat_ne_zero (x y : Int) : (orderCode x y).toNat ≠ 0 :=
  fun h => seven_and_orderCode x y (by rw [h, Nat.and_zero])

/-- Where some bit of CC is set, R231's special case for `no` agrees with the bit test: it fails. -/
theorem checkCond_iff_and_ne_zero (cond : Cond) {ac : Word} (h : (ccOf ac).toNat ≠ 0) :
    checkCond cond ac = true ↔ cond.mask.toNat &&& (ccOf ac).toNat ≠ 0 := by
  rw [checkCond_iff, ConditionTrue, ← ccOf_toNat]
  constructor
  · rintro (⟨-, hcc⟩ | ⟨-, hbit⟩)
    · exact absurd hcc h
    · exact hbit
  · exact fun hbit => .inr ⟨fun hmask => hbit (by rw [hmask, Nat.zero_and]), hbit⟩

theorem checkCond_withCc_orderCode (cond : Cond) (ac : Word) (x y : Int) :
    checkCond cond (withCc ac (orderCode x y)) = true ↔
      cond.mask.toNat &&& (orderCode x y).toNat ≠ 0 := by
  rw [checkCond_iff_and_ne_zero cond] <;> rw [ccOf_withCc]
  exact orderCode_toNat_ne_zero x y

/-! ### A branch that leaves a code -/

/-- What a COBR branch makes of a state: `code` in CC, the displacement taken or not, no more. -/
def Lands (code : BitVec 3) (taken : Prop) [Decidable taken] (d : BitVec 11) (s t : State) : Prop :=
  ccOf t.ac = code ∧
    t.ip = (if taken then s.ip + BitVec.ofInt 32 (4 * d.toInt) else s.ip + 4) ∧
    Frame { ac := 7 } s t

/-- The state that both kinds of COBR branch end in. -/
theorem lands_setCc (code : BitVec 3) (taken : Prop) [Decidable taken] (d : BitVec 11) (s : State) :
    Lands code taken d s
      (if taken then ((s.advance 4).setCc code).setIp (cobrTarget d s)
        else (s.advance 4).setCc code) := by
  have hframe : Frame { ac := 7 } s ((s.advance 4).setCc code) :=
    (frame_advance s _ 4).trans (frame_setCc _ _ code rfl)
  split
  · next h => exact ⟨ccOf_withCc _ _, by rw [if_pos h, ← cobrTarget_eq]; rfl,
      hframe.trans (frame_setIp _ _ _)⟩
  · next h => exact ⟨ccOf_withCc _ _, by rw [if_neg h]; rfl, hframe⟩

/-! ### Branch on a bit (R302) -/

theorem bitBranch_lands (c0 : Bool) (a : Src) (b : Reg) (d : BitVec 11) (s : State) :
    ∃ t, bitBranch c0 a b d s = .next t ∧
      Lands (if bitSelect (s.reg b) (srcValue s a) = c0 then 2 else 0)
        (bitSelect (s.reg b) (srcValue s a) = c0) d s t := by
  refine ⟨_, ?_, lands_setCc _ _ d s⟩
  simp only [bitBranch, matchCode, beq_iff_eq]

/-- Settles O34: both instructions are `bitBranch`, at the bit's two values. -/
theorem bitTestBranches : Obligations.BitTestBranches := by
  simp only [Obligations.BitTestBranches, List.forall_mem_cons]
  exact ⟨bitBranch_lands false, bitBranch_lands true, fun _ h => nomatch h⟩

/-! ### Compare and branch (R301) -/

/-- The condition is asked of the code just written, which always has a bit. -/
theorem compareBranch_lands (sg : Signedness) (cond : Cond) (a : Src) (b : Reg) (d : BitVec 11)
    (s : State) :
    ∃ t, compareBranch sg cond a b d s = .next t ∧
      Lands (orderCode (sg.value (srcValue s a)) (sg.value (s.reg b)))
        (cond.mask.toNat &&&
          (orderCode (sg.value (srcValue s a)) (sg.value (s.reg b))).toNat ≠ 0) d s t := by
  refine ⟨_, ?_, lands_setCc _ _ d s⟩
  simp only [compareBranch, State.setCc_ac, State.advance_ac, cmpCode_eq_orderCode,
    checkCond_withCc_orderCode]

/-- Settles O35: each row is `compareBranch` at the condition of its number; `no` has no bit to
share with the code and `o` has all of them. -/
theorem compareAndBranch : Obligations.CompareAndBranch := by
  simp only [Obligations.CompareAndBranch, List.forall_mem_cons]
  refine ⟨?_, ?_, fun a b d s => ⟨?_, ?_⟩⟩
  · exact ⟨compareBranch_lands .ordinal .g, compareBranch_lands .ordinal .e,
      compareBranch_lands .ordinal .ge, compareBranch_lands .ordinal .l,
      compareBranch_lands .ordinal .ne, compareBranch_lands .ordinal .le, fun _ h => nomatch h⟩
  · exact ⟨compareBranch_lands .integer .no, compareBranch_lands .integer .g,
      compareBranch_lands .integer .e, compareBranch_lands .integer .ge,
      compareBranch_lands .integer .l, compareBranch_lands .integer .ne,
      compareBranch_lands .integer .le, compareBranch_lands .integer .o, fun _ h => nomatch h⟩
  · obtain ⟨t, ht, -, hip, -⟩ := compareBranch_lands .integer .no a b d s
    exact ⟨t, ht, hip.trans (if_neg fun h => h (Nat.zero_and _))⟩
  · obtain ⟨t, ht, -, hip, -⟩ := compareBranch_lands .integer .o a b d s
    exact ⟨t, ht, hip.trans (if_pos (seven_and_orderCode _ _))⟩

end Sys2Proof.Machine
end

section
/-! The logic and bit instructions (43_reg_logic.md): each writes one register, so a row is settled
by the bits of the word it writes. The words are read bit by bit through a truth table (R370) or, in
the bit rows, through the one bit of the mask (R201). -/

namespace Sys2Proof.Machine

/-! ### Writing a word whose bits are known -/

/-- `r` is a completed write of a word with these bits to register `c`, and of nothing else. -/
def WritesBits (c : Reg) (bit : Nat → Bool) (s : State) (r : Result) : Prop :=
  ∃ t, r = .next t ∧ (∀ k < 32, (t.reg c).getLsbD k = bit k) ∧ t.ip = s.ip + 4 ∧
    Frame { regs := [c] } s t

theorem writeReg_writesBits {c : Reg} {v : Word} {bit : Nat → Bool} {s : State}
    (h : ∀ k < 32, v.getLsbD k = bit k) : WritesBits c bit s (writeReg c v s) :=
  ⟨_, rfl, by simpa using h, rfl, frame_writeReg List.mem_cons_self rfl⟩

/-! ### The truth tables -/

/-- The word operation `g` is the truth table `f` at every bit. -/
def Tabulates (f : Bool → Bool → Bool) (g : Word → Word → Word) : Prop :=
  ∀ x y, ∀ k < 32, (g x y).getLsbD k = f (x.getLsbD k) (y.getLsbD k)

section
variable {f : Bool → Bool → Bool} {g : Word → Word → Word}

theorem tabulates_fst : Tabulates (fun a _ => a) fun x _ => x := fun _ _ _ _ => rfl

theorem tabulates_snd : Tabulates (fun _ b => b) fun _ y => y := fun _ _ _ _ => rfl

theorem Tabulates.not (h : Tabulates f g) : Tabulates (fun a b => !f a b) fun x y => ~~~g x y :=
  fun x y k hk => by rw [BitVec.getLsbD_not, decide_eq_true hk, Bool.true_and, h x y k hk]

variable {f' : Bool → Bool → Bool} {g' : Word → Word → Word}

theorem Tabulates.and (h : Tabulates f g) (h' : Tabulates f' g') :
    Tabulates (fun a b => f a b && f' a b) fun x y => g x y &&& g' x y :=
  fun x y k hk => by rw [BitVec.getLsbD_and, h x y k hk, h' x y k hk]

theorem Tabulates.or (h : Tabulates f g) (h' : Tabulates f' g') :
    Tabulates (fun a b => f a b || f' a b) fun x y => g x y ||| g' x y :=
  fun x y k hk => by rw [BitVec.getLsbD_or, h x y k hk, h' x y k hk]

theorem Tabulates.xor (h : Tabulates f g) (h' : Tabulates f' g') :
    Tabulates (fun a b => f a b != f' a b) fun x y => g x y ^^^ g' x y :=
  fun x y k hk => by rw [BitVec.getLsbD_xor, h x y k hk, h' x y k hk]

end

/-- The table of `xnor`, which R360 computes as the complement of `xor`. -/
theorem tabulates_xnor : Tabulates (fun a b => a == b) fun x y => ~~~(x ^^^ y) :=
  fun x y k hk => ((tabulates_fst.xor tabulates_snd).not x y k hk).trans (Bool.not_not _)

/-- A row that writes a tabulated word writes the table's bits. -/
theorem Tabulates.row {f : Bool → Bool → Bool} {g : Word → Word → Word} (h : Tabulates f g)
    (a b : Src) (c : Reg) (s : State) :
    WritesBits c (fun k => f ((srcValue s a).getLsbD k) ((srcValue s b).getLsbD k)) s
      (writeReg c (g (srcValue s a) (srcValue s b)) s) :=
  writeReg_writesBits (h _ _)

/-! ### The filler (R356) -/

theorem filler585_writesBits (a b : Src) (c : Reg) (s : State) :
    WritesBits c (fun k =>
        if s.params.filler585 = .notand then (srcValue s a).getLsbD k && !(srcValue s b).getLsbD k
        else (srcValue s a).getLsbD k != (srcValue s b).getLsbD k) s
      (exec (.filler585 a b c) s) := by
  have hexec : exec (.filler585 a b c) s = execFiller585 a b c s := rfl
  rw [hexec, execFiller585]
  cases s.params.filler585 with
  | notand => exact (tabulates_fst.and tabulates_snd.not).row a b c s
  | xor => exact (tabulates_fst.xor tabulates_snd).row a b c s

/-! ### The bit rows -/

/-- `v` is `y` but for the bit at `x mod 32`, which is `new` of the one in `y`. -/
def AltersBit (new : Bool → Bool) (x y v : Word) : Prop :=
  ∀ k < 32, v.getLsbD k = if k = x.toNat % 32 then new (y.getLsbD k) else y.getLsbD k

theorem xor_bitMask_altersBit (x y : Word) : AltersBit (fun old => !old) x y (y ^^^ bitMask x) := by
  intro k _
  rw [BitVec.getLsbD_xor, bitMask_getLsbD]
  split
  next h => rw [decide_eq_true h.symm, Bool.xor_true]
  next h => rw [decide_eq_false (Ne.symm h), Bool.xor_false]

theorem or_bitMask_altersBit (x y : Word) : AltersBit (fun _ => true) x y (y ||| bitMask x) := by
  intro k _
  rw [BitVec.getLsbD_or, bitMask_getLsbD]
  split
  next h => rw [decide_eq_true h.symm, Bool.or_true]
  next h => rw [decide_eq_false (Ne.symm h), Bool.or_false]

theorem and_not_bitMask_altersBit (x y : Word) :
    AltersBit (fun _ => false) x y (y &&& ~~~bitMask x) := by
  intro k hk
  rw [BitVec.getLsbD_and, BitVec.getLsbD_not, bitMask_getLsbD, decide_eq_true hk, Bool.true_and]
  split
  next h => rw [decide_eq_true h.symm, Bool.not_true, Bool.and_false]
  next h => rw [decide_eq_false (Ne.symm h), Bool.not_false, Bool.and_true]

theorem alterBit_altersBit (x y : Word) (value : Bool) :
    AltersBit (fun _ => value) x y (alterBit y x value) := by
  cases value with
  | true => exact or_bitMask_altersBit x y
  | false => exact and_not_bitMask_altersBit x y

/-! ### The rows together -/

/-- Settles O36: the bitwise rows are built from their operands' tables as their words are, and each
bit row writes a word that `AltersBit` describes. -/
theorem logicTruthTables : Obligations.LogicTruthTables := by
  simp only [Obligations.LogicTruthTables, List.forall_mem_cons]
  have a := tabulates_fst
  have b := tabulates_snd
  refine ⟨?bitwise, filler585_writesBits, ?bits⟩
  case bitwise =>
    exact ⟨(a.and b).row, (b.and a.not).row, (a.and b.not).row, (a.xor b).row, (a.or b).row,
      (a.or b).not.row, tabulates_xnor.row, a.not.row, (b.or a.not).row, (a.or b.not).row,
      (a.and b).not.row, fun _ h => nomatch h⟩
  case bits =>
    exact ⟨fun _ _ _ _ => writeReg_writesBits (xor_bitMask_altersBit _ _),
      fun _ _ _ _ => writeReg_writesBits (or_bitMask_altersBit _ _),
      fun _ _ _ _ => writeReg_writesBits (and_not_bitMask_altersBit _ _),
      fun _ _ _ _ => writeReg_writesBits (alterBit_altersBit _ _ _), fun _ h => nomatch h⟩

end Sys2Proof.Machine
end

section
/-! The faults (60_exceptions.md): every fault an instruction can raise, with the state it leaves,
said once by running the instruction beside itself with the overflow masked. From it the supervisor
check (R764) and, with the length of a decoded instruction, what a faulting step has committed
(R766). -/

namespace Sys2Proof.Machine

/-! ### What a fault leaves -/

/-- The change that sets OM. -/
def ControlMap.maskOverflow : ControlMap := { ac := fun ac => ac ||| 0x1000#32 }

open ControlMap (maskOverflow)

/-- OM is no part of a condition. -/
theorem checkCond_maskOverflow (cond : Cond) (s : State) :
    checkCond cond (maskOverflow.onState s).ac = checkCond cond s.ac := by
  have hcc : ccOf (s.ac ||| 0x1000#32) = ccOf s.ac := by
    rw [ccOf, BitVec.extractLsb'_or]
    exact BitVec.or_zero
  simp only [checkCond, maskOverflow, ControlMap.onState, hcc]

/-- The stores under the overflow policy (R732, R733). -/
def ChecksStore (i : Instr) : Prop := ∃ c m, i = .stib c m ∨ i = .stis c m

/-- The fault `i` raises in `s` and the state it leaves, where `masked` is the outcome of `i` in `s`
with the overflow masked: `ip` alone has changed, or an overflow has been written. -/
inductive FaultLeaves (i : Instr) (s : State) (masked : Result) : FaultType → State → Prop
  | privilege (hpriv : Privileged s i) (huser : emOf s.pc = false) :
    FaultLeaves i s masked .typeMismatch (s.setIp (s.ip + lengthOf i))
  | condition : FaultLeaves i s masked .constraintRange (s.setIp (s.ip + lengthOf i))
  | divisor : FaultLeaves i s masked .divisionByZero (s.setIp (s.ip + lengthOf i))
  | unchanged (hw : s.params.overflowWrite = .unchanged) :
    FaultLeaves i s masked .integerOverflow (s.setIp (s.ip + lengthOf i))
  | written {t : State} (hw : s.params.overflowWrite = .written) (hmasked : masked = .next t)
    (hip : t.ip = s.ip + lengthOf i) (hmem : ChecksStore i ∨ t.mem = s.mem) :
    FaultLeaves i s masked .integerOverflow (t.setAc s.ac)

/-- Every fault of the outcome names `s.ip` and is one of `FaultLeaves`. -/
def FaultsAs (i : Instr) (s : State) (masked r : Result) : Prop :=
  ∀ e p u, r = .fault (.raised e p u) → p = s.ip ∧ FaultLeaves i s masked e u

namespace FaultsAs

variable {i : Instr} {s : State} {masked : Result}

/-! ### The faults of the shared operations -/

theorem next {t : State} : FaultsAs i s masked (.next t) := nofun

theorem refused {r : Refusal} : FaultsAs i s masked (.refused r) := nofun

theorem ite {c : Prop} [Decidable c] {k l : Result} (hk : c → FaultsAs i s masked k)
    (hl : ¬c → FaultsAs i s masked l) : FaultsAs i s masked (if c then k else l) := by
  split
  next h => exact hk h
  next h => exact hl h

theorem orRefuse {α : Type} {e : Except Refusal α} {k : α → Result}
    (hk : ∀ v, FaultsAs i s masked (k v)) : FaultsAs i s masked (orRefuse e k) := by
  cases e with
  | ok v => exact hk v
  | error => exact refused

theorem requireReg {a : Src} {k : Reg → Result} (hk : ∀ r, FaultsAs i s masked (k r)) :
    FaultsAs i s masked (requireReg a k) := by
  cases a with
  | reg r => exact hk r
  | lit => exact refused

theorem requireGroup {n : Nat} {r : Reg} {k : Result} (hk : FaultsAs i s masked k) :
    FaultsAs i s masked (requireGroup n r k) :=
  ite (fun _ => hk) fun _ => refused

theorem raised {e : FaultType} {len : Nat} (hlen : lengthOf i = BitVec.ofNat 32 len)
    (h : FaultLeaves i s masked e (s.setIp (s.ip + lengthOf i))) :
    FaultsAs i s masked (raise e s.ip (s.advance len)) := by
  rintro _ _ _ ⟨⟩
  rw [hlen] at h
  exact ⟨rfl, h⟩

theorem faultWhen {cond : Cond} (hlen : lengthOf i = 4) :
    FaultsAs i s masked (faultWhen cond s) :=
  ite (fun _ => raised hlen .condition) fun _ => next

theorem requireSupervisor {k : Result} (hlen : lengthOf i = 4) (hpriv : Privileged s i)
    (hk : FaultsAs i s masked k) : FaultsAs i s masked (requireSupervisor s (s.advance 4) k) :=
  ite (fun _ => hk) fun huser => raised hlen (.privilege hpriv (Bool.eq_false_iff.2 huser))

theorem requireDivisor {d : Word} {k : Result} (hlen : lengthOf i = 4)
    (hk : FaultsAs i s masked k) : FaultsAs i s masked (requireDivisor d s (s.advance 4) k) :=
  ite (fun _ => raised hlen .divisor) fun _ => hk

/-- Where the divisor is 0 the masked run does not matter; else both runs go on. -/
theorem requireDivisor_both {d : Word} {k k' : Result} (hlen : lengthOf i = 4)
    (hk : FaultsAs i s k' k) :
    FaultsAs i s (Machine.requireDivisor d (maskOverflow.onState s)
        ((maskOverflow.onState s).advance 4) k')
      (Machine.requireDivisor d s (s.advance 4) k) := by
  unfold Machine.requireDivisor
  split
  · exact raised hlen .divisor
  · exact hk

theorem whenCond {cond : Cond} {k k' : Result} (hk : FaultsAs i s k' k) :
    FaultsAs i s (whenCond cond (maskOverflow.onState s) k') (whenCond cond s k) := by
  unfold Machine.whenCond
  rw [checkCond_maskOverflow]
  split
  · exact hk
  · exact next

/-- The overflow policy (R762): an unmasked overflow whose effect is written leaves what the masked
run does, whose effect is the same. -/
theorem commit {overflow : Bool} {len : Nat} {effect effect' : State → Except Refusal State}
    (hlen : lengthOf i = BitVec.ofNat 32 len)
    (hmasked : effect' (maskOverflow.onState (s.advance len)) =
      (effect (s.advance len)).map maskOverflow.onState)
    (hac : ∀ u, effect (s.advance len) = .ok u → u.ac = s.ac)
    (hip : ∀ u, effect (s.advance len) = .ok u → u.ip = (s.advance len).ip)
    (hmem : ∀ u, effect (s.advance len) = .ok u → ChecksStore i ∨ u.mem = s.mem) :
    FaultsAs i s (commit overflow s.ip ((maskOverflow.onState s).advance len) effect')
      (commit overflow s.ip (s.advance len) effect) := by
  intro e p u h
  obtain ⟨hoverflow, -, v, ⟨⟩, ⟨hw, hu⟩ | ⟨hw, rfl⟩⟩ := commit_fault.1 h
  · have hom : omOf (maskOverflow.onState (s.advance len)).ac = true := by
      simp [omOf, maskOverflow]
    have hnext := commit_next (p := s.ip).2
      (.inr ⟨hoverflow, hom, _, hmasked.trans (congrArg _ hu), rfl⟩)
    have hleft : u = ((maskOverflow.onState u).setAc
        (withOf (maskOverflow.onState u).ac)).setAc s.ac := by
      rw [← hac u hu]
      rfl
    rw [hleft]
    exact ⟨rfl, .written hw hnext (hlen ▸ hip u hu) (hmem u hu)⟩
  · exact ⟨rfl, (raised (s := s) hlen (.unchanged hw) _ _ _ rfl).2⟩

theorem writeChecked {overflow : Bool} {c : Reg} {v : Word} (hlen : lengthOf i = 4) :
    FaultsAs i s (writeChecked overflow c v (maskOverflow.onState s))
      (writeChecked overflow c v s) := by
  refine commit hlen rfl ?_ ?_ ?_ <;> rintro _ ⟨⟩
  · rfl
  · rfl
  · exact .inr rfl

theorem storeChecked {n : Width} {c : Reg} {m : MemOperand}
    (hlen : lengthOf i = BitVec.ofNat 32 (memLength m)) (hi : ChecksStore i) :
    FaultsAs i s (storeChecked n c m (maskOverflow.onState s)) (storeChecked n c m s) := by
  simp only [Machine.storeChecked, ControlMap.onState_efa]
  refine commit hlen (ControlMap.onState_write _ _ _) (fun _ hu => (write_ac hu).trans rfl)
    (fun _ hu => ?_) fun _ _ => .inl hi
  obtain ⟨-, rfl⟩ := write_ok.1 hu
  rfl

theorem filler585 {a b : Src} {c : Reg} : FaultsAs i s masked (execFiller585 a b c s) := by
  unfold execFiller585
  split <;> exact next

end FaultsAs

/-! ### The faults of every instruction -/

theorem lengthOf_stib (c : Reg) (m : MemOperand) :
    lengthOf (.stib c m) = BitVec.ofNat 32 (memLength m) := by
  cases m <;> rfl

theorem lengthOf_stis (c : Reg) (m : MemOperand) :
    lengthOf (.stis c m) = BitVec.ofNat 32 (memLength m) := by
  cases m <;> rfl

/-- Every fault an instruction raises is one of `FaultLeaves`. The instructions of the last case
answer a next state on every path. -/
theorem exec_faultsAs (i : Instr) (s : State) :
    FaultsAs i s (exec i (maskOverflow.onState s)) (exec i s) := by
  unfold exec
  cases i with
  | faultno | faultg | faulte | faultge | faultl | faultne | faultle | faulto =>
    exact .faultWhen rfl
  | intdis => exact .requireSupervisor rfl (.inl rfl) .next
  | inten => exact .requireSupervisor rfl (.inr (.inl rfl)) .next
  | modpc a b c =>
    exact .ite (fun _ => .next) fun hmask =>
      .requireSupervisor rfl (.inr (.inr ⟨a, b, c, rfl, hmask⟩)) .next
  | addi | subi | shli | muli => exact .writeChecked rfl
  | divi => exact .requireDivisor_both rfl (.writeChecked rfl)
  | addino | addig | addie | addige | addil | addine | addile | addio | subino | subig | subie
  | subige | subil | subine | subile | subio => exact .whenCond (.writeChecked rfl)
  | addono | addog | addoe | addoge | addol | addone | addole | addoo | subono | subog | suboe
  | suboge | subol | subone | subole | suboo => exact .whenCond .next
  | remo | divo | remi | modi => exact .requireDivisor rfl .next
  | ediv =>
    exact .requireReg fun _ => .requireGroup <| .requireGroup <|
      .requireDivisor rfl <| .ite (fun _ => .refused) fun _ => .next
  | stib c m => exact .storeChecked (lengthOf_stib c m) ⟨c, m, .inl rfl⟩
  | stis c m => exact .storeChecked (lengthOf_stis c m) ⟨c, m, .inr rfl⟩
  | filler585 => exact .filler585
  | spanbit | scanbit => exact .ite (fun _ => .next) fun _ => .next
  | eshro => exact .requireReg fun _ => .next
  | movl | movt | movq =>
    exact .requireReg fun _ => .requireGroup <| .requireGroup .next
  | emul => exact .requireGroup .next
  | atmod | atadd => exact .ite (fun _ => nofun) fun _ => .next
  | call | callx => exact .orRefuse fun _ => .next
  | ret => exact .ite (fun _ => .refused) fun _ => .orRefuse fun _ => .next
  | ldob | ldos | ldib | ldis | ld | stob | stos | st => exact .orRefuse fun _ => .next
  | ldl | ldt | ldq | stl | stt | stq => exact .requireGroup <| .orRefuse fun _ => .next
  | _ => exact .next

/-! ### The supervisor check -/

theorem exec_privileged_user {i : Instr} {s : State} (hpriv : Privileged s i)
    (huser : emOf s.pc = false) :
    exec i s = .fault (.raised .typeMismatch s.ip (s.setIp (s.ip + 4))) := by
  obtain rfl | rfl | ⟨a, b, c, rfl, hmask⟩ := hpriv
  · exact requireSupervisor_fault.2 (.inr ⟨huser, rfl⟩)
  · exact requireSupervisor_fault.2 (.inr ⟨huser, rfl⟩)
  · exact (if_neg hmask).trans (requireSupervisor_fault.2 (.inr ⟨huser, rfl⟩))

/-- Settles O17: the check faults where `exec_privileged_user` says, and TypeMismatch is raised by
nothing else (`exec_faultsAs`). -/
theorem supervisorCheckIsExactlyThePrivileged :
    Obligations.SupervisorCheckIsExactlyThePrivileged := by
  refine fun i s => ⟨exec_privileged_user, fun hnot p u hfault => ?_⟩
  obtain ⟨-, hleaves⟩ := exec_faultsAs i s _ _ _ hfault
  cases hleaves with
  | privilege hpriv huser => exact hnot ⟨hpriv, huser⟩

/-! ### The length of a decoded instruction (R125) -/

theorem decodeCtrl_length {w : Word} {i : Instr} (h : decodeCtrl w = .ok i) : lengthOf i = 4 := by
  unfold decodeCtrl at h
  split at h
  · cases h
  · split at h <;> cases h <;> rfl

theorem decodeCobr_length {w : Word} {i : Instr} (h : decodeCobr w = .ok i) : lengthOf i = 4 := by
  unfold decodeCobr at h
  split at h
  · cases h
  · split at h <;> cases h <;> rfl

theorem decodeReg_length {w : Word} {i : Instr} (h : decodeReg w = .ok i) : lengthOf i = 4 := by
  unfold decodeReg at h
  split at h <;> cases h <;> rfl

/-- A mode has a displacement word exactly where its operand has. -/
theorem decodeMemOperand_length {w disp : Word} {m : MemOperand}
    (h : decodeMemOperand w disp = some m) :
    memLength m = if (modeFlags (modeField w)).getLsbD 3 then 8 else 4 := by
  unfold decodeMemOperand at h
  generalize modeField w = mode at h ⊢
  split at h <;> cases h
  case h_16 => simp_all [modeFlags, memLength]
  all_goals rfl

theorem memWords_length (op : BitVec 8) (c : Reg) (m : MemOperand) :
    4 * (memWords op c m).length = memLength m := by
  cases m <;> rfl

theorem decodeMem_length {w disp : Word} {i : Instr} (h : decodeMem w disp = .ok i) :
    lengthOf i =
      BitVec.ofNat 32 (if (modeFlags (modeField w)).getLsbD 3 then 8 else 4) := by
  unfold decodeMem at h
  split at h
  · cases h
  next m hm =>
    rw [← decodeMemOperand_length hm]
    split at h <;> cases h <;> exact congrArg _ (memWords_length _ _ m)

theorem decodeWords_length {w disp : Word} {i : Instr} (h : decodeWords w disp = .ok i) :
    lengthOf i = BitVec.ofNat 32 (instrLength w) := by
  obtain hmem | hmem := Nat.lt_or_ge (opField w).toNat 0x80
  · rw [instrLength_of_lt w hmem]
    unfold decodeWords at h
    split at h
    · exact decodeCtrl_length h
    · split at h
      · exact decodeCobr_length h
      · exact decodeReg_length h
  · rw [instrLength_of_ge w hmem]
    exact decodeMem_length (decodeWords_mem w disp hmem ▸ h)

theorem State.lengthOf_fetched {s : State} {i : Instr} {rest : List Byte}
    (h : decode s.fetchBytes = .ok (i, rest)) :
    lengthOf i = BitVec.ofNat 32 s.fetchLength := by
  obtain ⟨disp, hdecode⟩ := s.decode_fetchBytes
  rw [hdecode] at h
  cases hw : decodeWords (s.mem.load s.ip .word) disp with
  | error => rw [hw] at h; cases h
  | ok j =>
    rw [hw] at h
    cases h
    exact decodeWords_length hw

/-! ### The faults of a step -/

theorem answerCalls_ne_raised (v : Word) (s : State) (e : FaultType) (p : Word) (u : State) :
    answerCalls v s ≠ .fault (.raised e p u) := by
  unfold answerCalls
  split <;> nofun

/-- A fault a step raises is that of bytes that decode to nothing, or of the instruction decoded. -/
theorem step_raised {s u : State} {e : FaultType} {p : Word}
    (h : step s = .fault (.raised e p u)) :
    (e = .invalidOpcode ∧ p = s.ip ∧ u = s.advance s.fetchLength) ∨
      ∃ i rest, decode s.fetchBytes = .ok (i, rest) ∧ exec i s = .fault (.raised e p u) := by
  unfold step at h
  split at h
  · exact absurd h (answerCalls_ne_raised _ _ _ _ _)
  · split at h
    · cases h
    · split at h
      · split at h
        next i rest hdecode => exact .inr ⟨i, rest, hdecode, h⟩
        · cases h
          exact .inl ⟨rfl, rfl, rfl⟩
      · cases h

/-- Settles O23: bytes that decode to nothing leave `ip` past them; what an instruction leaves is
`FaultLeaves`, its length the length fetched. -/
theorem faultsLeaveWhatWasCommitted : Obligations.FaultsLeaveWhatWasCommitted := by
  intro s e p u hstep
  obtain ⟨rfl, rfl, rfl⟩ | ⟨i, rest, hdecode, hexec⟩ := step_raised hstep
  · exact ⟨rfl, rfl, fun _ => rfl, nofun, nofun⟩
  · obtain ⟨rfl, hleaves⟩ := exec_faultsAs i s _ _ _ hexec
    rw [← State.lengthOf_fetched hdecode]
    refine ⟨rfl, ?_⟩
    cases hleaves with
    | privilege | condition | divisor => exact ⟨rfl, fun _ => rfl, nofun, nofun⟩
    | unchanged hw =>
      exact ⟨rfl, fun _ => rfl, fun _ _ => rfl, fun _ hw' => absurd (hw.symm.trans hw') nofun⟩
    | written hw hmasked hip hmem =>
      exact ⟨hip, fun he => absurd rfl he, fun _ hw' => absurd (hw.symm.trans hw') nofun,
        fun _ _ => ⟨i, rest, _, hdecode, hmasked, rfl, hmem⟩⟩

end Sys2Proof.Machine
end

section
/-! The encoding read back (30_encoding.md): every instruction's words decode to it, each format by
the fields of its words. From it the round trip on bytes. -/

namespace Sys2Proof.Machine

/-! ### Words that decode to an instruction -/

/-- The words of an instruction, as many as the first one's length says, decode to it. -/
inductive ReadsBack (i : Instr) : List Word → Prop
  | short (w : Word) (hlen : instrLength w = 4) (hdecode : decodeWords w 0 = .ok i) :
    ReadsBack i [w]
  | long (w disp : Word) (hlen : instrLength w = 8) (hdecode : decodeWords w disp = .ok i) :
    ReadsBack i [w, disp]

theorem readsBack_ctrl {i : Instr} {op : BitVec 8} {disp : BitVec 22} (hop : op.toNat < 0x20)
    (h : decodeCtrl (ctrlWord op disp) = .ok i) : ReadsBack i [ctrlWord op disp] := by
  have hfield : (opField (ctrlWord op disp)).toNat < 0x20 := by rwa [opField_ctrlWord]
  exact .short _ (instrLength_of_lt _ (by omega)) (by rwa [decodeWords_ctrl _ _ hfield])

theorem readsBack_cobr {i : Instr} {op : BitVec 8} {a : Src} {b : Reg} {disp : BitVec 11}
    (hop : 0x20 ≤ op.toNat ∧ op.toNat < 0x40) (h : decodeCobr (cobrWord op a b disp) = .ok i) :
    ReadsBack i [cobrWord op a b disp] := by
  rw [← opField_cobrWord op a b disp] at hop
  exact .short _ (instrLength_of_lt _ (by omega)) (by rwa [decodeWords_cobr _ _ hop.1 hop.2])

theorem readsBack_reg {i : Instr} {index : BitVec 12} {a b : Src} {c : Reg}
    (hop : 0x40 ≤ (index.extractLsb' 4 8).toNat ∧ (index.extractLsb' 4 8).toNat < 0x80)
    (h : decodeReg (regWord index a b c) = .ok i) : ReadsBack i [regWord index a b c] := by
  rw [← opField_regWord index a b c] at hop
  exact .short _ (instrLength_of_lt _ hop.2) (by rwa [decodeWords_reg _ _ hop.1 hop.2])

/-- The instruction of a MEM opcode with its operand and register. -/
theorem readsBack_mem {i : Instr} {op : BitVec 8} {c : Reg} {m : MemOperand} (hop : 0x80 ≤ op.toNat)
    (h : ∀ w disp, decodeMemOperand w disp = some m → opField w = op → field19 w = c →
      decodeMem w disp = .ok i) : ReadsBack i (memWords op c m) := by
  obtain ⟨w, hwords, hfield, hc, hlen, hm⟩ := memWords_shape op c m hop
  have hdecode : decodeWords w (m.dispWord.getD 0) = .ok i := by
    rw [decodeWords_mem w _ (by rwa [hfield])]
    exact h w _ hm hfield hc
  rw [hwords]
  cases hd : m.dispWord with
  | none =>
    rw [hd] at hlen hdecode
    exact .short w hlen hdecode
  | some disp =>
    rw [hd] at hlen hdecode
    exact .long w disp hlen hdecode

/-- Every instruction's words read back: the encoder and the decoder agree on each row's opcode and
on the fields of its format. -/
theorem encode_readsBack (i : Instr) : ReadsBack i (encode i) := by
  cases i with
  | b | call | ret | bal | bno | bg | be | bge | bl | bne | ble | bo | faultno | faultg | faulte
  | faultge | faultl | faultne | faultle | faulto =>
    exact readsBack_ctrl (by decide)
      (by rw [decodeCtrl, opField_ctrlWord, ctrlWord_getLsbD_0, ctrlDispField_ctrlWord]; rfl)
  | testno | testg | teste | testge | testl | testne | testle | testo | bbc | cmpobg | cmpobe
  | cmpobge | cmpobl | cmpobne | cmpoble | bbs | cmpibno | cmpibg | cmpibe | cmpibge | cmpibl
  | cmpibne | cmpible | cmpibo =>
    refine readsBack_cobr (by decide) ?_
    rw [decodeCobr, opField_cobrWord, cobrWord_getLsbD_0, cobrA_cobrWord, field14_cobrWord,
      field19_cobrWord, cobrDispField_cobrWord]
    rfl
  | ldob | stob | bx | balx | callx | ldos | stos | lda | ld | st | ldl | stl | ldt | stt | ldq
  | stq | ldib | stib | ldis | stis =>
    refine readsBack_mem (by decide) fun w disp hm hop hc => ?_
    rw [decodeMem, hm, hop, hc]
    rfl
  | _ =>
    refine readsBack_reg (by decide) ?_
    rw [decodeReg, regIndex_regWord, regA_regWord, regB_regWord, field19_regWord]
    rfl

theorem ReadsBack.decode {i : Instr} {ws : List Word} (h : ReadsBack i ws) (rest : List Byte) :
    decode (ws.flatMap wordBytes ++ rest) = .ok (i, rest) := by
  cases h with
  | short w hlen hdecode =>
    rw [List.flatMap_singleton, decode_short w rest hlen, hdecode]
    rfl
  | long w disp hlen hdecode =>
    rw [List.flatMap_cons, List.flatMap_singleton, List.append_assoc, decode_long w disp rest hlen,
      hdecode]
    rfl

/-- Settles O2: each row reads back, one word or two. -/
theorem decodeEncodeAgree : Obligations.DecodeEncodeAgree :=
  fun i rest => (encode_readsBack i).decode rest

end Sys2Proof.Machine
end

section
/-! Fetching an instruction (R120, R125): the bytes of its encoding in memory are the bytes a step
decodes, and a word that is stored at the next `ip` is the next one fetched. -/

namespace Sys2Proof.Machine

/-! ### A step at an instruction -/

theorem step_of_decode {s : State} {i : Instr} {rest : List Byte} (hcalls : s.callsPort = none)
    (hhalt : s.haltIp ≠ some s.ip) (halign : s.ipAligned = true)
    (hdecode : decode s.fetchBytes = .ok (i, rest)) : step s = exec i s := by
  simp only [step, hcalls, if_neg hhalt, if_pos halign, hdecode]

/-- Settles O6: the step's own branch for decoded bytes. -/
theorem stepRunsTheDecodedInstruction : Obligations.StepRunsTheDecodedInstruction :=
  fun _ _ _ hcalls hhalt halign hdecode => step_of_decode hcalls hhalt halign hdecode

/-! ### An encoding in memory -/

/-- A word whose four bytes stand in memory is the word read. -/
theorem Memory.load_word_of_bytes {m : Memory} {addr w : Word}
    (h : ∀ k < 4, m.byteAt (addr + BitVec.ofNat 32 k).toNat = w.extractLsb' (8 * k) 8) :
    m.load addr .word = w := by
  have h₀ := h 0 (by decide)
  have h₁ := h 1 (by decide)
  have h₂ := h 2 (by decide)
  have h₃ := h 3 (by decide)
  rw [BitVec.add_zero] at h₀
  simp only [Memory.load, BitVec.ofNat_eq_ofNat, h₀, h₁, h₂, h₃]
  exact Memory.word_of_bytes w

/-- The words of a list stand in memory from an address up. -/
def WordsAt (m : Memory) (addr : Word) (ws : List Word) : Prop :=
  ∀ k (h : k < ws.length), m.load (addr + BitVec.ofNat 32 (4 * k)) .word = ws[k]

theorem wordBytes_getElem (w : Word) (k : Nat) (h : k < (wordBytes w).length) :
    (wordBytes w)[k] = w.extractLsb' (8 * k) 8 := by
  match k, h with
  | 0, _ | 1, _ | 2, _ | 3, _ => rfl

theorem wordsAt_of_bytes {m : Memory} {addr : Word} {ws : List Word}
    (h : ∀ k (hk : k < (ws.flatMap wordBytes).length),
      m.byteAt (addr + BitVec.ofNat 32 k).toNat = (ws.flatMap wordBytes)[k]) :
    WordsAt m addr ws := by
  induction ws generalizing addr with
  | nil => exact fun k hk => absurd hk (Nat.not_lt_zero k)
  | cons w ws ih =>
    simp only [List.flatMap_cons] at h
    intro k hk
    cases k with
    | zero =>
      rw [Nat.mul_zero, BitVec.add_zero]
      refine Memory.load_word_of_bytes fun j hj => ?_
      rw [h j (by simp [wordBytes]; omega), List.getElem_append_left (by simpa [wordBytes]),
        wordBytes_getElem]
      rfl
    | succ k =>
      rw [wordAddr_succ]
      refine ih (fun j hj => ?_) k (by simpa using hk)
      have hlen : (wordBytes w).length = 4 := rfl
      have hj' := h (4 + j) (by rw [List.length_append, hlen]; omega)
      rw [List.getElem_append_right (by rw [hlen]; omega)] at hj'
      simpa [hlen, BitVec.ofNat_add, BitVec.add_assoc] using hj'

/-- Words that read back are fetched and decoded as their instruction. -/
theorem State.decode_fetchBytes_of_wordsAt {s : State} {i : Instr} {ws : List Word}
    (hi : ReadsBack i ws) (h : WordsAt s.mem s.ip ws) : decode s.fetchBytes = .ok (i, []) := by
  have hbytes : s.fetchBytes = ws.flatMap wordBytes := by
    cases hi with
    | short w hlen =>
      have hfirst : s.mem.load s.ip .word = w := by simpa [WordsAt] using h
      simp [State.fetchBytes, hfirst, hlen]
    | long w disp hlen =>
      have hfirst : s.mem.load s.ip .word = w := by simpa using h 0 (by simp)
      have hnext : s.mem.load (s.ip + 4#32) .word = disp := h 1 (by simp)
      simp [State.fetchBytes, hfirst, hnext, hlen]
  simpa [hbytes] using hi.decode []

/-- Settles O7: the encoding reads back, so the bytes fetched decode to the instruction. -/
theorem encodedInstructionRuns : Obligations.EncodedInstructionRuns :=
  fun s i hcalls hhalt hip hbytes =>
    step_of_decode hcalls hhalt (s.ipAligned_iff.2 hip)
      (s.decode_fetchBytes_of_wordsAt (encode_readsBack i) (wordsAt_of_bytes hbytes))

/-! ### A word stored and fetched -/

theorem lengthOf_st (c : Reg) (m : MemOperand) :
    lengthOf (.st c m) = BitVec.ofNat 32 (memLength m) :=
  congrArg (BitVec.ofNat 32) (memWords_length _ _ m)

theorem exec_st_of_aligned {s : State} {c : Reg} {m : MemOperand} (h : (efa s m).toNat % 4 = 0) :
    exec (.st c m) s = .next ((s.advance (memLength m)).setMem
      (s.mem.store (efa s m) .word (s.reg c))) := by
  have hport : (s.advance (memLength m)).portRefuses (efa s m) .word = false :=
    portRefuses_aligned _ _ _ h
  exact orRefuse_next.2 ⟨_, write_ok.2 ⟨hport, rfl⟩, rfl⟩

/-- Settles O9: the word stored at the next `ip` is the word fetched there, and a 4-byte encoding is
that one word. -/
theorem storeIsSeenByTheNextFetch : Obligations.StoreIsSeenByTheNextFetch := by
  intro s c m i hcalls hefa halign hhalt hi
  refine ⟨_, exec_st_of_aligned halign, ?_⟩
  rw [lengthOf_st] at hefa
  have hfetch : WordsAt (s.mem.store (efa s m) .word (s.reg c)) (efa s m) (encode i) := by
    rw [hi]
    intro k hk
    obtain rfl : k = 0 := by simpa using hk
    simpa using Memory.load_store_word s.mem (efa s m) (s.reg c)
  refine step_of_decode (rest := []) hcalls ?_ ((State.ipAligned_iff _).2 ?_)
    (State.decode_fetchBytes_of_wordsAt (encode_readsBack i) ?_)
  · rwa [State.setMem_ip, State.advance_ip, ← hefa]
  · rwa [State.setMem_ip, State.advance_ip, ← hefa]
  · rwa [State.setMem_ip, State.advance_ip, ← hefa]

end Sys2Proof.Machine
end

section
/-! What the decoder reads of a word: the operand of a mode by the bits of its row of the mode table
(R152), and the bits no format reads (R134, R140, R151, R173). -/

namespace Sys2Proof.Machine

/-! ### Words written out -/

/-- Settles O1: each word is decoded as it stands. -/
theorem writtenWordsDecode : Obligations.WrittenWordsDecode :=
  ⟨rfl, rfl, rfl, rfl, rfl, rfl⟩

/-! ### The mode table (R152) -/

theorem scaleField_toNat (w : Word) : (scaleField w).toNat = w.toNat / 2 ^ 7 % 8 := by
  rw [scaleField, BitVec.extractLsb'_toNat, Nat.shiftRight_eq_div_pow]

theorem offsetField_setWidth (w : Word) :
    (offsetField w).setWidth 32 = BitVec.ofNat 32 (w.toNat % 2 ^ 12) := by
  apply BitVec.eq_of_toNat_eq
  simp [offsetField, BitVec.extractLsb'_toNat]

/-- The row of the mode table as a number: bit 3 a displacement word, bit 2 a displacement, bit 1
the base, bit 0 the index. -/
def modeRow (mode : Nat) : Nat := [4, 4, 4, 4, 2, 8, 0, 3, 6, 6, 6, 6, 12, 14, 13, 15].getD mode 0

/-- The effective address by the bits of the row. -/
def tableAddress (w disp : Word) (s : State) (f : Nat) : Word :=
  (if f.testBit 1 then s.reg (field14 w) else 0) +
    (if f.testBit 0 then s.reg (field0 w) <<< (scaleField w).toNat else 0) +
    (if f.testBit 2 then (if f.testBit 3 then disp else (offsetField w).setWidth 32) else 0)

theorem decodeMemOperand_table {w disp : Word} {m : MemOperand} (s : State)
    (h : decodeMemOperand w disp = some m) :
    memLength m = (if (modeRow (modeField w).toNat).testBit 3 then 8 else 4) ∧
      efa s m = if modeField w = 5 then s.ip + 8 + disp
        else tableAddress w disp s (modeRow (modeField w).toNat) := by
  unfold decodeMemOperand at h
  generalize modeField w = mode at h ⊢
  split at h <;> cases h
  case h_16 =>
    obtain rfl : mode = 15 := by simp only [imp_false] at *; bv_omega
    simp [modeRow, tableAddress, memLength, efa, Nat.testBit]
  all_goals simp [modeRow, tableAddress, memLength, efa, Nat.testBit]

/-- Settles O28: mode 6 alone has no operand, and each other mode's is its row of the table. -/
theorem effectiveAddressFollowsTheModeTable : Obligations.EffectiveAddressFollowsTheModeTable := by
  intro w disp s mode f
  have hmode : (modeField w).toNat = mode := modeField_toNat w
  have hnum (n : Nat) (hn : n < 16) : modeField w = BitVec.ofNat 4 n ↔ mode = n := by
    rw [← BitVec.toNat_inj, hmode, BitVec.toNat_ofNat, Nat.mod_eq_of_lt hn]
  refine ⟨(decodeMemOperand_eq_none_iff w disp).trans (hnum 6 (by decide)), fun m hm => ?_⟩
  obtain ⟨hlen, hefa⟩ := decodeMemOperand_table s hm
  rw [hmode] at hlen hefa
  have hfive : modeField w = 5 ↔ mode = 5 := hnum 5 (by decide)
  refine ⟨hlen, hefa.trans ?_⟩
  simp only [hfive, tableAddress, scaleField_toNat, offsetField_setWidth]
  rfl

/-! ### Words that agree under a mask -/

section
variable {w v m : Word}

/-- A field all of whose bits are in the mask is the same in both words. -/
theorem extract_eq_of_masked (h : w &&& m = v &&& m) {k n : Nat}
    (hm : m.extractLsb' k n = BitVec.allOnes n) : w.extractLsb' k n = v.extractLsb' k n := by
  have hk := congrArg (BitVec.extractLsb' k n) h
  rwa [BitVec.extractLsb'_and, BitVec.extractLsb'_and, hm, BitVec.and_allOnes,
    BitVec.and_allOnes] at hk

theorem getLsbD_eq_of_masked (h : w &&& m = v &&& m) {k : Nat} (hm : m.getLsbD k = true) :
    w.getLsbD k = v.getLsbD k := by
  have hk := congrArg (·.getLsbD k) h
  simpa only [BitVec.getLsbD_and, hm, Bool.and_true] using hk

theorem regIndex_eq_of_masked (h : w &&& m = v &&& m)
    (hop : m.extractLsb' 24 8 = BitVec.allOnes 8) (hfun : m.extractLsb' 7 4 = BitVec.allOnes 4) :
    regIndex w = regIndex v :=
  congrArg₂ _ (extract_eq_of_masked h hop) (extract_eq_of_masked h hfun)

theorem cobrA_eq_of_masked (h : w &&& m = v &&& m) (hbit : m.getLsbD 13 = true)
    (hfield : m.extractLsb' 19 5 = BitVec.allOnes 5) : cobrA w = cobrA v :=
  congrArg₂ _ (getLsbD_eq_of_masked h hbit) (extract_eq_of_masked h hfield)

theorem regA_eq_of_masked (h : w &&& m = v &&& m) (hbit : m.getLsbD 11 = true)
    (hfield : m.extractLsb' 0 5 = BitVec.allOnes 5) : regA w = regA v :=
  congrArg₂ _ (getLsbD_eq_of_masked h hbit) (extract_eq_of_masked h hfield)

theorem regB_eq_of_masked (h : w &&& m = v &&& m) (hbit : m.getLsbD 12 = true)
    (hfield : m.extractLsb' 14 5 = BitVec.allOnes 5) : regB w = regB v :=
  congrArg₂ _ (getLsbD_eq_of_masked h hbit) (extract_eq_of_masked h hfield)

end

/-! ### What each format reads -/

/-- Two words decode alike, to instructions of one length. -/
def DecodeAlike (d w v : Word) : Prop :=
  decodeWords w d = decodeWords v d ∧ instrLength w = instrLength v

section
variable {d w v : Word} (hop : opField w = opField v)
include hop

theorem decodeAlike_ctrl (hrange : (opField w).toNat < 0x20) (h : decodeCtrl w = decodeCtrl v) :
    DecodeAlike d w v := by
  have hv : (opField v).toNat < 0x20 := hop ▸ hrange
  exact ⟨by rw [decodeWords_ctrl w d hrange, decodeWords_ctrl v d hv, h],
    by rw [instrLength_of_lt w (by omega), instrLength_of_lt v (by omega)]⟩

theorem decodeAlike_cobr (hlow : 0x20 ≤ (opField w).toNat) (hhigh : (opField w).toNat < 0x40)
    (h : decodeCobr w = decodeCobr v) : DecodeAlike d w v := by
  have hv := hlow
  have hv' := hhigh
  rw [hop] at hv hv'
  exact ⟨by rw [decodeWords_cobr w d hlow hhigh, decodeWords_cobr v d hv hv', h],
    by rw [instrLength_of_lt w (by omega), instrLength_of_lt v (by omega)]⟩

theorem decodeAlike_reg (hlow : 0x40 ≤ (opField w).toNat) (hhigh : (opField w).toNat < 0x80)
    (h : decodeReg w = decodeReg v) : DecodeAlike d w v := by
  have hv := hlow
  have hv' := hhigh
  rw [hop] at hv hv'
  exact ⟨by rw [decodeWords_reg w d hlow hhigh, decodeWords_reg v d hv hv', h],
    by rw [instrLength_of_lt w hhigh, instrLength_of_lt v hv']⟩

theorem decodeAlike_mem (hlow : 0x80 ≤ (opField w).toNat) (hmode : modeField w = modeField v)
    (h : decodeMem w d = decodeMem v d) : DecodeAlike d w v := by
  have hv := hlow
  rw [hop] at hv
  exact ⟨by rw [decodeWords_mem w d hlow, decodeWords_mem v d hv, h],
    by rw [instrLength_of_ge w hlow, instrLength_of_ge v hv, hmode]⟩

end

/-! ### The bits each clause lets differ -/

section
variable {d w v : Word}

/-- The T bit (R134). -/
theorem decodeAlike_of_tBit (hrange : (opField w).toNat < 0x40)
    (h : w &&& ~~~0x2#32 = v &&& ~~~0x2#32) : DecodeAlike d w v := by
  have hop : opField w = opField v := extract_eq_of_masked h rfl
  have hbit : w.getLsbD 0 = v.getLsbD 0 := getLsbD_eq_of_masked h rfl
  obtain hctrl | hcobr := Nat.lt_or_ge (opField w).toNat 0x20
  · have hdisp : ctrlDispField w = ctrlDispField v := extract_eq_of_masked h rfl
    exact decodeAlike_ctrl hop hctrl (by rw [decodeCtrl, decodeCtrl, hop, hbit, hdisp])
  · have ha : cobrA w = cobrA v := cobrA_eq_of_masked h rfl rfl
    have hdst : field19 w = field19 v := extract_eq_of_masked h rfl
    have hb : field14 w = field14 v := extract_eq_of_masked h rfl
    have hdisp : cobrDispField w = cobrDispField v := extract_eq_of_masked h rfl
    exact decodeAlike_cobr hop hcobr hrange
      (by rw [decodeCobr, decodeCobr, hop, hbit, ha, hb, hdst, hdisp])

/-- The CTRL opcodes with no displacement (R262, R272 to R279). -/
theorem plainCtrl_mem (op : BitVec 8) (h : op = 0x0A ∨ (0x18 ≤ op.toNat ∧ op.toNat < 0x20)) :
    op ∈ [0x0A#8, 0x18#8, 0x19#8, 0x1A#8, 0x1B#8, 0x1C#8, 0x1D#8, 0x1E#8, 0x1F#8] := by
  revert op
  decide

theorem decodeAlike_of_plainCtrl
    (hplain : opField w = 0x0A ∨ (0x18 ≤ (opField w).toNat ∧ (opField w).toNat < 0x20))
    (h : w &&& 0xFF000001#32 = v &&& 0xFF000001#32) : DecodeAlike d w v := by
  have hop : opField w = opField v := extract_eq_of_masked h rfl
  have hbit : w.getLsbD 0 = v.getLsbD 0 := getLsbD_eq_of_masked h rfl
  have hmem := plainCtrl_mem _ hplain
  have hrange : (opField w).toNat < 0x20 := by bv_omega
  refine decodeAlike_ctrl hop hrange ?_
  rw [decodeCtrl, decodeCtrl, ← hop, hbit]
  simp only [List.mem_cons, List.not_mem_nil, or_false] at hmem
  rcases hmem with e | e | e | e | e | e | e | e | e <;> simp only [e]

/-- The fields `test<cc>` does not use (R310 to R317). -/
theorem decodeAlike_of_test (hlow : 0x20 ≤ (opField w).toNat) (hhigh : (opField w).toNat < 0x28)
    (h : w &&& 0xFFF80001#32 = v &&& 0xFFF80001#32) : DecodeAlike d w v := by
  have hop : opField w = opField v := extract_eq_of_masked h rfl
  have hbit : w.getLsbD 0 = v.getLsbD 0 := getLsbD_eq_of_masked h rfl
  have hdst : field19 w = field19 v := extract_eq_of_masked h rfl
  have hmem : opField w ∈ [0x20#8, 0x21#8, 0x22#8, 0x23#8, 0x24#8, 0x25#8, 0x26#8, 0x27#8] := by
    generalize opField w = op at hlow hhigh
    revert op
    decide
  refine decodeAlike_cobr hop hlow (by omega) ?_
  rw [decodeCobr, decodeCobr, ← hop, hbit, hdst]
  simp only [List.mem_cons, List.not_mem_nil, or_false] at hmem
  rcases hmem with e | e | e | e | e | e | e | e <;> simp only [e]

/-- M3, S2 and S1 (R140). -/
theorem decodeAlike_of_regUnused (hlow : 0x40 ≤ (opField w).toNat)
    (hhigh : (opField w).toNat < 0x80) (h : w &&& ~~~0x2060#32 = v &&& ~~~0x2060#32) :
    DecodeAlike d w v := by
  have hop : opField w = opField v := extract_eq_of_masked h rfl
  have hindex : regIndex w = regIndex v := regIndex_eq_of_masked h rfl rfl
  have ha : regA w = regA v := regA_eq_of_masked h rfl rfl
  have hb : regB w = regB v := regB_eq_of_masked h rfl rfl
  have hc : field19 w = field19 v := extract_eq_of_masked h rfl
  exact decodeAlike_reg hop hlow hhigh (by rw [decodeReg, decodeReg, hindex, ha, hb, hc])

/-- A REG index below 0x800 and from 0x400 up is of the REG format. -/
theorem decodeAlike_of_regIndex {l : List (BitVec 12)}
    (hl : ∀ index ∈ l, 0x400 ≤ index.toNat ∧ index.toNat < 0x800) (hmem : regIndex w ∈ l)
    (hindex : regIndex w = regIndex v) (h : decodeReg w = decodeReg v) : DecodeAlike d w v := by
  have hrange := hl _ hmem
  rw [regIndex_toNat] at hrange
  have hfun := (regFunField w).isLt
  refine decodeAlike_reg ?_ (by omega) (by omega) h
  have hop (u : Word) : opField u = (regIndex u).extractLsb' 4 8 := by
    simp (disch := decide) only [regIndex, BitVec.extractLsb'_append_eq_of_le, Nat.reduceSub,
      BitVec.extractLsb'_eq_self]
  rw [hop, hop, hindex]

/-- fb and M2 of the instructions with one source (R361, R471, R501 to R504, R551, R552). -/
theorem decodeAlike_of_oneSource
    (hmem : regIndex w ∈ [0x58A#12, 0x5AD#12, 0x5CC#12, 0x5DC#12, 0x5EC#12, 0x5FC#12, 0x640#12,
      0x641#12])
    (h : w &&& ~~~0x7F060#32 = v &&& ~~~0x7F060#32) : DecodeAlike d w v := by
  have hindex : regIndex w = regIndex v := regIndex_eq_of_masked h rfl rfl
  have ha : regA w = regA v := regA_eq_of_masked h rfl rfl
  have hc : field19 w = field19 v := extract_eq_of_masked h rfl
  refine decodeAlike_of_regIndex (by simp) hmem hindex ?_
  rw [decodeReg, decodeReg, ← hindex, ha, hc]
  simp only [List.mem_cons, List.not_mem_nil, or_false] at hmem
  rcases hmem with e | e | e | e | e | e | e | e <;> simp only [e]

/-- fc of the instructions that only write CC (R451 to R464, R470, R472). -/
theorem decodeAlike_of_noDestination
    (hmem : regIndex w ∈ [0x594#12, 0x595#12, 0x596#12, 0x597#12, 0x5A0#12, 0x5A1#12, 0x5A2#12,
      0x5A3#12, 0x5AC#12, 0x5AE#12])
    (h : w &&& ~~~0xF82060#32 = v &&& ~~~0xF82060#32) : DecodeAlike d w v := by
  have hindex : regIndex w = regIndex v := regIndex_eq_of_masked h rfl rfl
  have ha : regA w = regA v := regA_eq_of_masked h rfl rfl
  have hb : regB w = regB v := regB_eq_of_masked h rfl rfl
  refine decodeAlike_of_regIndex (by simp) hmem hindex ?_
  rw [decodeReg, decodeReg, ← hindex, ha, hb]
  simp only [List.mem_cons, List.not_mem_nil, or_false] at hmem
  rcases hmem with e | e | e | e | e | e | e | e | e | e <;> simp only [e]

/-- All but operand a of `calls` (R575). -/
theorem decodeAlike_of_calls (hcalls : regIndex w = 0x660#12)
    (h : w &&& ~~~0xFFF060#32 = v &&& ~~~0xFFF060#32) : DecodeAlike d w v := by
  have hindex : regIndex w = regIndex v := regIndex_eq_of_masked h rfl rfl
  have ha : regA w = regA v := regA_eq_of_masked h rfl rfl
  refine decodeAlike_of_regIndex (l := [0x660]) (by simp) (by simp [hcalls]) hindex ?_
  rw [decodeReg, decodeReg, ← hindex, ha, hcalls]
  rfl

/-- Every field of the instructions with no operands (R570, R571, R576 to R579). -/
theorem decodeAlike_of_noOperand
    (hmem : regIndex w ∈ [0x5B4#12, 0x5B5#12, 0x66B#12, 0x66C#12, 0x66D#12, 0x66F#12])
    (h : w &&& ~~~0xFFF87F#32 = v &&& ~~~0xFFF87F#32) : DecodeAlike d w v := by
  have hindex : regIndex w = regIndex v := regIndex_eq_of_masked h rfl rfl
  refine decodeAlike_of_regIndex (by simp) hmem hindex ?_
  rw [decodeReg, decodeReg, ← hindex]
  simp only [List.mem_cons, List.not_mem_nil, or_false] at hmem
  rcases hmem with e | e | e | e | e | e <;> simp only [e]

/-- A MEM word is read through its opcode, `fc`, mode and operand. -/
theorem decodeAlike_of_memOperand {m : Word} (hlow : 0x80 ≤ (opField w).toNat)
    (h : w &&& m = v &&& m) (hop : m.extractLsb' 24 8 = BitVec.allOnes 8)
    (hc : m.extractLsb' 19 5 = BitVec.allOnes 5) (hmode : m.extractLsb' 10 4 = BitVec.allOnes 4)
    (hoperand : modeField w = modeField v → decodeMemOperand w d = decodeMemOperand v d) :
    DecodeAlike d w v := by
  have hop' : opField w = opField v := extract_eq_of_masked h hop
  have hc' : field19 w = field19 v := extract_eq_of_masked h hc
  have hmode' : modeField w = modeField v := extract_eq_of_masked h hmode
  refine decodeAlike_mem hop' hlow hmode' ?_
  rw [decodeMem, decodeMem, hoperand hmode', hop', hc']

/-- abase of a mode with no base (R151). -/
theorem decodeAlike_of_offset (hlow : 0x80 ≤ (opField w).toNat)
    (hmem : modeField w ∈ [0x0#4, 0x1#4, 0x2#4, 0x3#4])
    (h : w &&& ~~~0x7C000#32 = v &&& ~~~0x7C000#32) : DecodeAlike d w v := by
  have hoff : offsetField w = offsetField v := extract_eq_of_masked h rfl
  refine decodeAlike_of_memOperand hlow h rfl rfl rfl fun hmode => ?_
  rw [decodeMemOperand, decodeMemOperand, ← hmode, hoff]
  simp only [List.mem_cons, List.not_mem_nil, or_false] at hmem
  rcases hmem with e | e | e | e <;> simp only [e]

/-- Index and scale, and bits 6:5, of the modes with a base and no index (R151, R152). -/
theorem decodeAlike_of_base (hlow : 0x80 ≤ (opField w).toNat)
    (hmem : modeField w ∈ [0x4#4, 0xD#4])
    (h : w &&& ~~~0x3FF#32 = v &&& ~~~0x3FF#32) : DecodeAlike d w v := by
  have hbase : field14 w = field14 v := extract_eq_of_masked h rfl
  refine decodeAlike_of_memOperand hlow h rfl rfl rfl fun hmode => ?_
  rw [decodeMemOperand, decodeMemOperand, ← hmode, hbase]
  simp only [List.mem_cons, List.not_mem_nil, or_false] at hmem
  rcases hmem with e | e <;> simp only [e]

/-- abase, index, scale and bits 6:5 of the modes with a displacement alone (R151, R152). -/
theorem decodeAlike_of_disp (hlow : 0x80 ≤ (opField w).toNat)
    (hmem : modeField w ∈ [0x5#4, 0xC#4])
    (h : w &&& ~~~0x7C3FF#32 = v &&& ~~~0x7C3FF#32) : DecodeAlike d w v := by
  refine decodeAlike_of_memOperand hlow h rfl rfl rfl fun hmode => ?_
  rw [decodeMemOperand, decodeMemOperand, ← hmode]
  simp only [List.mem_cons, List.not_mem_nil, or_false] at hmem
  rcases hmem with e | e <;> simp only [e]

/-- abase and bits 6:5 of the mode with an index and no base (R151, R152). -/
theorem decodeAlike_of_index (hlow : 0x80 ≤ (opField w).toNat) (hindex : modeField w = 0xE#4)
    (h : w &&& ~~~0x7C060#32 = v &&& ~~~0x7C060#32) : DecodeAlike d w v := by
  have hidx : field0 w = field0 v := extract_eq_of_masked h rfl
  have hscale : scaleField w = scaleField v := extract_eq_of_masked h rfl
  refine decodeAlike_of_memOperand hlow h rfl rfl rfl fun hmode => ?_
  rw [decodeMemOperand, decodeMemOperand, ← hmode, hidx, hscale, hindex]
  rfl

/-- Bits 6:5 of the modes with base and index, and of the one with no operand (R151, R152). -/
theorem decodeAlike_of_baseIndex (hlow : 0x80 ≤ (opField w).toNat)
    (hmem : modeField w ∈ [0x6#4, 0x7#4, 0xF#4])
    (h : w &&& ~~~0x60#32 = v &&& ~~~0x60#32) : DecodeAlike d w v := by
  have hbase : field14 w = field14 v := extract_eq_of_masked h rfl
  have hidx : field0 w = field0 v := extract_eq_of_masked h rfl
  have hscale : scaleField w = scaleField v := extract_eq_of_masked h rfl
  refine decodeAlike_of_memOperand hlow h rfl rfl rfl fun hmode => ?_
  rw [decodeMemOperand, decodeMemOperand, ← hmode, hbase, hidx, hscale]
  simp only [List.mem_cons, List.not_mem_nil, or_false] at hmem
  rcases hmem with e | e | e <;> (rw [e]; rfl)

/-- fc of `bx` and `callx` (R710, R712). -/
theorem decodeAlike_of_bxCallx (hbx : opField w = 0x84 ∨ opField w = 0x86)
    (h : w &&& ~~~0xF80000#32 = v &&& ~~~0xF80000#32) : DecodeAlike d w v := by
  have hop : opField w = opField v := extract_eq_of_masked h rfl
  have hmode : modeField w = modeField v := extract_eq_of_masked h rfl
  have hbase : field14 w = field14 v := extract_eq_of_masked h rfl
  have hidx : field0 w = field0 v := extract_eq_of_masked h rfl
  have hscale : scaleField w = scaleField v := extract_eq_of_masked h rfl
  have hoff : offsetField w = offsetField v := extract_eq_of_masked h rfl
  have hoperand : decodeMemOperand w d = decodeMemOperand v d := by
    rw [decodeMemOperand, decodeMemOperand, hmode, hbase, hidx, hscale, hoff]
  have hlow : 0x80 ≤ (opField w).toNat := by
    obtain e | e := hbx <;> (rw [e]; decide)
  refine decodeAlike_mem hop hlow hmode ?_
  rw [decodeMem, decodeMem, hoperand, ← hop]
  obtain e | e := hbx <;> (rw [e]; rfl)

end

/-- Settles O3: one lemma for each set of bits. -/
theorem ignoredBitsDoNotMatter : Obligations.IgnoredBitsDoNotMatter := by
  intro w v d same
  refine ⟨decodeAlike_of_tBit, decodeAlike_of_plainCtrl, decodeAlike_of_test,
    decodeAlike_of_regUnused, ?_, ?_, decodeAlike_of_bxCallx⟩
  · simp only [List.forall_mem_cons]
    exact ⟨decodeAlike_of_oneSource, decodeAlike_of_noDestination,
      fun hcalls => decodeAlike_of_calls (List.mem_singleton.1 hcalls), decodeAlike_of_noOperand,
      fun _ h => nomatch h⟩
  · simp only [List.forall_mem_cons]
    exact ⟨decodeAlike_of_offset, decodeAlike_of_base, decodeAlike_of_disp,
      fun hlow hindex => decodeAlike_of_index hlow (List.mem_singleton.1 hindex),
      decodeAlike_of_baseIndex, fun _ h => nomatch h⟩

end Sys2Proof.Machine
end

section
/-! The frame of every instruction (R34, R41, R50, R55, R81): the shapes of effect that have no
frame yet, then each instruction by its shape. From it the statement on scopes and the one on PC. -/

namespace Sys2Proof.Machine

/-! ### Shapes of effect -/

theorem frame_of_next {w : Scope} {s t u : State} (hu : Frame w s u)
    (h : (Host.Outcome.next u : Result) = .next t) : Frame w s t :=
  Host.Outcome.next.inj h ▸ hu

/-- CC is inside its own mask, and OF inside its own. -/
theorem ccMask_covers : 7#32 &&& ~~~7#32 = 0 := rfl

theorem ofMask_covers : 0x100#32 &&& ~~~0x100#32 = 0 := rfl

section
variable {w : Scope} {s t : State}

theorem frame_setAc {v : Word} (h : v &&& ~~~w.ac = s.ac &&& ~~~w.ac) : Frame w s (s.setAc v) :=
  ⟨fun _ _ => rfl, h, rfl, rfl, fun _ _ => rfl, fun _ => rfl, rfl, rfl, rfl⟩

theorem frame_setPc {v : Word} (h : v &&& ~~~w.pc = s.pc &&& ~~~w.pc) : Frame w s (s.setPc v) :=
  ⟨fun _ _ => rfl, rfl, h, rfl, fun _ _ => rfl, fun _ => rfl, rfl, rfl, rfl⟩

theorem frame_callsPort (s : State) (v : Option Word) :
    Frame { port := true } s { s with callsPort := v } :=
  ⟨fun _ _ => rfl, rfl, rfl, rfl, fun _ _ => rfl, nofun, rfl, rfl, rfl⟩

theorem frame_branchWhen {cond : Cond} {disp : BitVec 22} (h : branchWhen cond disp s = .next t) :
    Frame w s t := by
  refine frame_of_next ?_ h
  split
  · exact frame_setIp s w _
  · exact frame_advance s w 4

theorem frame_faultWhen {cond : Cond} (h : faultWhen cond s = .next t) : Frame w s t := by
  unfold faultWhen at h
  split at h
  · exact absurd h (raise_ne_next _ _ _ _)
  · exact frame_nothing h

theorem frame_bitBranch {c0 : Bool} {a : Src} {b : Reg} {disp : BitVec 11}
    (h : bitBranch c0 a b disp s = .next t) : Frame { ac := 7 } s t := by
  obtain ⟨u, hu, -, -, hframe⟩ := bitBranch_lands c0 a b disp s
  exact frame_of_next hframe (hu.symm.trans h)

theorem frame_compareBranch {sg : Signedness} {cond : Cond} {a : Src} {b : Reg} {disp : BitVec 11}
    (h : compareBranch sg cond a b disp s = .next t) : Frame { ac := 7 } s t := by
  obtain ⟨u, hu, -, -, hframe⟩ := compareBranch_lands sg cond a b disp s
  exact frame_of_next hframe (hu.symm.trans h)

/-- A conditional compare keeps AC or writes CC. -/
theorem frame_concmp {sg : Signedness} {x y : Word} (hw : 7#32 &&& ~~~w.ac = 0) :
    Frame w s ((s.advance 4).setAc (concmpAc sg x y s.ac)) := by
  refine (frame_advance s w 4).trans (frame_setAc ?_)
  rw [State.advance_ac]
  obtain h | h | h := concmpAc_cases sg x y s.ac <;> rw [h]
  · exact and_not_mono (withCc_outside s.ac 1) hw
  · exact and_not_mono (withCc_outside s.ac 2) hw

theorem frame_scanResult {v : Word} {c : Reg} (hw : 7#32 &&& ~~~w.ac = 0) (hc : c ∈ w.regs)
    (h : scanResult v c s = .next t) : Frame w s t := by
  unfold scanResult at h
  split at h <;> exact frame_writeCcReg hw hc h

theorem frame_rewriteIcon {f : Word → Word} (h : rewriteIcon f s = .next t) :
    Frame { bytes := span iconAddress 4 } s t := by
  obtain ⟨-, h⟩ := requireSupervisor_next.1 h
  exact frame_of_next ((frame_advance s _ 4).trans
    (frame_store _ _ iconAddress .word _ fun _ ha => ha)) h

theorem frame_requireDivisor {d : Word} {u : State} {k : Result} (hk : k = .next t → Frame w s t)
    (h : requireDivisor d s u k = .next t) : Frame w s t :=
  hk (requireDivisor_next.1 h).2

theorem frame_moveGroup {n : Nat} {a : Src} {c : Reg} (h : moveGroup n a c s = .next t) :
    Frame { regs := groupRegs c n } s t := by
  obtain ⟨r, rfl, h⟩ := requireReg_next.1 h
  obtain ⟨-, h⟩ := requireGroup_next.1 h
  obtain ⟨-, h⟩ := requireGroup_next.1 h
  refine frame_of_next ((frame_advance s _ 4).trans (frame_setRegs _ _ c _ ?_)) h
  rw [State.regs_length]
  exact fun _ hq => hq

theorem frame_loadOne {n : Width} {widen : Word → Word} {m : MemOperand} {c : Reg} (hc : c ∈ w.regs)
    (h : loadOne n widen m c s = .next t) : Frame w s t := by
  obtain ⟨v, -, h⟩ := orRefuse_next.1 h
  exact frame_of_next ((frame_advance s w _).trans (frame_setReg _ w c _ hc)) h

theorem frame_loadGroup {n : Nat} {m : MemOperand} {c : Reg} (h : loadGroup n m c s = .next t) :
    Frame { regs := groupRegs c n } s t := by
  obtain ⟨-, h⟩ := requireGroup_next.1 h
  obtain ⟨vs, hvs, h⟩ := orRefuse_next.1 h
  refine frame_of_next ((frame_advance s _ _).trans (frame_setRegs _ _ c _ ?_)) h
  rw [(readWords_ok hvs).1]
  exact fun _ hq => hq

theorem frame_write {n : Width} {addr v ac : Word} (h : s.write addr n v = .ok t) :
    Frame { ac := ac, bytes := span addr n.bytes } s t := by
  obtain ⟨-, rfl⟩ := write_ok.1 h
  exact frame_store s _ addr n v fun _ ha => ha

theorem frame_storeOne {n : Width} {c : Reg} {m : MemOperand} (h : storeOne n c m s = .next t) :
    Frame { bytes := span (efa s m) n.bytes } s t := by
  obtain ⟨u, hu, h⟩ := orRefuse_next.1 h
  exact frame_of_next ((frame_advance s _ _).trans (frame_write hu)) h

theorem frame_storeChecked {n : Width} {c : Reg} {m : MemOperand}
    (h : storeChecked n c m s = .next t) :
    Frame { ac := 0x100, bytes := span (efa s m) n.bytes } s t := by
  obtain ⟨-, hu⟩ | ⟨-, -, u, hu, rfl⟩ := commit_next.1 h
  · exact (frame_advance s _ _).trans (frame_write hu)
  · exact ((frame_advance s _ _).trans (frame_write hu)).trans (frame_setOf _ _ ofMask_covers)

theorem frame_storeGroup {n : Nat} {c : Reg} {m : MemOperand} (h : storeGroup n c m s = .next t) :
    Frame { bytes := span (efa s m) (4 * n) } s t := by
  obtain ⟨-, h⟩ := requireGroup_next.1 h
  obtain ⟨u, hu, h⟩ := orRefuse_next.1 h
  refine frame_of_next ((frame_advance s _ _).trans (frame_writeWords _ _ _ _ ?_ hu)) h
  rw [State.regs_length]
  exact fun _ ha => ha

theorem frame_atomic {addr : Word} {f : Word → Word} {c : Reg}
    (h : atomicModify addr f c (s.advance 4) = .next t) :
    Frame { regs := [c], bytes := span addr 4 } s t :=
  (frame_advance s _ 4).trans (frame_atomicModify List.mem_cons_self (fun _ ha => ha) h)

theorem frame_setPair {c : Reg} {v v' : Word} :
    Frame { regs := groupRegs c 2 } s ((s.advance 4).setRegs c [v, v']) :=
  (frame_advance s _ 4).trans (frame_setRegs _ _ c _ fun _ hq => hq)

theorem frame_execEdiv {a b : Src} {c : Reg} (h : execEdiv a b c s = .next t) :
    Frame { regs := groupRegs c 2 } s t := by
  obtain ⟨r, rfl, h⟩ := requireReg_next.1 h
  obtain ⟨-, h⟩ := requireGroup_next.1 h
  obtain ⟨-, h⟩ := requireGroup_next.1 h
  obtain ⟨-, h⟩ := requireDivisor_next.1 h
  dsimp only at h
  split at h
  · cases h
  · exact frame_of_next frame_setPair h

/-- `modpc` changes PC under its mask alone, and under a mask that is not 0 in supervisor mode
alone. -/
theorem execModpc_next {a b : Src} {c : Reg} :
    execModpc a b c s = .next t ↔ (srcValue s b = 0 ∨ emOf s.pc = true) ∧
      t = ((s.advance 4).setPc (modifyBits s.pc (s.reg c) (srcValue s b))).setReg c s.pc := by
  unfold execModpc
  dsimp only
  split
  next hmask =>
    rw [Host.Outcome.next.injEq, eq_comm]
    exact ⟨fun h => ⟨.inl hmask, h⟩, fun h => h.2⟩
  next hmask =>
    rw [requireSupervisor_next, Host.Outcome.next.injEq, eq_comm (b := t), or_iff_right hmask]

end

/-! ### Every instruction -/

theorem exec_atmod (a b : Src) (c : Reg) (s : State) :
    exec (.atmod a b c) s = atomicModify (srcValue s a &&& ~~~3#32)
      (fun old => modifyBits old (s.reg c) (srcValue s b)) c (s.advance 4) := rfl

theorem exec_atadd (a b : Src) (c : Reg) (s : State) :
    exec (.atadd a b c) s = atomicModify (srcValue s a &&& ~~~3#32)
      (fun old => old + srcValue s b) c (s.advance 4) := rfl

theorem exec_intdis (s : State) :
    exec .intdis s = rewriteIcon (fun v => v ||| iconEnableBit) s := rfl

theorem exec_inten (s : State) :
    exec .inten s = rewriteIcon (fun v => v &&& ~~~iconEnableBit) s := rfl

/-- Every instruction keeps to its scope. -/
theorem exec_frame (i : Instr) (s t : State) (h : exec i s = .next t) : Frame (scope s i) s t := by
  cases i with
  | b | bx => exact frame_of_next (frame_setIp s _ _) h
  | bal =>
    exact frame_of_next (((frame_advance s _ 4).trans
      (frame_setReg _ _ _ _ List.mem_cons_self)).trans (frame_setIp _ _ _)) h
  | balx =>
    exact frame_of_next (((frame_advance s _ _).trans
      (frame_setReg _ _ _ _ List.mem_cons_self)).trans (frame_setIp _ _ _)) h
  | lda =>
    exact frame_of_next ((frame_advance s _ _).trans (frame_setReg _ _ _ _ List.mem_cons_self)) h
  | bno | bg | be | bge | bl | bne | ble | bo => exact frame_branchWhen h
  | faultno | faultg | faulte | faultge | faultl | faultne | faultle | faulto =>
    exact frame_faultWhen h
  | mark | fmark | flushreg | syncf => exact frame_nothing h
  | call | callx => exact (frame_advance s _ _).trans (frame_callProc h)
  | ret => exact (frame_advance s _ 4).trans (frame_retProc h)
  | bbc | bbs => exact frame_bitBranch h
  | cmpobg | cmpobe | cmpobge | cmpobl | cmpobne | cmpoble | cmpibno | cmpibg | cmpibe | cmpibge
  | cmpibl | cmpibne | cmpible | cmpibo => exact frame_compareBranch h
  | cmpob | cmpib | cmpos | cmpis | cmpo | cmpi | scanbyte | chkbit =>
    exact frame_writeCc ccMask_covers h
  | concmpo | concmpi => exact frame_of_next (frame_concmp ccMask_covers) h
  | cmpinco | cmpinci | cmpdeco | cmpdeci | addc | subc =>
    exact frame_writeCcReg ccMask_covers List.mem_cons_self h
  | spanbit | scanbit => exact frame_scanResult ccMask_covers List.mem_cons_self h
  | intdis => exact frame_rewriteIcon (exec_intdis s ▸ h)
  | inten => exact frame_rewriteIcon (exec_inten s ▸ h)
  | calls =>
    exact frame_of_next ((frame_advance s _ 4).trans (frame_callsPort _ _)) h
  | modac =>
    exact frame_of_next (((frame_advance s _ 4).trans (frame_setAc (and_not_allOnes _ _))).trans
      (frame_setReg _ _ _ _ List.mem_cons_self)) h
  | modtc =>
    exact frame_of_next (((frame_advance s _ 4).trans (frame_setTc _ _ _ rfl)).trans
      (frame_setReg _ _ _ _ List.mem_cons_self)) h
  | modpc a =>
    obtain ⟨-, rfl⟩ := (execModpc_next (a := a)).1 h
    exact ((frame_advance s _ 4).trans (frame_setPc (and_not_allOnes _ _))).trans
      (frame_setReg _ _ _ _ List.mem_cons_self)
  | filler585 a b c =>
    obtain ⟨u, hu, -, -, hframe⟩ := filler585_writesBits a b c s
    exact frame_of_next hframe (hu.symm.trans h)
  | eshro =>
    obtain ⟨r, -, h⟩ := requireReg_next.1 h
    exact frame_writeReg List.mem_cons_self h
  | movl | movt | movq => exact frame_moveGroup h
  | atmod => exact frame_atomic (exec_atmod _ _ _ s ▸ h)
  | atadd => exact frame_atomic (exec_atadd _ _ _ s ▸ h)
  | emul =>
    obtain ⟨-, h⟩ := requireGroup_next.1 h
    exact frame_of_next frame_setPair h
  | ediv => exact frame_execEdiv h
  | remo | divo | remi | modi =>
    exact frame_requireDivisor (frame_writeReg List.mem_cons_self) h
  | divi => exact frame_requireDivisor (frame_writeChecked ofMask_covers List.mem_cons_self) h
  | addi | subi | shli | muli => exact frame_writeChecked ofMask_covers List.mem_cons_self h
  | addino | addig | addie | addige | addil | addine | addile | addio | subino | subig | subie
  | subige | subil | subine | subile | subio =>
    exact frame_whenCond (frame_writeChecked ofMask_covers List.mem_cons_self) h
  | addono | addog | addoe | addoge | addol | addone | addole | addoo | subono | subog | suboe
  | suboge | subol | subone | subole | suboo =>
    exact frame_whenCond (frame_writeReg List.mem_cons_self) h
  | ldob | ldos | ldib | ldis | ld => exact frame_loadOne List.mem_cons_self h
  | ldl | ldt | ldq => exact frame_loadGroup h
  | stob | stos | st => exact frame_storeOne h
  | stib | stis => exact frame_storeChecked h
  | stl | stt | stq => exact frame_storeGroup h
  | _ => exact frame_writeReg List.mem_cons_self h

/-- Settles O15. -/
theorem everyInstructionKeepsToItsScope : Obligations.EveryInstructionKeepsToItsScope := exec_frame

/-! ### PC -/

theorem and_not_zero (x : Word) : x &&& ~~~(0 : Word) = x := BitVec.and_allOnes

theorem modifyBits_zero (x y : Word) : modifyBits x y 0 = x := by
  rw [← and_not_zero (modifyBits x y 0), modifyBits_outside, and_not_zero]

/-- PC is in the scope of `modpc` alone. -/
theorem exec_pc_of_ne_modpc {i : Instr} {s t : State} (hi : ∀ a b c, i ≠ .modpc a b c)
    (h : exec i s = .next t) : t.pc = s.pc := by
  have hpc := (exec_frame i s t h).pc
  have hscope : (scope s i).pc = 0 := by
    cases i with
    | modpc a b c => exact absurd rfl (hi a b c)
    | _ => rfl
  rwa [hscope, and_not_zero, and_not_zero] at hpc

/-- Settles O16: an exchange under mask 0 keeps PC, and under another mask it is made in supervisor
mode. -/
theorem onlyModpcWritesPcAndOnlyInSupervisorMode :
    Obligations.OnlyModpcWritesPcAndOnlyInSupervisorMode := by
  intro i s t h hne
  by_cases hi : ∃ a b c, i = .modpc a b c
  · obtain ⟨a, b, c, rfl⟩ := hi
    obtain ⟨hmode, rfl⟩ := (execModpc_next (a := a)).1 h
    have hmask : srcValue s b ≠ 0 := fun hzero =>
      hne (by rw [State.setReg_pc, State.setPc_pc, hzero, modifyBits_zero])
    exact ⟨hmode.resolve_left hmask, a, b, c, rfl, hmask⟩
  · exact absurd (exec_pc_of_ne_modpc (fun a b c e => hi ⟨a, b, c, e⟩) h) hne

end Sys2Proof.Machine
end

section
/-! What every next state keeps (R36, R60, R87, log 2). An instruction is a sequence of updates of
the state, so a property that no update breaks holds of its next state: said once for every such
property, then used for the canonical form of memory and for the alignment of `ip`. -/

namespace Sys2Proof.Machine

/-! ### What a next state meets -/

/-- The next state of an outcome, if it has one, meets `P`. -/
def Answers (P : State → Prop) : Result → Prop
  | .next t => P t
  | .fault _ => True
  | .refused _ => True

/-- The updates of registers, memory and the port keep `P`. -/
structure Stable (P : State → Prop) : Prop where
  setReg : ∀ {s} r v, P s → P (s.setReg r v)
  setAc : ∀ {s} v, P s → P (s.setAc v)
  setPc : ∀ {s} v, P s → P (s.setPc v)
  setTc : ∀ {s} v, P s → P (s.setTc v)
  setPort : ∀ {s : State} v, P s → P { s with callsPort := v }
  store : ∀ {s} addr n v, P s → P (s.setMem (s.mem.store addr n v))

namespace Stable

variable {P : State → Prop} (hP : Stable P) {s : State}
include hP

theorem setRegs (r : Reg) (vs : List Word) (hs : P s) : P (s.setRegs r vs) := by
  induction vs generalizing s r with
  | nil => exact hs
  | cons v vs ih => exact ih _ (hP.setReg r v hs)

theorem write {n : Width} {addr v : Word} {u : State} (hs : P s) (h : s.write addr n v = .ok u) :
    P u := by
  obtain ⟨-, rfl⟩ := write_ok.1 h
  exact hP.store addr n v hs

theorem writeWords {addr : Word} {vs : List Word} {u : State} (hs : P s)
    (h : s.writeWords addr vs = .ok u) : P u := by
  induction vs generalizing s addr with
  | nil => exact Except.ok.inj h ▸ hs
  | cons v vs ih =>
    simp only [State.writeWords] at h
    split at h
    · cases h
    next t ht => exact ih (hP.write hs ht) h

end Stable

namespace Answers

variable {P : State → Prop} {s : State}

theorem of_next {r : Result} {t : State} (h : Answers P r) (hr : r = .next t) : P t := by
  subst hr
  exact h

theorem ite {c : Prop} [Decidable c] {k l : Result} (hk : Answers P k) (hl : Answers P l) :
    Answers P (if c then k else l) := by
  split
  · exact hk
  · exact hl

theorem next_ite {c : Prop} [Decidable c] {t u : State} (ht : P t) (hu : P u) :
    Answers P (.next (if c then t else u)) := by
  split
  · exact ht
  · exact hu

theorem orRefuse {α : Type} {e : Except Refusal α} {k : α → Result}
    (hk : ∀ v, e = .ok v → Answers P (k v)) : Answers P (orRefuse e k) := by
  cases e with
  | ok v => exact hk v rfl
  | error => trivial

theorem requireReg {a : Src} {k : Reg → Result} (hk : ∀ r, Answers P (k r)) :
    Answers P (requireReg a k) := by
  cases a with
  | reg r => exact hk r
  | lit => trivial

theorem requireGroup {n : Nat} {r : Reg} {k : Result} (hk : Answers P k) :
    Answers P (requireGroup n r k) :=
  ite hk trivial

theorem requireSupervisor {u : State} {k : Result} (hk : Answers P k) :
    Answers P (requireSupervisor s u k) :=
  ite hk trivial

theorem requireDivisor {d : Word} {u : State} {k : Result} (hk : Answers P k) :
    Answers P (requireDivisor d s u k) :=
  ite trivial hk

theorem whenCond {cond : Cond} {k : Result} (hk : Answers P k) (hs : P (s.advance 4)) :
    Answers P (whenCond cond s k) :=
  ite hk hs

variable (hP : Stable P)
include hP

/-- A commit answers the effect, with or without OF. -/
theorem commit {overflow : Bool} {p : Word} {effect : State → Except Refusal State}
    (he : ∀ u, effect s = .ok u → P u) : Answers P (commit overflow p s effect) := by
  cases h : Machine.commit overflow p s effect with
  | next t =>
    obtain ⟨-, hu⟩ | ⟨-, -, u, hu, rfl⟩ := commit_next.1 h
    · exact he t hu
    · exact hP.setAc _ (he u hu)
  | fault => trivial
  | refused => trivial

section
variable (hs : P (s.advance 4))
include hs

theorem writeReg {c : Reg} {v : Word} : Answers P (writeReg c v s) := hP.setReg c v hs

theorem writeCc {code : BitVec 3} : Answers P (writeCc code s) := hP.setAc _ hs

theorem writeCcReg {code : BitVec 3} {c : Reg} {v : Word} : Answers P (writeCcReg code c v s) :=
  hP.setReg c v (hP.setAc _ hs)

theorem writeChecked {overflow : Bool} {c : Reg} {v : Word} :
    Answers P (writeChecked overflow c v s) :=
  commit hP fun _ hu => Except.ok.inj hu ▸ hP.setReg c v hs

theorem scanResult {v : Word} {c : Reg} : Answers P (scanResult v c s) :=
  ite (writeCcReg hP hs) (writeCcReg hP hs)

theorem filler585 {a b : Src} {c : Reg} : Answers P (execFiller585 a b c s) := by
  unfold execFiller585
  split <;> exact hP.setReg c _ hs

theorem rewriteIcon {f : Word → Word} : Answers P (rewriteIcon f s) :=
  requireSupervisor (hP.store iconAddress .word _ hs)

theorem moveGroup {n : Nat} {a : Src} {c : Reg} : Answers P (moveGroup n a c s) :=
  requireReg fun _ => requireGroup <| requireGroup <| hP.setRegs _ _ hs

theorem ediv {a b : Src} {c : Reg} : Answers P (execEdiv a b c s) :=
  requireReg fun _ => requireGroup <| requireGroup <| requireDivisor <|
    ite trivial (hP.setRegs _ [_, _] hs)

end

section
variable {m : MemOperand} (hs : P (s.advance (memLength m)))
include hs

theorem loadOne {n : Width} {widen : Word → Word} {c : Reg} : Answers P (loadOne n widen m c s) :=
  orRefuse fun _ _ => hP.setReg _ _ hs

theorem loadGroup {n : Nat} {c : Reg} : Answers P (loadGroup n m c s) :=
  requireGroup <| orRefuse fun _ _ => hP.setRegs _ _ hs

theorem storeOne {n : Width} {c : Reg} : Answers P (storeOne n c m s) :=
  orRefuse fun _ hu => hP.write hs hu

theorem storeChecked {n : Width} {c : Reg} : Answers P (storeChecked n c m s) :=
  commit hP fun _ hu => hP.write hs hu

theorem storeGroup {n : Nat} {c : Reg} : Answers P (storeGroup n c m s) :=
  requireGroup <| orRefuse fun _ hu => hP.writeWords hs hu

end

theorem atomicModify {addr : Word} {f : Word → Word} {c : Reg} (hs : P s) :
    Answers P (atomicModify addr f c s) := by
  cases h : Machine.atomicModify addr f c s with
  | next t =>
    obtain ⟨-, rfl⟩ := atomicModify_next.1 h
    exact hP.setReg c _ (hP.store addr .word _ hs)
  | fault => trivial
  | refused => trivial

theorem callProc {target : Word} (hs : P s) (hip : ∀ u, P u → P (u.setIp target)) :
    Answers P (callProc target s) :=
  orRefuse fun _ hu => hip _ (hP.setReg _ _ (hP.setReg _ _ (hP.setReg _ _
    (hP.writeWords (hP.setReg _ _ hs) hu))))

theorem retProc (hs : P s) (hip : ∀ u v, P u → P (u.setIp v)) : Answers P (retProc s) :=
  ite trivial <| orRefuse fun _ _ => hip _ _ (hP.setRegs _ _ (hP.setReg _ _ hs))

end Answers

/-! ### Where an instruction goes -/

/-- A multiple of 4, as R36 asks of an instruction's address. -/
abbrev WordAligned (a : Word) : Prop := a.toNat % 4 = 0

theorem wordAligned_add {a b : Word} (ha : WordAligned a) (hb : WordAligned b) :
    WordAligned (a + b) := by
  rw [WordAligned, BitVec.toNat_add]
  omega

theorem wordAligned_memLength (m : MemOperand) : WordAligned (BitVec.ofNat 32 (memLength m)) := by
  have hlen : memLength m = 4 ∨ memLength m = 8 := by
    cases m <;> simp [memLength]
  obtain h | h := hlen <;> (rw [h]; rfl)

/-- A displacement counts words. -/
theorem wordAligned_disp {n : Nat} (d : BitVec n) : WordAligned ((d ++ 0#2).signExtend 32) := by
  rw [signExtend_append_zeros, WordAligned, BitVec.toNat_ofInt]
  omega

/-- The target of a transfer is a value of a register or of memory. -/
def ValueTarget (i : Instr) : Prop :=
  i = .ret ∨ (∃ m, i = .bx m) ∨ (∃ m c, i = .balx m c) ∨ ∃ m, i = .callx m

/-- `v` is an `ip` that `i` may leave in `s`: word aligned where `s.ip` is, or a value. -/
def MayGoTo (i : Instr) (s : State) (v : Word) : Prop :=
  ValueTarget i ∨ (WordAligned s.ip → WordAligned v)

theorem mayGoTo_next {i : Instr} {s : State} : MayGoTo i s (s.advance 4).ip :=
  .inr fun h => wordAligned_add h rfl

theorem mayGoTo_nextMem {i : Instr} {s : State} (m : MemOperand) :
    MayGoTo i s (s.advance (memLength m)).ip :=
  .inr fun h => wordAligned_add h (wordAligned_memLength m)

theorem mayGoTo_disp {i : Instr} {s : State} {n : Nat} (d : BitVec n) :
    MayGoTo i s (s.ip + (d ++ 0#2).signExtend 32) :=
  .inr fun h => wordAligned_add h (wordAligned_disp d)

/-- What no update breaks holds of the next state of every instruction. Those of the last case write
one register. -/
theorem exec_answers {P : State → Prop} (hP : Stable P) (i : Instr) {s : State} (hs : P s)
    (hip : ∀ u v, MayGoTo i s v → P u → P (u.setIp v)) : Answers P (exec i s) := by
  have hnext : P (s.advance 4) := hip s _ mayGoTo_next hs
  have hnextMem (m : MemOperand) : P (s.advance (memLength m)) := hip s _ (mayGoTo_nextMem m) hs
  have hjump {n : Nat} (d : BitVec n) (u : State) (hu : P u) :
      P (u.setIp (s.ip + (d ++ 0#2).signExtend 32)) := hip u _ (mayGoTo_disp d) hu
  cases i with
  | b d => exact hjump d s hs
  | bal d => exact hjump d _ (hP.setReg _ _ hnext)
  | call d => exact .callProc hP hnext (hjump d)
  | bx m => exact hip s _ (.inl (.inr (.inl ⟨m, rfl⟩))) hs
  | balx m c =>
    exact hip _ _ (.inl (.inr (.inr (.inl ⟨m, c, rfl⟩)))) (hP.setReg _ _ (hnextMem m))
  | callx m =>
    exact .callProc hP (hnextMem m) fun u => hip u _ (.inl (.inr (.inr (.inr ⟨m, rfl⟩))))
  | ret => exact .retProc hP hnext fun u v => hip u v (.inl (.inl rfl))
  | bno d | bg d | be d | bge d | bl d | bne d | ble d | bo d =>
    exact .next_ite (hjump d s hs) hnext
  | faultno | faultg | faulte | faultge | faultl | faultne | faultle | faulto =>
    exact .ite trivial hnext
  | mark | fmark | flushreg | syncf => exact hnext
  | bbc _ _ d | bbs _ _ d | cmpobg _ _ d | cmpobe _ _ d | cmpobge _ _ d | cmpobl _ _ d
  | cmpobne _ _ d | cmpoble _ _ d | cmpibno _ _ d | cmpibg _ _ d | cmpibe _ _ d | cmpibge _ _ d
  | cmpibl _ _ d | cmpibne _ _ d | cmpible _ _ d | cmpibo _ _ d =>
    exact .next_ite (hjump d _ (hP.setAc _ hnext)) (hP.setAc _ hnext)
  | cmpob | cmpib | cmpos | cmpis | cmpo | cmpi | scanbyte | chkbit => exact .writeCc hP hnext
  | concmpo | concmpi => exact hP.setAc _ hnext
  | cmpinco | cmpinci | cmpdeco | cmpdeci | addc | subc => exact .writeCcReg hP hnext
  | spanbit | scanbit => exact .scanResult hP hnext
  | intdis => exact exec_intdis s ▸ .rewriteIcon hP hnext
  | inten => exact exec_inten s ▸ .rewriteIcon hP hnext
  | calls => exact hP.setPort _ hnext
  | modac => exact hP.setReg _ _ (hP.setAc _ hnext)
  | modtc => exact hP.setReg _ _ (hP.setTc _ hnext)
  | modpc =>
    exact .ite (hP.setReg _ _ (hP.setPc _ hnext))
      (.requireSupervisor (hP.setReg _ _ (hP.setPc _ hnext)))
  | filler585 => exact .filler585 hP hnext
  | eshro => exact .requireReg fun _ => .writeReg hP hnext
  | movl | movt | movq => exact .moveGroup hP hnext
  | atmod => exact exec_atmod _ _ _ s ▸ .atomicModify hP hnext
  | atadd => exact exec_atadd _ _ _ s ▸ .atomicModify hP hnext
  | emul => exact .requireGroup (hP.setRegs _ [_, _] hnext)
  | ediv => exact .ediv hP hnext
  | remo | divo | remi | modi => exact .requireDivisor (.writeReg hP hnext)
  | divi => exact .requireDivisor (.writeChecked hP hnext)
  | addi | subi | shli | muli => exact .writeChecked hP hnext
  | addino | addig | addie | addige | addil | addine | addile | addio | subino | subig | subie
  | subige | subil | subine | subile | subio => exact .whenCond (.writeChecked hP hnext) hnext
  | addono | addog | addoe | addoge | addol | addone | addole | addoo | subono | subog | suboe
  | suboge | subol | subone | subole | suboo => exact .whenCond (.writeReg hP hnext) hnext
  | lda m => exact hP.setReg _ _ (hnextMem m)
  | ldob m | ldos m | ldib m | ldis m | ld m => exact .loadOne hP (hnextMem m)
  | ldl m | ldt m | ldq m => exact .loadGroup hP (hnextMem m)
  | stob _ m | stos _ m | st _ m => exact .storeOne hP (hnextMem m)
  | stib _ m | stis _ m => exact .storeChecked hP (hnextMem m)
  | stl _ m | stt _ m | stq _ m => exact .storeGroup hP (hnextMem m)
  | _ => exact .writeReg hP hnext

/-! ### The alignment of `ip` (R36) -/

theorem stable_wordAligned : Stable fun t => WordAligned t.ip :=
  ⟨fun _ _ => id, fun _ => id, fun _ => id, fun _ => id, fun _ => id, fun _ _ _ => id⟩

/-- Settles O22: no update but that of `ip` touches it, and where the target is no value it is
aligned. -/
theorem transfersByDisplacementStayAligned : Obligations.TransfersByDisplacementStayAligned := by
  intro i s t h hip hret hbx hbalx hcallx
  have hvalue : ¬ValueTarget i := by
    rintro (e | ⟨m, e⟩ | ⟨m, c, e⟩ | ⟨m, e⟩)
    exacts [hret e, hbx m e, hbalx m c e, hcallx m e]
  exact (exec_answers stable_wordAligned i hip
    fun _ _ hgo _ => hgo.resolve_left hvalue hip).of_next h

/-! ### The invariant -/

theorem stable_wf : Stable fun t => t.mem.wf = true :=
  ⟨fun _ _ => id, fun _ => id, fun _ => id, fun _ => id, fun _ => id, Memory.wf_store _⟩

theorem exec_wf {i : Instr} {s t : State} (hw : s.mem.wf = true) (h : exec i s = .next t) :
    t.mem.wf = true :=
  (exec_answers stable_wf i hw fun _ _ _ => id).of_next h

/-- A next state of a step is the answer to a call, the same state at the end of the run, or the
next state of an instruction. -/
theorem step_next {s t : State} (h : step s = .next t) :
    (∃ v, answerCalls v s = .next t) ∨ t = s ∨ ∃ i, exec i s = .next t := by
  unfold step at h
  split at h
  next v _ => exact .inl ⟨v, h⟩
  · split at h
    · exact .inr (.inl (Host.Outcome.next.inj h).symm)
    · split at h
      · split at h
        next i _ _ => exact .inr (.inr ⟨i, h⟩)
        · cases h
      · cases h

/-- Settles O14: a call's answer keeps both parts (`answerCalls_next`); an instruction keeps the
form (`exec_wf`) and, by its frame, the lock. -/
theorem stepKeepsTheInvariant : Obligations.StepKeepsTheInvariant := by
  rintro s t ⟨hw, hlock⟩ h
  obtain ⟨v, hv⟩ | rfl | ⟨i, hi⟩ := step_next h
  · obtain ⟨hlock', -, -, -, hw'⟩ := answerCalls_next hv
    exact ⟨hw' hw, hlock'.trans hlock⟩
  · exact ⟨hw, hlock⟩
  · exact ⟨exec_wf hw hi, (exec_frame i s t hi).lockHeld.trans hlock⟩

/-- Settles O13: the empty memory is canonical. -/
theorem resetMeetsTheInvariant : Obligations.ResetMeetsTheInvariant := ⟨rfl, rfl⟩

/-! ### The ends of a run -/

theorem reset_reg (r : Reg) : State.reset.reg r = 0 := by
  simp [State.reg, State.reset, State.launch]

/-- Settles O12: the fields of `State.reset`. -/
theorem resetValues : Obligations.ResetValues :=
  ⟨rfl, reset_reg, rfl, rfl, rfl, rfl, fun _ => rfl, rfl, rfl, rfl⟩

theorem step_at_halt {s : State} (hcalls : s.callsPort = none) (hhalt : s.haltIp = some s.ip) :
    step s = .next s := by
  simp only [step, hcalls, if_pos hhalt]

theorem step_of_call {s : State} {v : Word} (hv : s.callsPort = some v) :
    step s = answerCalls v s := by
  simp only [step, hv]

/-- Settles O10: the step's two branches that run no instruction. -/
theorem runBoundaries : Obligations.RunBoundaries := by
  refine fun s => ⟨step_at_halt, fun v hv => ?_⟩
  rw [step_of_call hv, answerCalls]
  constructor
  · intro core stores hanswer
    rw [hanswer]
    exact ⟨_, rfl, rfl, rfl, rfl, rfl, rfl, rfl⟩
  · intro code hanswer
    rw [hanswer]

/-- Settles O11: its frame is its scope. -/
theorem callsHandsItsOperandToTheEnvironment :
    Obligations.CallsHandsItsOperandToTheEnvironment :=
  fun a s => ⟨_, rfl, rfl, rfl, exec_frame (.calls a) s _ rfl⟩

/-- Settles O49: the four are `nothing`. -/
theorem noOperations : Obligations.NoOperations := by
  simp only [Obligations.NoOperations, List.forall_mem_cons]
  have hnothing (s : State) : ∃ t, nothing s = .next t ∧ t.ip = s.ip + 4 ∧ Frame {} s t :=
    ⟨_, rfl, rfl, frame_nothing rfl⟩
  exact ⟨hnothing, hnothing, hnothing, hnothing, fun _ h => nomatch h⟩

/-- Settles O26: the codes as they stand. -/
theorem faultCodes : Obligations.FaultCodes := rfl

end Sys2Proof.Machine
end

section
/-! The control bits with no meaning (R40, R50) and the values of CC (R41): a change of stored bits
is hidden, and what is written in CC is a code. -/

namespace Sys2Proof.Machine

/-! ### Stored bits -/

/-- The change that puts `v` in PC. -/
def ControlMap.setPc (v : Word) : ControlMap := { pc := fun _ => v }

theorem ControlMap.hidden_setPc (v : Word) : (ControlMap.setPc v).Hidden :=
  ⟨fun _ => rfl, fun _ => rfl, fun _ _ => rfl, fun _ => rfl⟩

/-- The change that flips bits of AC. -/
def ControlMap.flipAc (m : Word) : ControlMap := { ac := fun ac => ac ^^^ m }

/-- Bits of AC outside CC, OF and OM are hidden. -/
theorem ControlMap.hidden_flipAc {m : Word} (hm : m &&& 0x1107#32 = 0) :
    (ControlMap.flipAc m).Hidden := by
  have hbit (k : Nat) (hk : (0x1107#32).getLsbD k = true) : m.getLsbD k = false := by
    have h := congrArg (·.getLsbD k) hm
    simpa [hk] using h
  refine ⟨fun ac => ?_, fun ac => ?_, fun ac v => ?_, fun ac => ?_⟩
  · have hcc : m.extractLsb' 0 3 = 0 := by
      apply BitVec.eq_of_getLsbD_eq
      intro k hk
      have hmask : ∀ k < 3, (0x1107#32).getLsbD k = true := by decide
      simp [hk, hbit k (hmask k hk)]
    rw [flipAc, ccOf, BitVec.extractLsb'_xor, hcc]
    exact BitVec.xor_zero
  · rw [flipAc, omOf, BitVec.getLsbD_xor, hbit 12 rfl, Bool.xor_false]
    rfl
  · apply BitVec.eq_of_getLsbD_eq
    intro k hk
    have hmask : k < 3 → (0x1107#32).getLsbD k = true := by
      revert k
      decide
    simp only [flipAc, BitVec.getLsbD_xor, withCc_getLsbD]
    split
    next h => rw [hbit k (hmask h), Bool.xor_false]
    · rfl
  · apply BitVec.eq_of_getLsbD_eq
    intro k hk
    simp only [flipAc, BitVec.getLsbD_xor, withOf_getLsbD]
    by_cases h : k = 8
    · rw [h, hbit 8 rfl, Bool.xor_false, Bool.xor_false]
    · rw [beq_eq_false_iff_ne.2 h, Bool.or_false, Bool.or_false]

/-- Settles O20: both changes are hidden, and the first leaves EM. -/
theorem storageOnlyControlBitsHaveNoEffect : Obligations.StorageOnlyControlBitsHaveNoEffect :=
  ⟨fun i s v hi hem =>
      ControlMap.commutes_exec (s := s) (ControlMap.hidden_setPc v) hem i (.inl rfl) (.inr hi)
        (.inl rfl),
    fun i s _ hi hm =>
      ControlMap.commutes_exec (s := s) (ControlMap.hidden_flipAc hm) rfl i (.inr hi) (.inl rfl)
        (.inl rfl)⟩

/-! ### The values of CC -/

/-- The values of CC that R41 allows. -/
abbrev IsCode (v : BitVec 3) : Prop := v ∈ [0#3, 1#3, 2#3, 4#3]

theorem isCode_orderCode (x y : Int) : IsCode (orderCode x y) := by
  obtain h | h | h := orderCode_cases x y <;> (rw [h]; decide)

theorem isCode_cmpCode (sg : Signedness) (a b : Word) : IsCode (cmpCode sg a b) := by
  rw [cmpCode_eq_orderCode]
  exact isCode_orderCode _ _

theorem isCode_matchCode (found : Bool) : IsCode (matchCode found) := by
  cases found <;> decide

theorem isCode_concmpAc {ac : Word} (sg : Signedness) (x y : Word) (h : IsCode (ccOf ac)) :
    IsCode (ccOf (concmpAc sg x y ac)) := by
  obtain e | e | e := concmpAc_cases sg x y ac <;> rw [e]
  · exact h
  · rw [ccOf_withCc]; decide
  · rw [ccOf_withCc]; decide

/-- CC is kept where it is outside the scope. -/
theorem Frame.ccOf_eq {w : Scope} {s t : State} (h : Frame w s t) (hw : w.ac = 0 ∨ w.ac = 0x100) :
    ccOf t.ac = ccOf s.ac := by
  have hac := h.ac
  obtain e | e := hw <;> (rw [e] at hac; exact extract_eq_of_masked hac rfl)

theorem writeCc_isCode {code : BitVec 3} {s : State} (h : IsCode code) :
    Answers (fun t => IsCode (ccOf t.ac)) (writeCc code s) := by
  show IsCode (ccOf (withCc s.ac code))
  rwa [ccOf_withCc]

theorem writeCcReg_isCode {code : BitVec 3} {c : Reg} {v : Word} {s : State} (h : IsCode code) :
    Answers (fun t => IsCode (ccOf t.ac)) (writeCcReg code c v s) :=
  writeCc_isCode (s := s) h

theorem bitBranch_isCode {c0 : Bool} {a : Src} {b : Reg} {d : BitVec 11} {s : State} :
    Answers (fun t => IsCode (ccOf t.ac)) (bitBranch c0 a b d s) := by
  obtain ⟨t, ht, hcc, -⟩ := bitBranch_lands c0 a b d s
  rw [ht]
  show IsCode (ccOf t.ac)
  rw [hcc]
  split <;> decide

theorem compareBranch_isCode {sg : Signedness} {cond : Cond} {a : Src} {b : Reg} {d : BitVec 11}
    {s : State} : Answers (fun t => IsCode (ccOf t.ac)) (compareBranch sg cond a b d s) := by
  obtain ⟨t, ht, hcc, -⟩ := compareBranch_lands sg cond a b d s
  rw [ht]
  show IsCode (ccOf t.ac)
  rw [hcc]
  exact isCode_orderCode _ _

/-- Every instruction but the three that compute CC keeps it a code. Those of the last two cases
have no bit of CC in their scope. -/
theorem exec_isCode {i : Instr} {s t : State} (h : exec i s = .next t)
    (hmodac : ∀ a b c, i ≠ .modac a b c) (haddc : ∀ a b c, i ≠ .addc a b c)
    (hsubc : ∀ a b c, i ≠ .subc a b c) (hcc : IsCode (ccOf s.ac)) : IsCode (ccOf t.ac) := by
  have hframe := exec_frame i s t h
  cases i with
  | modac a b c => exact absurd rfl (hmodac a b c)
  | addc a b c => exact absurd rfl (haddc a b c)
  | subc a b c => exact absurd rfl (hsubc a b c)
  | bbc | bbs => exact bitBranch_isCode.of_next h
  | cmpobg | cmpobe | cmpobge | cmpobl | cmpobne | cmpoble | cmpibno | cmpibg | cmpibe | cmpibge
  | cmpibl | cmpibne | cmpible | cmpibo => exact compareBranch_isCode.of_next h
  | cmpob | cmpib | cmpos | cmpis | cmpo | cmpi =>
    exact (writeCc_isCode (isCode_cmpCode _ _ _)).of_next h
  | scanbyte | chkbit => exact (writeCc_isCode (isCode_matchCode _)).of_next h
  | cmpinco | cmpinci | cmpdeco | cmpdeci =>
    exact (writeCcReg_isCode (isCode_cmpCode _ _ _)).of_next h
  | spanbit | scanbit =>
    exact (Answers.ite (writeCcReg_isCode (isCode_matchCode _))
      (writeCcReg_isCode (isCode_matchCode _))).of_next h
  | concmpo | concmpi =>
    obtain rfl := Host.Outcome.next.inj h
    exact isCode_concmpAc _ _ _ hcc
  | addi | subi | shli | muli | divi | addino | addig | addie | addige | addil | addine | addile
  | addio | subino | subig | subie | subige | subil | subine | subile | subio | stib | stis =>
    rwa [hframe.ccOf_eq (.inr rfl)]
  | _ => rwa [hframe.ccOf_eq (.inl rfl)]

/-- Settles O21: AC is kept but for CC or OF (`exec_acEffect`), and CC stays a code
(`exec_isCode`). -/
theorem conditionCodeStaysOneOfTheFourValues :
    Obligations.ConditionCodeStaysOneOfTheFourValues := by
  intro i s t h hmodac
  refine ⟨?_, fun haddc hsubc => exec_isCode h hmodac haddc hsubc⟩
  have hac := exec_acEffect i s hmodac
  rw [h] at hac
  obtain e | ⟨v, e⟩ | ⟨-, -, e⟩ := hac <;> rw [e]
  · exact and_not_mono (withCc_outside s.ac v) rfl
  · exact and_not_mono (withOf_outside s.ac) rfl

end Sys2Proof.Machine
end

section
/-! The refusals (R20, R142, R500): everything that stops an instruction other than a raised fault,
said once for every instruction, and the refusal of each ill-formed one by name. -/

namespace Sys2Proof.Machine

/-! ### Why an instruction is refused -/

/-- The closed list of R20, as an instruction can give it. -/
def ClosedRefusal (i : Instr) (s : State) (r : Refusal) : Prop :=
  (r = .retVariant ∧ i = .ret ∧ (s.reg .pfp).extractLsb' 0 3 ≠ 0) ∨
    ((r = .unalignedGroup ∨ r = .literalGroup) ∧ i.wf = false) ∨
    (r = .edivQuotientOverflow ∧ ∃ a b c, i = .ediv a b c) ∨
    (r = .misalignedData ∧ s.params.misalignedData = .refuse)

/-- The atomic instructions (R520, R521). -/
def Atomic (i : Instr) : Prop := ∃ a b c, i = .atmod a b c ∨ i = .atadd a b c

/-- The outcome stops in the ways the spec closes alone. -/
def StopsAs (i : Instr) (s : State) : Result → Prop
  | .next _ => True
  | .fault .stuckOnLock => s.lockHeld = true ∧ Atomic i
  | .fault _ => True
  | .refused r => ClosedRefusal i s r

theorem refuse_of_portRefuses {s : State} {addr : Word} {n : Width}
    (h : s.portRefuses addr n = true) : s.params.misalignedData = .refuse := by
  cases hp : s.params.misalignedData with
  | refuse => rfl
  | compose => rw [portRefuses_compose s addr n hp] at h; cases h

theorem refuse_of_readWords_error {s : State} {addr : Word} {n : Nat} {r : Refusal}
    (h : s.readWords addr n = .error r) : s.params.misalignedData = .refuse := by
  cases hp : s.params.misalignedData with
  | refuse => rfl
  | compose =>
    obtain ⟨vs, hvs⟩ := readWords_total s addr n fun _ _ => portRefuses_compose s _ _ hp
    rw [hvs] at h
    cases h

theorem refuse_of_writeWords_error {s : State} {addr : Word} {vs : List Word} {r : Refusal}
    (h : s.writeWords addr vs = .error r) : s.params.misalignedData = .refuse := by
  cases hp : s.params.misalignedData with
  | refuse => rfl
  | compose =>
    obtain ⟨t, ht⟩ := writeWords_total s addr vs fun _ _ => portRefuses_compose s _ _ hp
    rw [ht] at h
    cases h

namespace StopsAs

variable {i : Instr} {s : State}

/-! ### The stops of the shared operations -/

theorem next {t : State} : StopsAs i s (.next t) := trivial

theorem ite {c : Prop} [Decidable c] {k l : Result} (hk : c → StopsAs i s k)
    (hl : ¬c → StopsAs i s l) : StopsAs i s (if c then k else l) := by
  split
  next h => exact hk h
  next h => exact hl h

theorem orRefuse {α : Type} {e : Except Refusal α} {k : α → Result}
    (he : ∀ r, e = .error r → r = .misalignedData ∧ s.params.misalignedData = .refuse)
    (hk : ∀ v, StopsAs i s (k v)) : StopsAs i s (orRefuse e k) := by
  cases e with
  | ok v => exact hk v
  | error r => exact .inr (.inr (.inr (he r rfl)))

theorem requireReg {a : Src} {k : Reg → Result} (hwf : ∀ v, a = .lit v → i.wf = false)
    (hk : ∀ r, a = .reg r → StopsAs i s (k r)) : StopsAs i s (requireReg a k) := by
  cases a with
  | reg r => exact hk r rfl
  | lit v => exact .inr (.inl ⟨.inr rfl, hwf v rfl⟩)

theorem requireGroup {n : Nat} {r : Reg} {k : Result}
    (hwf : groupAligned n r = false → i.wf = false) (hk : StopsAs i s k) :
    StopsAs i s (requireGroup n r k) :=
  ite (fun _ => hk) fun h => .inr (.inl ⟨.inl rfl, hwf (Bool.eq_false_iff.2 h)⟩)

theorem requireDivisor {d : Word} {u : State} {k : Result} (hk : StopsAs i s k) :
    StopsAs i s (requireDivisor d s u k) :=
  ite (fun _ => trivial) fun _ => hk

theorem whenCond {cond : Cond} {k : Result} (hk : StopsAs i s k) :
    StopsAs i s (whenCond cond s k) :=
  ite (fun _ => hk) fun _ => trivial

theorem commit {overflow : Bool} {p : Word} {u : State} {effect : State → Except Refusal State}
    (he : ∀ r, effect u = .error r → r = .misalignedData ∧ s.params.misalignedData = .refuse) :
    StopsAs i s (commit overflow p u effect) := by
  cases h : Machine.commit overflow p u effect with
  | next => trivial
  | fault f =>
    obtain ⟨-, -, v, rfl, -⟩ := commit_fault.1 h
    trivial
  | refused r => exact .inr (.inr (.inr (he r (commit_refused h))))

theorem writeChecked {overflow : Bool} {c : Reg} {v : Word} :
    StopsAs i s (writeChecked overflow c v s) :=
  commit nofun

theorem atomicModify {addr : Word} {f : Word → Word} {c : Reg} (hi : Atomic i) :
    StopsAs i s (atomicModify addr f c (s.advance 4)) :=
  ite (fun hlock => ⟨hlock, hi⟩) fun _ => trivial

theorem moveGroup {n : Nat} {a : Src} {c : Reg}
    (hwf : (a.group (groupAligned n) && groupAligned n c) = false → i.wf = false) :
    StopsAs i s (moveGroup n a c s) := by
  refine requireReg (fun v ha => hwf ?_) fun r ha =>
    requireGroup (fun h => hwf ?_) <| requireGroup (fun h => hwf ?_) trivial
  · rw [ha]; rfl
  · rw [ha, Src.group, h]; rfl
  · rw [h, Bool.and_false]

theorem loadOne {n : Width} {widen : Word → Word} {m : MemOperand} {c : Reg} :
    StopsAs i s (loadOne n widen m c s) := by
  refine orRefuse (fun r hr => ?_) fun _ => trivial
  obtain ⟨hport, rfl⟩ := read_error.1 hr
  exact ⟨rfl, refuse_of_portRefuses hport⟩

theorem loadGroup {n : Nat} {m : MemOperand} {c : Reg}
    (hwf : groupAligned n c = false → i.wf = false) : StopsAs i s (loadGroup n m c s) :=
  requireGroup hwf <| orRefuse (fun _ hr => ⟨readWords_error hr, refuse_of_readWords_error hr⟩)
    fun _ => trivial

theorem write_error_closed {len : Nat} {n : Width} {addr v : Word} {r : Refusal}
    (h : (s.advance len).write addr n v = .error r) :
    r = .misalignedData ∧ s.params.misalignedData = .refuse := by
  obtain ⟨hport, rfl⟩ := write_error.1 h
  exact ⟨rfl, refuse_of_portRefuses hport⟩

theorem storeOne {n : Width} {c : Reg} {m : MemOperand} : StopsAs i s (storeOne n c m s) :=
  orRefuse (fun _ => write_error_closed) fun _ => trivial

theorem storeChecked {n : Width} {c : Reg} {m : MemOperand} : StopsAs i s (storeChecked n c m s) :=
  commit fun _ => write_error_closed

theorem storeGroup {n : Nat} {m : MemOperand} {c : Reg}
    (hwf : groupAligned n c = false → i.wf = false) : StopsAs i s (storeGroup n c m s) :=
  requireGroup hwf <| orRefuse
    (fun _ hr => ⟨writeWords_error hr, refuse_of_writeWords_error (s := s.advance _) hr⟩)
    fun _ => trivial

theorem callProc {target : Word} {len : Nat} : StopsAs i s (callProc target (s.advance len)) :=
  orRefuse (fun _ hr => ⟨writeWords_error hr,
    refuse_of_writeWords_error (s := (s.advance len).setReg .rip _) hr⟩) fun _ => trivial

theorem retProc (hi : i = .ret) : StopsAs i s (retProc (s.advance 4)) :=
  ite (fun h => .inl ⟨rfl, hi, bne_iff_ne.1 h⟩) fun _ =>
    orRefuse (fun _ hr => ⟨readWords_error hr,
      refuse_of_readWords_error (s := (s.advance 4).setReg .fp _) hr⟩) fun _ => trivial

theorem filler585 {a b : Src} {c : Reg} : StopsAs i s (execFiller585 a b c s) := by
  unfold execFiller585
  split <;> trivial

end StopsAs

/-- Every stop of every instruction. Those of the last case complete on every path. -/
theorem exec_stopsAs (i : Instr) (s : State) : StopsAs i s (exec i s) := by
  cases i with
  | call | callx => exact .callProc
  | ret => exact .retProc rfl
  | faultno | faultg | faulte | faultge | faultl | faultne | faultle | faulto =>
    exact .ite (fun _ => trivial) fun _ => trivial
  | intdis | inten => exact .ite (fun _ => trivial) fun _ => trivial
  | modpc => exact .ite (fun _ => trivial) fun _ => .ite (fun _ => trivial) fun _ => trivial
  | filler585 => exact .filler585
  | spanbit | scanbit => exact .ite (fun _ => trivial) fun _ => trivial
  | eshro a b c => exact .requireReg (fun v hb => by rw [hb]; rfl) fun _ _ => trivial
  | movl | movt | movq => exact .moveGroup id
  | atmod a b c => exact exec_atmod a b c s ▸ .atomicModify ⟨a, b, c, .inl rfl⟩
  | atadd a b c => exact exec_atadd a b c s ▸ .atomicModify ⟨a, b, c, .inr rfl⟩
  | emul => exact .requireGroup id trivial
  | ediv a b c =>
    have hc (r : Reg) (h : groupAligned 2 c = false) : (Instr.ediv a (.reg r) c).wf = false :=
      (congrArg (_ && ·) h).trans (Bool.and_false _)
    have hr (r : Reg) (h : groupAligned 2 r = false) : (Instr.ediv a (.reg r) c).wf = false :=
      (congrArg (· && _) h).trans (Bool.false_and _)
    refine .requireReg (fun v hb => by rw [hb]; rfl) fun r hb => ?_
    subst hb
    exact .requireGroup (hr r) <| .requireGroup (hc r) <| .requireDivisor <|
      .ite (fun _ => .inr (.inr (.inl ⟨rfl, a, _, c, rfl⟩))) fun _ => trivial
  | remo | divo | remi | modi => exact .requireDivisor trivial
  | divi => exact .requireDivisor .writeChecked
  | addi | subi | shli | muli => exact .writeChecked
  | addino | addig | addie | addige | addil | addine | addile | addio | subino | subig | subie
  | subige | subil | subine | subile | subio => exact .whenCond .writeChecked
  | addono | addog | addoe | addoge | addol | addone | addole | addoo | subono | subog | suboe
  | suboge | subol | subone | subole | suboo => exact .whenCond trivial
  | ldob | ldos | ldib | ldis | ld => exact .loadOne
  | ldl | ldt | ldq => exact .loadGroup id
  | stob | stos | st => exact .storeOne
  | stib | stis => exact .storeChecked
  | stl | stt | stq => exact .storeGroup id
  | _ => exact trivial

/-- Settles O24. -/
theorem refusalsAreTheClosedList : Obligations.RefusalsAreTheClosedList := by
  intro i s
  have hstops := exec_stopsAs i s
  exact ⟨fun r hr => by rw [hr] at hstops; exact hstops,
    fun hstuck => by rw [hstuck] at hstops; exact hstops⟩

/-! ### Ill-formed groups -/

/-- A group source is a literal. -/
def LiteralSource (i : Instr) : Prop :=
  ∃ (a : Src) (v : BitVec 5) (c : Reg), i = .movl (.lit v) c ∨ i = .movt (.lit v) c ∨
    i = .movq (.lit v) c ∨ i = .eshro a (.lit v) c ∨ i = .ediv a (.lit v) c

/-- A literal source is refused first, whatever the registers. -/
theorem exec_literalSource {i : Instr} (h : LiteralSource i) (s : State) :
    exec i s = .refused .literalGroup := by
  obtain ⟨a, v, c, rfl | rfl | rfl | rfl | rfl⟩ := h <;> rfl

theorem requireGroup_unaligned {n : Nat} {r : Reg} {k : Result} (h : groupAligned n r = false) :
    requireGroup n r k = .refused .unalignedGroup :=
  if_neg (Bool.eq_false_iff.1 h)

/-- Two groups one of which is no group. -/
theorem requireGroups_unaligned {n : Nat} {r q : Reg} {k : Result}
    (h : (groupAligned n r && groupAligned n q) = false) :
    requireGroup n r (requireGroup n q k) = .refused .unalignedGroup := by
  cases hr : groupAligned n r with
  | false => exact requireGroup_unaligned hr
  | true =>
    rw [hr, Bool.true_and] at h
    exact (if_pos hr).trans (requireGroup_unaligned h)

/-- An ill-formed instruction is refused, as its source is a literal or not. -/
theorem exec_illFormed {i : Instr} (h : i.wf = false) (s : State) :
    LiteralSource i ∨ exec i s = .refused .unalignedGroup := by
  cases i with
  | movl a c =>
    cases a with
    | lit v => exact .inl ⟨.lit v, v, c, .inl rfl⟩
    | reg r => exact .inr (requireGroups_unaligned (n := 2) h)
  | movt a c =>
    cases a with
    | lit v => exact .inl ⟨.lit v, v, c, .inr (.inl rfl)⟩
    | reg r => exact .inr (requireGroups_unaligned (n := 3) h)
  | movq a c =>
    cases a with
    | lit v => exact .inl ⟨.lit v, v, c, .inr (.inr (.inl rfl))⟩
    | reg r => exact .inr (requireGroups_unaligned (n := 4) h)
  | eshro a b c =>
    cases b with
    | lit v => exact .inl ⟨a, v, c, .inr (.inr (.inr (.inl rfl)))⟩
    | reg r => cases h
  | ediv a b c =>
    cases b with
    | lit v => exact .inl ⟨a, v, c, .inr (.inr (.inr (.inr rfl)))⟩
    | reg r => exact .inr (requireGroups_unaligned (n := 2) h)
  | emul | ldl | stl => exact .inr (requireGroup_unaligned (n := 2) h)
  | ldt | stt => exact .inr (requireGroup_unaligned (n := 3) h)
  | ldq | stq => exact .inr (requireGroup_unaligned (n := 4) h)
  | _ => cases h

theorem wf_of_groupRefusal {i : Instr} {s : State} {r : Refusal} (h : exec i s = .refused r)
    (hr : r = .unalignedGroup ∨ r = .literalGroup) : i.wf = false := by
  have hstops := exec_stopsAs i s
  rw [h] at hstops
  obtain ⟨rfl, -⟩ | ⟨-, hwf⟩ | ⟨rfl, -⟩ | ⟨rfl, -⟩ := hstops
  · simp at hr
  · exact hwf
  · simp at hr
  · simp at hr

/-- Settles O25: an ill-formed instruction is refused by one name or the other (`exec_illFormed`),
and a refusal by either name is of an ill-formed one (`exec_stopsAs`). -/
theorem illFormedGroupsAreRefused : Obligations.IllFormedGroupsAreRefused := by
  refine fun i s => ⟨fun hwf => ?_, fun hwf => ⟨fun h => ?_, fun h => ?_⟩, fun h => ?_,
    fun h => exec_literalSource h s⟩
  · exact (exec_illFormed hwf s).imp_left (exec_literalSource · s)
  · exact Bool.false_ne_true ((wf_of_groupRefusal h (.inr rfl)).symm.trans hwf)
  · exact Bool.false_ne_true ((wf_of_groupRefusal h (.inl rfl)).symm.trans hwf)
  · obtain hlit | hunaligned := exec_illFormed (wf_of_groupRefusal h (.inr rfl)) s
    · exact hlit
    · rw [h] at hunaligned
      cases hunaligned

end Sys2Proof.Machine
end

section
/-! The shapes of effect (`writeReg` and its like) as completions, each said once; then the
branches, links, addresses and the conditional instructions of 41_ctrl.md and
42_cobr.md section 2. -/

namespace Sys2Proof.Machine

/-! ### The shapes of effect complete -/

theorem State.setReg_reg_same (s : State) (r : Reg) (v : Word) : (s.setReg r v).reg r = v := by
  rw [State.setReg_reg, if_pos rfl]

/-- The outcome is complete: `c` holds `v`, `ip` is past a 4-byte instruction, nothing else
changed. -/
def Writes (r : Result) (c : Reg) (v : Word) (s : State) : Prop :=
  ∃ t, r = .next t ∧ t.reg c = v ∧ t.ip = s.ip + 4 ∧ Frame { regs := [c] } s t

theorem writeReg_writes (c : Reg) (v : Word) (s : State) : Writes (writeReg c v s) c v s :=
  ⟨_, rfl, State.setReg_reg_same _ _ _, rfl, frame_writeReg (.head _) rfl⟩

theorem nothing_completes (s : State) :
    ∃ t, nothing s = .next t ∧ t.ip = s.ip + 4 ∧ Frame {} s t :=
  ⟨_, rfl, rfl, frame_nothing rfl⟩

/-! ### Branches, links and addresses -/

theorem ctrlTarget_eq (d : BitVec 22) (s : State) :
    ctrlTarget d s = s.ip + BitVec.ofInt 32 (4 * d.toInt) := by
  rw [ctrlTarget, signExtend_append_zeros]

theorem lengthOf_balx (m : MemOperand) (c : Reg) :
    lengthOf (.balx m c) = BitVec.ofNat 32 (memLength m) :=
  congrArg (BitVec.ofNat 32) (memWords_length _ _ m)

theorem lengthOf_lda (m : MemOperand) (c : Reg) :
    lengthOf (.lda m c) = BitVec.ofNat 32 (memLength m) :=
  congrArg (BitVec.ofNat 32) (memWords_length _ _ m)

/-- Settles O31. -/
theorem branchesLinksAndAddresses : Obligations.BranchesLinksAndAddresses := by
  refine ⟨fun d s => ?_, fun d s => ?_, fun m s => ?_, fun m c s => ?_, fun m c s => ?_⟩
  · exact ⟨_, rfl, ctrlTarget_eq d s, frame_setIp _ _ _⟩
  · exact ⟨_, rfl, ctrlTarget_eq d s, State.setReg_reg_same _ _ _, exec_frame (.bal d) s _ rfl⟩
  · exact ⟨_, rfl, rfl, frame_setIp _ _ _⟩
  · rw [lengthOf_balx]
    exact ⟨_, rfl, rfl, State.setReg_reg_same _ _ _, exec_frame (.balx m c) s _ rfl⟩
  · rw [lengthOf_lda]
    exact ⟨_, rfl, State.setReg_reg_same _ _ _, rfl, exec_frame (.lda m c) s _ rfl⟩

/-! ### The conditional instructions -/

theorem branchWhen_completes (cond : Cond) (d : BitVec 22) (s : State) :
    ∃ t, branchWhen cond d s = .next t ∧
      t.ip = (if ConditionTrue cond.mask.toNat s.ac then s.ip + BitVec.ofInt 32 (4 * d.toInt)
        else s.ip + 4) ∧ Frame {} s t := by
  refine ⟨_, rfl, ?_, frame_branchWhen rfl⟩
  rw [← ctrlTarget_eq]
  simp only [checkCond_iff]
  split <;> rfl

theorem testWhen_writes (cond : Cond) (c : Reg) (s : State) :
    Writes (testWhen cond c s) c (if ConditionTrue cond.mask.toNat s.ac then 1 else 0) s := by
  simp only [testWhen, checkCond_iff]
  exact writeReg_writes c _ s

/-- Settles O32: each row is `branchWhen` or `testWhen` at the condition of its number. -/
theorem conditionalBranchesAndTests : Obligations.ConditionalBranchesAndTests := by
  simp only [Obligations.ConditionalBranchesAndTests, List.forall_mem_cons]
  constructor
  · exact ⟨branchWhen_completes .no, branchWhen_completes .g, branchWhen_completes .e,
      branchWhen_completes .ge, branchWhen_completes .l, branchWhen_completes .ne,
      branchWhen_completes .le, branchWhen_completes .o, fun _ h => nomatch h⟩
  · exact ⟨testWhen_writes .no, testWhen_writes .g, testWhen_writes .e, testWhen_writes .ge,
      testWhen_writes .l, testWhen_writes .ne, testWhen_writes .le, testWhen_writes .o,
      fun _ h => nomatch h⟩

theorem faultWhen_raises_or_completes (cond : Cond) (s : State) :
    (ConditionTrue cond.mask.toNat s.ac →
      faultWhen cond s = .fault (.raised .constraintRange s.ip (s.setIp (s.ip + 4)))) ∧
    (¬ConditionTrue cond.mask.toNat s.ac →
      ∃ t, faultWhen cond s = .next t ∧ t.ip = s.ip + 4 ∧ Frame {} s t) := by
  simp only [← checkCond_iff]
  constructor
  · exact fun h => if_pos h
  · intro h
    rw [faultWhen, if_neg h]
    exact nothing_completes s

/-- Settles O33: each row is `faultWhen` at the condition of its number. -/
theorem conditionalFaults : Obligations.ConditionalFaults := by
  simp only [Obligations.ConditionalFaults, List.forall_mem_cons]
  exact ⟨faultWhen_raises_or_completes .no, faultWhen_raises_or_completes .g,
    faultWhen_raises_or_completes .e, faultWhen_raises_or_completes .ge,
    faultWhen_raises_or_completes .l, faultWhen_raises_or_completes .ne,
    faultWhen_raises_or_completes .le, faultWhen_raises_or_completes .o, fun _ h => nomatch h⟩

end Sys2Proof.Machine
end

section
/-! Ordinal and integer arithmetic (44_reg_arith_shift.md section 1, 48_reg_muldiv_cond.md) with the
overflow policy of R762 said once, for `writeChecked`. -/

namespace Sys2Proof.Machine

/-! ### Ordinal arithmetic -/

/-- What a completion that writes `v` leaves in `c` has every property of `v`. -/
theorem Writes.good {r : Result} {c : Reg} {v : Word} {s : State} (h : Writes r c v s)
    {P : Word → Prop} (hv : P v) :
    ∃ t, r = .next t ∧ P (t.reg c) ∧ t.ip = s.ip + 4 ∧ Frame { regs := [c] } s t := by
  obtain ⟨t, ht, hc, hrest⟩ := h
  exact ⟨t, ht, hc ▸ hv, hrest⟩

theorem writeReg_good {c : Reg} {v : Word} {s : State} {P : Word → Prop} (hv : P v) :
    ∃ t, writeReg c v s = .next t ∧ P (t.reg c) ∧ t.ip = s.ip + 4 ∧ Frame { regs := [c] } s t :=
  (writeReg_writes c v s).good hv

theorem toNat_add_wrapped (x y : Word) :
    ((x + y).toNat : Int) = ((x.toNat : Int) + y.toNat) % 2 ^ 32 := by
  rw [BitVec.toNat_add]
  push_cast
  rfl

theorem toNat_sub_wrapped (x y : Word) :
    ((y - x).toNat : Int) = ((y.toNat : Int) - x.toNat) % 2 ^ 32 := by
  rw [BitVec.toNat_sub]
  omega

theorem toNat_mul_wrapped (x y : Word) :
    ((x * y).toNat : Int) = ((x.toNat : Int) * y.toNat) % 2 ^ 32 := by
  rw [BitVec.toNat_mul]
  push_cast
  rfl

/-- Settles O37. -/
theorem ordinalArithmeticWraps : Obligations.OrdinalArithmeticWraps := by
  simp only [Obligations.OrdinalArithmeticWraps, List.forall_mem_cons]
  refine ⟨fun a b c s => ?_, fun a b c s => ?_, fun a b c s => ?_, fun _ h => nomatch h⟩
  · exact writeReg_good (P := fun v => (v.toNat : Int) = _) (toNat_add_wrapped _ _)
  · exact writeReg_good (P := fun v => (v.toNat : Int) = _) (toNat_sub_wrapped _ _)
  · exact writeReg_good (P := fun v => (v.toNat : Int) = _) (toNat_mul_wrapped _ _)

/-! ### Conditional ordinal arithmetic and select -/

/-- A register written where the condition holds keeps its value where it does not. -/
theorem whenCond_writeReg_writes (cond : Cond) (c : Reg) (v : Word) (s : State) :
    Writes (whenCond cond s (writeReg c v s)) c
      (if ConditionTrue cond.mask.toNat s.ac then v else s.reg c) s := by
  simp only [whenCond, checkCond_iff]
  split
  · exact writeReg_writes c v s
  · exact ⟨_, rfl, rfl, rfl, frame_nothing rfl⟩

theorem whenCond_addo_writes (cond : Cond) (a b : Src) (c : Reg) (s : State) :
    Writes (whenCond cond s (writeReg c (srcValue s a + srcValue s b) s)) c
      (if ConditionTrue cond.mask.toNat s.ac then srcValue s a + srcValue s b else s.reg c) s :=
  whenCond_writeReg_writes cond c _ s

theorem whenCond_subo_writes (cond : Cond) (a b : Src) (c : Reg) (s : State) :
    Writes (whenCond cond s (writeReg c (srcValue s b - srcValue s a) s)) c
      (if ConditionTrue cond.mask.toNat s.ac then srcValue s b - srcValue s a else s.reg c) s :=
  whenCond_writeReg_writes cond c _ s

theorem sel_writes (cond : Cond) (a b : Src) (c : Reg) (s : State) :
    Writes (writeReg c (if checkCond cond s.ac then srcValue s b else srcValue s a) s) c
      (if ConditionTrue cond.mask.toNat s.ac then srcValue s b else srcValue s a) s := by
  simp only [checkCond_iff]
  exact writeReg_writes c _ s

/-- Settles O38: each row is one of three shapes at the condition of its number. -/
theorem conditionalOrdinalArithmeticAndSelect :
    Obligations.ConditionalOrdinalArithmeticAndSelect := by
  simp only [Obligations.ConditionalOrdinalArithmeticAndSelect, List.forall_mem_cons]
  refine ⟨?_, ?_, ?_⟩
  · exact ⟨whenCond_addo_writes .no, whenCond_addo_writes .g, whenCond_addo_writes .e,
      whenCond_addo_writes .ge, whenCond_addo_writes .l, whenCond_addo_writes .ne,
      whenCond_addo_writes .le, whenCond_addo_writes .o, fun _ h => nomatch h⟩
  · exact ⟨whenCond_subo_writes .no, whenCond_subo_writes .g, whenCond_subo_writes .e,
      whenCond_subo_writes .ge, whenCond_subo_writes .l, whenCond_subo_writes .ne,
      whenCond_subo_writes .le, whenCond_subo_writes .o, fun _ h => nomatch h⟩
  · exact ⟨sel_writes .no, sel_writes .g, sel_writes .e, sel_writes .ge, sel_writes .l,
      sel_writes .ne, sel_writes .le, sel_writes .o, fun _ h => nomatch h⟩

/-! ### The overflow policy (R762) -/

theorem toInt_ofInt_of_fits {r : Int} (h : FitsWord r) : (BitVec.ofInt 32 r).toInt = r :=
  BitVec.toInt_ofInt_eq_self (by decide) h.1 (by have := h.2; omega)

/-- A word written by the policy: what the exact result is, and that an overflow is that it does not
fit, is all an instruction has to add. -/
theorem writeChecked_checksOverflow {i : Instr} {r : Int} {c : Reg} {s : State} {overflow : Bool}
    {v : Word} (hexec : exec i s = writeChecked overflow c v s)
    (hoverflow : overflow = true ↔ ¬FitsWord r) (hv : v = BitVec.ofInt 32 r) :
    ChecksOverflow i r c s := by
  have hframe (w : Word) : Frame { regs := [c], ac := w } s ((s.advance 4).setReg c v) :=
    (frame_advance s _ 4).trans (frame_setReg _ _ c v (.head _))
  rw [ChecksOverflow, hexec, ← hoverflow, ← hv]
  refine ⟨fun hfits => ?_, fun ho hom => ?_, fun ho hom => ?_⟩
  · have hno : overflow = false := by
      rw [← Bool.not_eq_true, hoverflow]
      exact not_not_intro hfits
    refine ⟨_, writeChecked_next.2 (.inl ⟨hno, rfl⟩), ?_, rfl, hframe 0⟩
    rw [State.setReg_reg_same, hv, toInt_ofInt_of_fits hfits]
  · refine ⟨_, writeChecked_next.2 (.inr ⟨ho, hom, rfl⟩), State.setReg_reg_same _ _ _, ?_, rfl,
      (hframe _).trans (frame_setOf _ _ ofMask_covers)⟩
    simp [ofOf, withOf]
  · cases hw : s.params.overflowWrite with
    | written =>
      refine ⟨_, commit_fault.2 ⟨ho, hom, _, rfl, .inl ⟨hw, rfl⟩⟩, ?_, rfl, hframe 0⟩
      exact State.setReg_reg_same _ _ _
    | unchanged =>
      exact ⟨_, commit_fault.2 ⟨ho, hom, _, rfl, .inr ⟨hw, rfl⟩⟩, rfl, rfl, frame_advance s _ 4⟩

/-! ### The exact results as words -/

theorem add_eq_ofInt (x y : Word) : x + y = BitVec.ofInt 32 (x.toInt + y.toInt) := by
  rw [BitVec.ofInt_add, BitVec.ofInt_toInt, BitVec.ofInt_toInt]

theorem sub_eq_ofInt (x y : Word) : x - y = BitVec.ofInt 32 (x.toInt - y.toInt) := by
  rw [Int.sub_eq_add_neg, BitVec.ofInt_add, BitVec.ofInt_neg, BitVec.ofInt_toInt,
    BitVec.ofInt_toInt, BitVec.sub_eq_add_neg]

theorem shiftLeft_eq_ofInt (y : Word) (n : Nat) : y <<< n = BitVec.ofInt 32 (y.toInt * 2 ^ n) := by
  have hpow : BitVec.ofInt 32 (2 ^ n) = BitVec.twoPow 32 n := by
    have hnat : BitVec.twoPow 32 n = BitVec.ofNat 32 (2 ^ n) :=
      BitVec.eq_of_toNat_eq (by rw [BitVec.toNat_twoPow, BitVec.toNat_ofNat])
    rw [hnat, ← BitVec.ofInt_natCast]
    push_cast
    rfl
  rw [BitVec.ofInt_mul, BitVec.ofInt_toInt, hpow, BitVec.shiftLeft_eq_mul_twoPow]

/-- A multiple of 2^32 fits where it is 0 alone. -/
theorem fitsWord_mul_two_pow_iff (y : Word) : FitsWord (y.toInt * 2 ^ 32) ↔ y = 0 := by
  rw [← BitVec.toInt_inj, show (0 : Word).toInt = 0 from rfl]
  omega

/-- The one quotient that does not fit (R609). -/
theorem divisionOverflows_iff {x y : Word} (hx : x ≠ 0) :
    (y == 0x80000000#32 && x == 0xFFFFFFFF#32) = true ↔ ¬FitsWord (y.toInt.tdiv x.toInt) := by
  rw [Bool.and_eq_true, beq_iff_eq, beq_iff_eq]
  constructor
  · rintro ⟨rfl, rfl⟩
    decide
  · intro h
    by_contra hne
    rw [← BitVec.toInt_sdiv_of_ne_or_ne y x (not_and_or.1 hne)] at h
    exact h ⟨BitVec.le_toInt _, BitVec.toInt_le⟩

/-- Settles O39: each is `writeChecked` of its exact result. -/
theorem integerArithmeticChecksOverflow : Obligations.IntegerArithmeticChecksOverflow := by
  refine fun a b c s => ⟨?_, ?_, ?_, fun hn => ?_, fun hn => ?_, fun hx => ?_⟩
  · exact writeChecked_checksOverflow rfl (addOverflows_iff _ _) (add_eq_ofInt _ _)
  · exact writeChecked_checksOverflow rfl (subOverflows_iff _ _) (sub_eq_ofInt _ _)
  · exact writeChecked_checksOverflow rfl (not_fitsSigned_word _) rfl
  · refine writeChecked_checksOverflow rfl ((shiftLeftOverflows_iff _ _).trans ?_) ?_
    · rw [if_pos hn]
    · rw [shiftLeftOrdinal, if_neg (by omega), shiftLeft_eq_ofInt]
  · refine writeChecked_checksOverflow rfl ((shiftLeftOverflows_iff _ _).trans ?_) ?_
    · rw [if_neg (by omega), fitsWord_mul_two_pow_iff]
    · rw [shiftLeftOrdinal, if_pos hn, ← shiftLeft_eq_ofInt]
      simp
  · have hdivisor : srcValue s a ≠ 0 := fun h => hx (by rw [h]; rfl)
    exact writeChecked_checksOverflow (if_neg hdivisor) (divisionOverflows_iff hdivisor) rfl

/-! ### Conditional integer arithmetic -/

/-- A conditional instruction acts as `k` where its condition holds and does nothing where not. -/
theorem whenCond_checksOverflow {i : Instr} {cond : Cond} {k : Result} {s : State} {r : Int}
    {c : Reg} (hexec : exec i s = whenCond cond s k)
    (hk : exec i s = k → ChecksOverflow i r c s) :
    (ConditionTrue cond.mask.toNat s.ac → ChecksOverflow i r c s) ∧
      (¬ConditionTrue cond.mask.toNat s.ac →
        ∃ t, exec i s = .next t ∧ t.ip = s.ip + 4 ∧ Frame {} s t) := by
  simp only [← checkCond_iff]
  refine ⟨fun hcond => hk (hexec.trans (if_pos hcond)), fun hcond => ?_⟩
  rw [hexec, whenCond, if_neg hcond]
  exact nothing_completes s

theorem addWhen_checksOverflow (cond : Cond) (a b : Src) (c : Reg) (s : State) :
    (ConditionTrue cond.mask.toNat s.ac → ChecksOverflow (addWhen cond a b c)
      ((srcValue s a).toInt + (srcValue s b).toInt) c s) ∧
    (¬ConditionTrue cond.mask.toNat s.ac →
      ∃ t, exec (addWhen cond a b c) s = .next t ∧ t.ip = s.ip + 4 ∧ Frame {} s t) :=
  whenCond_checksOverflow (exec_addWhen cond a b c s) fun h =>
    writeChecked_checksOverflow h (addOverflows_iff _ _) (add_eq_ofInt _ _)

theorem subWhen_checksOverflow (cond : Cond) (a b : Src) (c : Reg) (s : State) :
    (ConditionTrue cond.mask.toNat s.ac → ChecksOverflow (subWhen cond a b c)
      ((srcValue s b).toInt - (srcValue s a).toInt) c s) ∧
    (¬ConditionTrue cond.mask.toNat s.ac →
      ∃ t, exec (subWhen cond a b c) s = .next t ∧ t.ip = s.ip + 4 ∧ Frame {} s t) :=
  whenCond_checksOverflow (exec_subWhen cond a b c s) fun h =>
    writeChecked_checksOverflow h (subOverflows_iff _ _) (sub_eq_ofInt _ _)

/-- Settles O40: each row is `addWhen` or `subWhen` at the condition of its number. -/
theorem conditionalIntegerArithmetic : Obligations.ConditionalIntegerArithmetic := by
  simp only [Obligations.ConditionalIntegerArithmetic, List.forall_mem_cons]
  constructor
  · exact ⟨addWhen_checksOverflow .no, addWhen_checksOverflow .g, addWhen_checksOverflow .e,
      addWhen_checksOverflow .ge, addWhen_checksOverflow .l, addWhen_checksOverflow .ne,
      addWhen_checksOverflow .le, addWhen_checksOverflow .o, fun _ h => nomatch h⟩
  · exact ⟨subWhen_checksOverflow .no, subWhen_checksOverflow .g, subWhen_checksOverflow .e,
      subWhen_checksOverflow .ge, subWhen_checksOverflow .l, subWhen_checksOverflow .ne,
      subWhen_checksOverflow .le, subWhen_checksOverflow .o, fun _ h => nomatch h⟩

end Sys2Proof.Machine
end

section
/-! Carry, shifts, wide multiply and divide, remainders (44_reg_arith_shift.md sections 2 and 3,
46_reg_move_atomic.md section 3, 48_reg_muldiv_cond.md section 1). -/

namespace Sys2Proof.Machine

/-! ### Codes beside a register -/

theorem writeCcReg_completes (code : BitVec 3) (c : Reg) (v : Word) (s : State) :
    ∃ t, writeCcReg code c v s = .next t ∧ t.reg c = v ∧ ccOf t.ac = code ∧ t.ip = s.ip + 4 ∧
      Frame { regs := [c], ac := 7 } s t :=
  ⟨_, rfl, State.setReg_reg_same _ _ _, ccOf_withCc _ _, rfl,
    frame_writeCcReg ccMask_covers (.head _) rfl⟩

/-! ### Carry (R405, R406, R240) -/

theorem adc_toNat (x y : Word) (cin : Bool) :
    (adc x y cin).1.toNat = (x.toNat + y.toNat + cin.toNat) % 2 ^ 32 :=
  BitVec.toNat_ofNat _ _

/-- The carry out is the sum's quotient by 2^32. -/
theorem adc_carry (x y : Word) (cin : Bool) :
    (adc x y cin).2.toNat = (x.toNat + y.toNat + cin.toNat) / 2 ^ 32 := by
  have hcin := cin.toNat_le
  have hx := x.isLt
  have hy := y.isLt
  by_cases h : 2 ^ 32 ≤ x.toNat + y.toNat + cin.toNat
  · rw [adc, decide_eq_true h, Bool.toNat_true]
    omega
  · rw [adc, decide_eq_false h, Bool.toNat_false]
    omega

theorem carryCode_toNat (co v : Bool) : (carryCode co v).toNat = 2 * co.toNat + v.toNat := by
  cases co <;> cases v <;> rfl

theorem toNat_not_fitsSigned (r : Int) :
    (!fitsSigned 32 r).toNat = if FitsWord r then 0 else 1 := by
  have h := not_fitsSigned_word r
  split
  next hfits => rw [Bool.eq_false_iff.2 fun ho => h.1 ho hfits, Bool.toNat_false]
  next hfits => rw [h.2 hfits, Bool.toNat_true]

/-- The carry in as the number the statement names. -/
theorem carryOf_toNat (ac : Word) : (carryOf ac).toNat = if ac.getLsbD 1 then 1 else 0 := by
  rw [carryOf]
  cases ac.getLsbD 1 <;> rfl

/-- Settles O41. -/
theorem addAndSubtractWithCarry : Obligations.AddAndSubtractWithCarry := by
  intro a b c s x y cin
  have hcin : (carryOf s.ac).toNat = cin := carryOf_toNat _
  have hnot : (~~~x).toNat = 2 ^ 32 - 1 - x.toNat := BitVec.toNat_not
  constructor
  · obtain ⟨t, ht, hc, hcc, hrest⟩ := writeCcReg_completes
      (carryCode (adc x y (carryOf s.ac)).2 (addOverflows x y (carryOf s.ac))) c
      (adc x y (carryOf s.ac)).1 s
    refine ⟨t, ht, ?_, ?_, hrest⟩
    · rw [hc, adc_toNat, hcin]
    · rw [hcc, carryCode_toNat, adc_carry, addOverflows, toNat_not_fitsSigned, hcin]
  · obtain ⟨t, ht, hc, hcc, hrest⟩ := writeCcReg_completes
      (carryCode (sbb y x (carryOf s.ac)).2 (subOverflows y x (carryOf s.ac))) c
      (sbb y x (carryOf s.ac)).1 s
    refine ⟨t, ht, ?_, ?_, hrest⟩
    · rw [hc, sbb, adc_toNat, hcin, hnot]
    · rw [hcc, carryCode_toNat, sbb, adc_carry, subOverflows, toNat_not_fitsSigned, hcin, hnot]

/-! ### Shifts and rotates -/

theorem shiftRightOrdinal_toNat (y n : Word) :
    (shiftRightOrdinal y n).toNat = if 32 ≤ n.toNat then 0 else y.toNat / 2 ^ n.toNat := by
  unfold shiftRightOrdinal
  split
  · rfl
  · rw [BitVec.toNat_ushiftRight, Nat.shiftRight_eq_div_pow]

theorem shiftLeftOrdinal_toNat (y n : Word) :
    (shiftLeftOrdinal y n).toNat =
      if 32 ≤ n.toNat then 0 else y.toNat * 2 ^ n.toNat % 2 ^ 32 := by
  unfold shiftLeftOrdinal
  split
  · rfl
  · rw [BitVec.toNat_shiftLeft, Nat.shiftLeft_eq]

theorem toInt_sshiftRight_eq_div (y : Word) (k : Nat) :
    (y.sshiftRight k).toInt = y.toInt / 2 ^ k := by
  rw [BitVec.toInt_sshiftRight, Int.shiftRight_eq_div_pow]
  push_cast
  rfl

theorem lowMask_toNat {k : Nat} (hk : k < 32) : (1#32 <<< k - 1#32).toNat = 2 ^ k - 1 := by
  have hpow : 2 ^ k < 2 ^ 32 := Nat.pow_lt_pow_right (by decide) hk
  have hone := Nat.one_le_two_pow (n := k)
  rw [BitVec.toNat_sub, BitVec.toNat_shiftLeft, Nat.shiftLeft_eq]
  simp only [BitVec.toNat_ofNat]
  omega

/-- The low bits of a word that a shift drops: none is set where 2^k divides its value. -/
theorem and_lowMask_eq_zero_iff (y : Word) {k : Nat} (hk : k < 32) :
    y &&& (1#32 <<< k - 1#32) = 0 ↔ (2 ^ k : Int) ∣ y.toInt := by
  have hdvd : (2 ^ k : Int) ∣ ((2 ^ 32 : Nat) : Int) := pow_dvd_pow 2 hk.le
  have hnat : y.toNat % 2 ^ k = 0 ↔ (2 ^ k : Int) ∣ y.toNat := by
    rw [← Nat.dvd_iff_mod_eq_zero, ← Int.natCast_dvd_natCast]
    push_cast
    rfl
  rw [← BitVec.toNat_inj, BitVec.toNat_and, lowMask_toNat hk, Nat.and_two_pow_sub_one_eq_mod,
    BitVec.toInt_eq_msb_cond]
  split
  · rw [dvd_sub_left hdvd, ← hnat]
    rfl
  · exact hnat

/-- R412: truncation is the floor, plus 1 where a negative value is no multiple. -/
theorem toInt_shiftRightDividing (y n : Word) :
    (shiftRightDividing y n).toInt = y.toInt.tdiv (2 ^ min n.toNat 31) := by
  have hk : min n.toNat 31 < 32 := by omega
  rw [shiftRightDividing]
  generalize min n.toNat 31 = k at hk
  have hpos : (0 : Int) < 2 ^ k := by positivity
  have hfloor := toInt_sshiftRight_eq_div y k
  have hcond : (y.msb && (y &&& (1#32 <<< k - 1#32)) != 0) = true ↔
      ¬(0 ≤ y.toInt ∨ (2 ^ k : Int) ∣ y.toInt) := by
    rw [Bool.and_eq_true, bne_iff_ne, Ne, and_lowMask_eq_zero_iff y hk, BitVec.msb_eq_toInt,
      decide_eq_true_iff, not_or, not_le]
  rw [Int.tdiv_eq_ediv, Int.sign_eq_one_of_pos hpos]
  simp only [hcond]
  split
  next h =>
    have hneg : y.toInt / 2 ^ k < 0 := Int.ediv_neg_of_neg_of_pos (by omega) hpos
    have hlow := BitVec.le_toInt (y.sshiftRight k)
    rw [hfloor] at hlow
    rw [add_eq_ofInt, hfloor, toInt_ofInt_of_fits]
    · rfl
    · change FitsWord (y.toInt / 2 ^ k + 1)
      omega
  next h => rw [if_pos (not_not.1 h), hfloor, Int.add_zero]

/-- R415: bit `k` goes to bit `k + n mod 32`. -/
theorem rotateLeft_getLsbD (y n : Word) {k : Nat} (hk : k < 32) :
    (rotateLeft y n).getLsbD ((k + n.toNat) % 32) = y.getLsbD k := by
  have hneg : (-n).toNat % 32 = (32 - n.toNat % 32) % 32 := by
    rw [BitVec.toNat_neg]
    omega
  rw [rotateLeft, hneg, BitVec.getLsbD_or, BitVec.getLsbD_shiftLeft, BitVec.getLsbD_ushiftRight]
  by_cases hwrap : k + n.toNat % 32 < 32
  · have hi : (k + n.toNat) % 32 = k + n.toNat % 32 := by omega
    have hstay : (k + n.toNat % 32 < 32 && !decide (k + n.toNat % 32 < n.toNat % 32)) = true := by
      simp [hwrap]
    rw [hi, hstay, Bool.true_and, Nat.add_sub_cancel]
    obtain hzero | hpos := Nat.eq_zero_or_pos (n.toNat % 32)
    · simp [hzero]
    · rw [BitVec.getLsbD_of_ge y ((32 - n.toNat % 32) % 32 + _) (by omega), Bool.or_false]
  · have hi : (k + n.toNat) % 32 = k + n.toNat % 32 - 32 := by omega
    have hback : (32 - n.toNat % 32) % 32 + (k + n.toNat % 32 - 32) = k := by omega
    have hgone : decide (k + n.toNat % 32 - 32 < n.toNat % 32) = true := decide_eq_true (by omega)
    rw [hi, hback, hgone, Bool.not_true, Bool.and_false, Bool.false_and, Bool.false_or]

theorem append_toNat {m n : Nat} (hi : BitVec m) (lo : BitVec n) :
    (hi ++ lo).toNat = hi.toNat * 2 ^ n + lo.toNat := by
  rw [BitVec.toNat_append, ← Nat.shiftLeft_add_eq_or_of_lt lo.isLt, Nat.shiftLeft_eq]

theorem extendedShiftRight_toNat (hi lo n : Word) :
    (extendedShiftRight hi lo n).toNat =
      (hi.toNat * 2 ^ 32 + lo.toNat) / 2 ^ (n.toNat % 32) % 2 ^ 32 := by
  rw [extendedShiftRight, BitVec.extractLsb'_toNat, BitVec.toNat_ushiftRight, append_toNat,
    Nat.shiftRight_zero, Nat.shiftRight_eq_div_pow]

/-- Settles O42: each writes its primitive's value. -/
theorem shiftsAndRotates : Obligations.ShiftsAndRotates := by
  refine fun a b c s => ⟨?_, ?_, ?_, ?_, ?_, fun q => ?_⟩
  · exact writeReg_good (P := fun r => r.toNat = _) (shiftRightOrdinal_toNat _ _)
  · exact writeReg_good (P := fun r => r.toNat = _) (shiftLeftOrdinal_toNat _ _)
  · exact writeReg_good (P := fun r => r.toInt = _) (toInt_sshiftRight_eq_div _ _)
  · exact writeReg_good (P := fun r => r.toInt = _) (toInt_shiftRightDividing _ _)
  · exact writeReg_good (P := fun r => ∀ k < 32,
      r.getLsbD ((k + (srcValue s a).toNat) % 32) = (srcValue s b).getLsbD k) fun _ hk =>
        rotateLeft_getLsbD _ _ hk
  · exact writeReg_good (P := fun r => r.toNat = _) (extendedShiftRight_toNat _ _ _)

/-! ### Wide multiply and divide -/

theorem groupAligned_two_iff {r : Reg} : groupAligned 2 r = true ↔ r.toNat % 2 = 0 := beq_iff_eq

/-- Both words of a pair written past a 4-byte instruction. -/
theorem setPair_holds (c : Reg) (lo hi : Word) {s t : State}
    (ht : t = (s.advance 4).setRegs c [lo, hi]) :
    t.reg c = lo ∧ t.reg (c + 1) = hi ∧ t.ip = s.ip + 4 ∧ Frame { regs := [c, c + 1] } s t := by
  have hregs : groupRegs c 2 = [c, c + 1] := by simp [groupRegs, List.range_succ]
  subst ht
  refine ⟨?_, ?_, State.setRegs_ip _ _ _, hregs ▸ frame_setPair⟩
  · simp [State.setRegs]
  · simp [State.setRegs]

theorem wideProduct_toNat (x y : Word) :
    (wideProduct x y).2.toNat * 2 ^ 32 + (wideProduct x y).1.toNat = x.toNat * y.toNat := by
  have hlt : x.toNat * y.toNat < 2 ^ 32 * 2 ^ 32 := Nat.mul_lt_mul'' x.isLt y.isLt
  simp only [wideProduct, BitVec.extractLsb'_toNat, BitVec.toNat_ofNat, Nat.shiftRight_eq_div_pow]
  omega

/-- `ediv` of pairs, past its group checks. -/
theorem exec_ediv_of_pairs {a : Src} {r c : Reg} {s : State} (hr : r.toNat % 2 = 0)
    (hc : c.toNat % 2 = 0) {d x : Nat} (hd : d = (s.reg (r + 1)).toNat * 2 ^ 32 + (s.reg r).toNat)
    (hx : x = (srcValue s a).toNat) :
    exec (.ediv a (.reg r) c) s = requireDivisor (srcValue s a) s (s.advance 4)
      (if 2 ^ 32 ≤ d / x then .refused .edivQuotientOverflow
        else .next ((s.advance 4).setRegs c
          [BitVec.ofNat 32 (d % x), BitVec.ofNat 32 (d / x)])) := by
  rw [hd, hx, ← append_toNat]
  exact (if_pos (groupAligned_two_iff.2 hr)).trans (if_pos (groupAligned_two_iff.2 hc))

theorem ne_zero_of_toNat_ne_zero {x : Word} (h : x.toNat ≠ 0) : x ≠ 0 := by
  rintro rfl
  exact h rfl

/-- The quotient that fits, and the remainder, are exact. -/
theorem exec_ediv_completes {a : Src} {r c : Reg} {s : State} (hr : r.toNat % 2 = 0)
    (hc : c.toNat % 2 = 0) {d x : Nat} (hd : d = (s.reg (r + 1)).toNat * 2 ^ 32 + (s.reg r).toNat)
    (hx : x = (srcValue s a).toNat) (hzero : x ≠ 0) (hlt : d < 2 ^ 32 * x) :
    ∃ t, exec (.ediv a (.reg r) c) s = .next t ∧
      d = (t.reg (c + 1)).toNat * x + (t.reg c).toNat ∧ (t.reg c).toNat < x ∧
      t.ip = s.ip + 4 ∧ Frame { regs := [c, c + 1] } s t := by
  have hfits : d / x < 2 ^ 32 := Nat.div_lt_of_lt_mul (by rwa [Nat.mul_comm])
  have hrem : d % x < x := Nat.mod_lt _ (Nat.pos_of_ne_zero hzero)
  have hsmall : d % x < 2 ^ 32 := hrem.trans (hx ▸ (srcValue s a).isLt)
  obtain ⟨hlo, hhi, hrest⟩ := setPair_holds c (BitVec.ofNat 32 (d % x)) (BitVec.ofNat 32 (d / x))
    (s := s) rfl
  refine ⟨_, ?_, ?_, ?_, hrest⟩
  · rw [exec_ediv_of_pairs hr hc hd hx, requireDivisor,
      if_neg (ne_zero_of_toNat_ne_zero (hx ▸ hzero)), if_neg (not_le.2 hfits)]
  · rw [hlo, hhi, BitVec.toNat_ofNat, BitVec.toNat_ofNat, Nat.mod_eq_of_lt hfits,
      Nat.mod_eq_of_lt hsmall, Nat.div_add_mod']
  · rwa [hlo, BitVec.toNat_ofNat, Nat.mod_eq_of_lt hsmall]

/-- Settles O51. -/
theorem extendedMultiplyAndDivide : Obligations.ExtendedMultiplyAndDivide := by
  refine ⟨fun a b c s hc => ?_, fun a r c s hr hc => ⟨fun hx => ?_,
    exec_ediv_completes hr hc rfl rfl, fun hx hd => ?_⟩⟩
  · obtain ⟨hlo, hhi, hrest⟩ := setPair_holds c (wideProduct (srcValue s a) (srcValue s b)).1
      (wideProduct (srcValue s a) (srcValue s b)).2 (s := s) rfl
    refine ⟨_, if_pos (groupAligned_two_iff.2 hc), ?_, hrest⟩
    rw [hlo, hhi, wideProduct_toNat]
  · rw [exec_ediv_of_pairs hr hc rfl rfl]
    exact if_pos (BitVec.eq_of_toNat_eq hx)
  · rw [exec_ediv_of_pairs hr hc rfl rfl, requireDivisor, if_neg (ne_zero_of_toNat_ne_zero hx),
      if_pos ((Nat.le_div_iff_mul_le (Nat.pos_of_ne_zero hx)).2 hd)]

/-! ### Divisions and remainders -/

theorem remainderInteger_eq (y x : Word) : remainderInteger y x = y.srem x := by
  rw [remainderInteger, mul_comm, ← Int.tmod_def, ← BitVec.toInt_srem, BitVec.ofInt_toInt]

/-- R608's rule for the sign is the floored remainder. -/
theorem fmod_eq_ite_tmod (y x : Int) : y.fmod x =
    if y.tmod x ≠ 0 ∧ (x < 0) ≠ (y < 0) then y.tmod x + x else y.tmod x := by
  have hsigns : ((x < 0) ≠ (y < 0)) ↔ ¬(x < 0 ↔ y < 0) := not_congr (eq_iff_iff)
  simp only [Int.fmod_eq_tmod, Int.dvd_iff_tmod_eq_zero, hsigns]
  by_cases hrem : y.tmod x = 0
  · simp [hrem]
  · rw [if_neg hrem]
    split_ifs <;> omega

theorem moduloInteger_eq (y x : Word) : moduloInteger y x = y.smod x := by
  rw [moduloInteger, mul_comm, ← Int.tmod_def, ← fmod_eq_ite_tmod, ← BitVec.toInt_smod,
    BitVec.ofInt_toInt]

/-- The truncated quotient and its remainder make up the dividend, but for the quotient that
overflows. -/
theorem divideInteger_mul_add {y x : Word} (h : ¬(y = 0x80000000 ∧ x = 0xFFFFFFFF)) :
    (divideInteger y x).toInt * x.toInt + (remainderInteger y x).toInt = y.toInt := by
  rw [remainderInteger_eq, BitVec.toInt_srem, divideInteger,
    ← BitVec.toInt_sdiv_of_ne_or_ne y x (not_and_or.1 h), BitVec.ofInt_toInt,
    BitVec.toInt_sdiv_of_ne_or_ne y x (not_and_or.1 h), Int.tdiv_mul_add_tmod]

/-- Every division by 0 raises the fault with `ip` alone changed. -/
theorem requireDivisor_zero {d : Word} (h : d = 0) (s : State) (k : Result) :
    requireDivisor d s (s.advance 4) k =
      .fault (.raised .divisionByZero s.ip (s.setIp (s.ip + 4))) := if_pos h

theorem requireDivisor_good {d : Word} (h : d ≠ 0) {c : Reg} {v : Word} {s : State}
    {P : Word → Prop} (hv : P v) :
    ∃ t, requireDivisor d s (s.advance 4) (writeReg c v s) = .next t ∧ P (t.reg c) ∧
      t.ip = s.ip + 4 ∧ Frame { regs := [c] } s t := by
  rw [requireDivisor, if_neg h]
  exact writeReg_good hv

/-- Settles O52. -/
theorem divisionsAndRemainders : Obligations.DivisionsAndRemainders := by
  refine fun a b c s => ⟨fun hx => ⟨?_, ?_, ?_, ?_⟩, fun hx => ?_, fun hx hfits => ?_⟩
  · exact requireDivisor_good hx (P := fun r => r.toNat = _) BitVec.toNat_udiv
  · exact requireDivisor_good hx (P := fun r => r.toNat = _) BitVec.toNat_umod
  · exact requireDivisor_good hx (P := fun r => r.toInt = _)
      ((congrArg _ (remainderInteger_eq _ _)).trans (BitVec.toInt_srem _ _))
  · exact requireDivisor_good hx (P := fun r => r.toInt = _)
      ((congrArg _ (moduloInteger_eq _ _)).trans BitVec.toInt_smod)
  · simp only [List.forall_mem_cons]
    exact ⟨requireDivisor_zero hx s _, requireDivisor_zero hx s _, requireDivisor_zero hx s _,
      requireDivisor_zero hx s _, requireDivisor_zero hx s _, fun _ h => nomatch h⟩
  · have hoverflow : (srcValue s b == 0x80000000#32 && srcValue s a == 0xFFFFFFFF#32) = false := by
      rw [Bool.eq_false_iff, Ne, Bool.and_eq_true, beq_iff_eq, beq_iff_eq]
      exact hfits
    refine ⟨_, _, (if_neg hx).trans (writeChecked_next.2 (.inl ⟨hoverflow, rfl⟩)), if_neg hx, ?_⟩
    rw [State.setReg_reg_same, State.setReg_reg_same]
    exact divideInteger_mul_add hfits

end Sys2Proof.Machine
end

section
/-! Compares, queries, scans, fields, control registers and moves (45_reg_compare_misc.md,
47_reg_bitfield_system.md, 46_reg_move_atomic.md sections 1 and 2). -/

namespace Sys2Proof.Machine

/-! ### Compares -/

theorem writeCc_completes {code code' : BitVec 3} (h : code = code') (s : State) :
    ∃ t, writeCc code s = .next t ∧ ccOf t.ac = code' ∧ t.ip = s.ip + 4 ∧ Frame { ac := 7 } s t :=
  ⟨_, rfl, h ▸ ccOf_withCc _ _, rfl, frame_writeCc ccMask_covers rfl⟩

theorem zext8_toNat (v : Word) : (zext8 v).toNat = v.toNat % 256 := by
  rw [zext8, BitVec.toNat_setWidth, BitVec.extractLsb'_toNat, Nat.shiftRight_zero]
  omega

theorem zext16_toNat (v : Word) : (zext16 v).toNat = v.toNat % 65536 := by
  rw [zext16, BitVec.toNat_setWidth, BitVec.extractLsb'_toNat, Nat.shiftRight_zero]
  omega

/-- The low bits of a word as a signed number. -/
theorem toInt_signExtend_low (v : Word) {n : Nat} (hn : n ≤ 32) :
    ((v.extractLsb' 0 n).signExtend 32).toInt = Int.bmod v.toNat (2 ^ n) := by
  rw [BitVec.toInt_signExtend_of_le hn, BitVec.toInt_eq_toNat_bmod, BitVec.extractLsb'_toNat,
    Nat.shiftRight_zero, Int.natCast_mod, Int.emod_bmod]

theorem concmp_completes (sg : Signedness) (a b : Src) (s : State) :
    ∃ t, exec (sg.concmp a b) s = .next t ∧
      ccOf t.ac = (if s.ac.getLsbD 2 then ccOf s.ac
        else if sg.value (srcValue s a) ≤ sg.value (srcValue s b) then 2 else 1) ∧
      t.ip = s.ip + 4 ∧ Frame { ac := 7 } s t := by
  have hbit : (ccOf s.ac).getLsbD 2 = s.ac.getLsbD 2 := by simp [ccOf]
  refine ⟨_, exec_concmp sg a b s, ?_, rfl, frame_concmp (w := { ac := 7 }) ccMask_covers⟩
  rw [State.setAc_ac]
  cases h : s.ac.getLsbD 2 with
  | true => rw [concmpAc_of_less (hbit.trans h), if_pos rfl]
  | false =>
    rw [concmpAc_of_not_less (hbit.trans h), ccOf_withCc, if_neg Bool.false_ne_true]
    simp only [lessThan_iff, ← not_lt, ite_not]

/-- The code beside a wrapped step of `b`. -/
theorem cmpStep_completes (sg : Signedness) (x y : Word) (c : Reg) (v : Word) (s : State) :
    ∃ t, writeCcReg (cmpCode sg x y) c v s = .next t ∧
      ccOf t.ac = orderCode (sg.value x) (sg.value y) ∧ t.reg c = v ∧ t.ip = s.ip + 4 ∧
      Frame { regs := [c], ac := 7 } s t := by
  obtain ⟨t, ht, hc, hcc, hrest⟩ := writeCcReg_completes (cmpCode sg x y) c v s
  exact ⟨t, ht, by rw [hcc, cmpCode_eq_orderCode], hc, hrest⟩

/-- Settles O43: each is a compare of one signedness, of whole or narrowed operands. -/
theorem compares : Obligations.Compares := by
  refine fun a b c s => ⟨?_, ?_, ?_, ?_, ?_, ?_, ?_,
    concmp_completes .integer a b s, cmpStep_completes .ordinal _ _ c _ s,
    cmpStep_completes .integer _ _ c _ s, cmpStep_completes .ordinal _ _ c _ s,
    cmpStep_completes .integer _ _ c _ s⟩
  · exact writeCc_completes (cmpCode_eq_orderCode .ordinal _ _) s
  · exact writeCc_completes (cmpCode_eq_orderCode .integer _ _) s
  · refine writeCc_completes ((cmpCode_eq_orderCode .ordinal _ _).trans ?_) s
    simp only [Signedness.value, zext8_toNat]
  · refine writeCc_completes ((cmpCode_eq_orderCode .integer _ _).trans ?_) s
    simp only [Signedness.value, sext8, toInt_signExtend_low _ (n := 8) (by decide)]
    rfl
  · refine writeCc_completes ((cmpCode_eq_orderCode .ordinal _ _).trans ?_) s
    simp only [Signedness.value, zext16_toNat]
  · refine writeCc_completes ((cmpCode_eq_orderCode .integer _ _).trans ?_) s
    simp only [Signedness.value, sext16, toInt_signExtend_low _ (n := 16) (by decide)]
    rfl
  · have h := concmp_completes .ordinal a b s
    simp only [Signedness.value, Int.ofNat_le] at h
    exact h

/-! ### Bytes and bits -/

/-- Byte `k` of a word as a number. -/
theorem extractByte_toNat (v : Word) (k : Nat) :
    (v.extractLsb' (8 * k) 8).toNat = v.toNat / 256 ^ k % 256 := by
  rw [BitVec.extractLsb'_toNat, Nat.shiftRight_eq_div_pow, Nat.pow_mul]

theorem anyByteEqual_iff (x y : Word) :
    anyByteEqual x y = true ↔ ∃ k < 4, x.toNat / 256 ^ k % 256 = y.toNat / 256 ^ k % 256 := by
  have hplaces : [0, 8, 16, 24] = (List.range 4).map (8 * ·) := rfl
  simp only [anyByteEqual, hplaces, List.any_map, List.any_eq_true, List.mem_range,
    Function.comp_apply, beq_iff_eq, ← BitVec.toNat_inj, extractByte_toNat]

theorem wordBytes_byteSwap (v : Word) : wordBytes (byteSwap v) = (wordBytes v).reverse :=
  wordBytes_append _ _ _ _

theorem byteSwap_byte (v : Word) {k : Nat} (hk : k < 4) :
    (byteSwap v).extractLsb' (8 * k) 8 = v.extractLsb' (8 * (3 - k)) 8 := by
  have h := wordBytes_byteSwap v
  simp only [wordBytes, List.reverse_cons, List.reverse_nil, List.nil_append, List.cons_append,
    List.cons.injEq, and_true] at h
  obtain ⟨h0, h1, h2, h3⟩ := h
  match k with
  | 0 => exact h0
  | 1 => exact h1
  | 2 => exact h2
  | 3 => exact h3

/-- Settles O44. -/
theorem byteAndBitQueries : Obligations.ByteAndBitQueries := by
  refine fun a b c s => ⟨?_, ?_, ?_⟩
  · exact writeCc_completes (if_congr (anyByteEqual_iff _ _) rfl rfl) s
  · exact writeCc_completes rfl s
  · refine writeReg_good (P := fun r => ∀ k < 4, r.toNat / 256 ^ k % 256 =
      (srcValue s a).toNat / 256 ^ (3 - k) % 256) fun k hk => ?_
    rw [← extractByte_toNat, ← extractByte_toNat, byteSwap_byte _ hk]

/-! ### Scans -/

theorem msbIndex_toNat {v : Word} (h : v ≠ 0) : (msbIndex v).toNat = v.toNat.log2 := by
  have hpos : v.toNat ≠ 0 := fun h' => h (BitVec.eq_of_toNat_eq h')
  have hlt : v.toNat.log2 < 32 := (Nat.log2_lt hpos).2 v.isLt
  rw [msbIndex, BitVec.toNat_ofNat]
  omega

/-- The scan of `v` finds the highest bit it has. -/
theorem scanResult_completes (v : Word) (c : Reg) (s : State) :
    ∃ t, scanResult v c s = .next t ∧ t.ip = s.ip + 4 ∧ Frame { regs := [c], ac := 7 } s t ∧
      (v ≠ 0 → ccOf t.ac = 2 ∧ (t.reg c).toNat < 32 ∧ v.getLsbD (t.reg c).toNat = true ∧
        ∀ k < 32, (t.reg c).toNat < k → v.getLsbD k = false) ∧
      (v = 0 → ccOf t.ac = 0 ∧ t.reg c = 0xFFFFFFFF) := by
  unfold scanResult
  split
  next hzero =>
    obtain ⟨t, ht, hc, hcc, hip, hframe⟩ := writeCcReg_completes (matchCode false) c 0xFFFFFFFF s
    exact ⟨t, ht, hip, hframe, fun h => absurd hzero h, fun _ => ⟨hcc, hc⟩⟩
  next hne =>
    have hpos : v.toNat ≠ 0 := fun h => hne (BitVec.eq_of_toNat_eq h)
    obtain ⟨t, ht, hc, hcc, hip, hframe⟩ := writeCcReg_completes (matchCode true) c (msbIndex v) s
    refine ⟨t, ht, hip, hframe, fun _ => ⟨hcc, ?_⟩, fun h => absurd h hne⟩
    rw [hc, msbIndex_toNat hne]
    refine ⟨(Nat.log2_lt hpos).2 v.isLt, Nat.testBit_log2 hpos, fun k _ hk => ?_⟩
    exact Nat.testBit_lt_two_pow ((Nat.log2_lt hpos).1 hk)

/-- A scan for the bits of `x` that are `bit`, which `v` has set. -/
theorem scanResult_finds {x v : Word} {bit : Bool}
    (hv : ∀ k < 32, v.getLsbD k = (x.getLsbD k == bit)) (c : Reg) (s : State) :
    ∃ t, scanResult v c s = .next t ∧ t.ip = s.ip + 4 ∧ Frame { regs := [c], ac := 7 } s t ∧
      ((∃ k < 32, x.getLsbD k = bit) → ccOf t.ac = 2 ∧ (t.reg c).toNat < 32 ∧
        x.getLsbD (t.reg c).toNat = bit ∧
        ∀ k < 32, (t.reg c).toNat < k → x.getLsbD k = !bit) ∧
      ((∀ k < 32, x.getLsbD k = !bit) → ccOf t.ac = 0 ∧ t.reg c = 0xFFFFFFFF) := by
  obtain ⟨t, ht, hip, hframe, hfound, hnone⟩ := scanResult_completes v c s
  refine ⟨t, ht, hip, hframe, fun ⟨k, hk, hbit⟩ => ?_, fun hall => hnone ?_⟩
  · have hne : v ≠ 0 := by
      rintro rfl
      simpa [hbit] using hv k hk
    obtain ⟨hcc, hlt, hset, hhigher⟩ := hfound hne
    refine ⟨hcc, hlt, ?_, fun j hj hlow => ?_⟩
    · rwa [hv _ hlt, beq_iff_eq] at hset
    · have := (hv j hj).symm.trans (hhigher j hj hlow)
      rwa [beq_eq_false_iff_ne, ← Bool.eq_not] at this
  · refine BitVec.eq_of_getLsbD_eq fun k hk => ?_
    rw [hv k hk, hall k hk]
    cases bit <;> simp

/-- Settles O45: `spanbit` scans the complement. -/
theorem scanAndSpanFindTheHighestBit : Obligations.ScanAndSpanFindTheHighestBit := by
  simp only [Obligations.ScanAndSpanFindTheHighestBit, List.forall_mem_cons]
  refine ⟨fun a c s => ?_, fun a c s => ?_, fun _ h => nomatch h⟩
  · exact scanResult_finds (fun k _ => (beq_true _).symm) c s
  · refine scanResult_finds (fun k hk => ?_) c s
    rw [BitVec.getLsbD_not, decide_eq_true hk, Bool.true_and, beq_false]

end Sys2Proof.Machine
end

section
/-! Fields and masked exchanges, the interrupt-control word and moves (47_reg_bitfield_system.md
sections 2 and 3, 46_reg_move_atomic.md sections 1 and 2), with the value of bytes in memory as the
port reads it. -/

namespace Sys2Proof.Machine

/-! ### Masked exchanges and fields -/

/-- R202: the bits of the field, none from its length up. -/
theorem extractBits_getLsbD (x p n : Word) {k : Nat} (hk : k < 32) :
    (extractBits x p n).getLsbD k = (decide (k < n.toNat) && x.getLsbD (p.toNat % 32 + k)) := by
  unfold extractBits
  dsimp only
  split
  next h =>
    rw [BitVec.getLsbD_ushiftRight, decide_eq_true (by omega : k < n.toNat), Bool.true_and]
  next h =>
    rw [BitVec.getLsbD_and, BitVec.getLsbD_ushiftRight, Bool.and_comm]
    congr 1
    rw [BitVec.getLsbD, lowMask_toNat (by omega), Nat.testBit_two_pow_sub_one]

/-- Settles O46. -/
theorem maskedExchangesAndFields : Obligations.MaskedExchangesAndFields := by
  refine fun a b c s => ⟨?_, ?_, ?_⟩
  · exact ⟨_, rfl, fun k _ => modifyBits_getLsbD _ _ _ k, State.setReg_reg_same _ _ _, rfl,
      (frame_advance s _ 4).trans <| (frame_setAc (modifyBits_outside _ _ _)).trans <|
        frame_setReg _ _ c _ (.head _)⟩
  · exact writeReg_writesBits fun k _ => modifyBits_getLsbD _ _ _ k
  · exact writeReg_writesBits fun k hk => extractBits_getLsbD _ _ _ hk

/-- Settles O47. -/
theorem modpcExchangesPc : Obligations.ModpcExchangesPc := by
  refine fun a b c s => ⟨fun hallowed => ?_, fun huser hmask => ?_⟩
  · exact ⟨_, (execModpc_next (a := a)).2 ⟨hallowed.symm, rfl⟩,
      fun k _ => modifyBits_getLsbD _ _ _ k, State.setReg_reg_same _ _ _, rfl,
      (frame_advance s _ 4).trans <| (frame_setPc (modifyBits_outside _ _ _)).trans <|
        frame_setReg _ _ c _ (.head _)⟩
  · exact exec_privileged_user (.inr (.inr ⟨a, b, c, rfl, hmask⟩)) huser

/-! ### Bytes in memory as one number -/

/-- The bytes of an access as one number are what the port reads. -/
theorem State.valueAt_eq_load (s : State) (addr : Word) (n : Width) :
    s.valueAt addr n.bytes = (s.mem.load addr n).toNat := by
  have hone : addr + 1 + 1 = addr + 2 := BitVec.add_assoc _ _ _
  have htwo : addr + 2 + 1 = addr + 3 := BitVec.add_assoc _ _ _
  have h0 := (s.mem.byteAt addr.toNat).isLt
  have h1 := (s.mem.byteAt (addr + 1).toNat).isLt
  cases n with
  | byte =>
    simp only [Width.bytes, State.valueAt, Memory.load, BitVec.toNat_setWidth, State.byteAt]
    omega
  | short =>
    simp only [Width.bytes, State.valueAt, Memory.load, BitVec.toNat_setWidth, append_toNat,
      State.byteAt]
    omega
  | word =>
    simp only [Width.bytes, State.valueAt, Memory.load, append_toNat, hone, htwo, State.byteAt]
    omega

theorem State.valueAt_word (s : State) (addr : Word) :
    s.valueAt addr 4 = (s.mem.load addr .word).toNat :=
  State.valueAt_eq_load s addr .word

/-! ### Interrupt control -/

theorem iconEnableBit_getLsbD {k : Nat} (hk : k < 32) :
    iconEnableBit.getLsbD k = decide (k = 10) := by
  revert k
  decide

theorem rewriteIcon_completes {f : Word → Word} {s : State} {bit : Bool}
    (hf : ∀ v : Word, ∀ k < 32, (f v).getLsbD k = if k = 10 then bit else v.getLsbD k)
    (hmode : s.pc.getLsbD 1 = true) :
    ∃ t, rewriteIcon f s = .next t ∧
      (∀ k < 32, (t.valueAt 0xFF008510 4).testBit k =
        if k = 10 then bit else (s.valueAt 0xFF008510 4).testBit k) ∧
      t.ip = s.ip + 4 ∧ Frame { bytes := span 0xFF008510 4 } s t := by
  refine ⟨_, requireSupervisor_next.2 ⟨hmode, rfl⟩, fun k hk => ?_, rfl,
    (frame_advance s _ 4).trans (frame_store _ _ iconAddress .word _ fun _ ha => ha)⟩
  have hvalue (u : State) : u.valueAt 0xFF008510 4 = (u.mem.load iconAddress .word).toNat :=
    State.valueAt_word u iconAddress
  rw [hvalue, hvalue, State.setMem_mem, Memory.load_store_word]
  exact hf _ k hk

/-- Settles O48. -/
theorem interruptControlChangesOneBit : Obligations.InterruptControlChangesOneBit := by
  simp only [Obligations.InterruptControlChangesOneBit, List.forall_mem_cons]
  refine ⟨fun s => ⟨fun h => ?_, exec_privileged_user (.inl rfl)⟩,
    fun s => ⟨fun h => ?_, exec_privileged_user (.inr (.inl rfl))⟩, fun _ h => nomatch h⟩
  · rw [exec_intdis]
    refine rewriteIcon_completes (fun v k hk => ?_) h
    rw [BitVec.getLsbD_or, iconEnableBit_getLsbD hk]
    split <;> simp [*]
  · rw [exec_inten]
    refine rewriteIcon_completes (fun v k hk => ?_) h
    rw [BitVec.getLsbD_and, BitVec.getLsbD_not, iconEnableBit_getLsbD hk]
    split <;> simp [*]

/-! ### Moves -/

/-- A group copied word by word. -/
theorem moveGroup_completes {n : Nat} {r c : Reg} (hn : n ≤ 32) (hr : groupAligned n r = true)
    (hc : groupAligned n c = true) (s : State) :
    ∃ t, moveGroup n (.reg r) c s = .next t ∧
      (∀ k < n, t.reg (c + BitVec.ofNat 5 k) = s.reg (r + BitVec.ofNat 5 k)) ∧
      t.ip = s.ip + 4 ∧ Frame { regs := groupRegs c n } s t := by
  have ht : moveGroup n (.reg r) c s = .next ((s.advance 4).setRegs c (s.regs r n)) :=
    (if_pos hr).trans (if_pos hc)
  have hlen := State.regs_length s r n
  refine ⟨_, ht, fun k hk => ?_, State.setRegs_ip _ _ _, frame_moveGroup ht⟩
  rw [State.setRegs_reg _ _ _ _ (by omega) (by omega), State.regs_getElem]

theorem literal_toNat (v : BitVec 5) : (v.setWidth 32).toNat = v.toNat := by
  rw [BitVec.toNat_setWidth]
  omega

theorem groupAligned_of_mod {n : Nat} {r : Reg} (h : r.toNat % (if n ≤ 2 then 2 else 4) = 0) :
    groupAligned n r = true :=
  beq_iff_eq.2 h

/-- Settles O50. -/
theorem movesCopyRegistersAndGroups : Obligations.MovesCopyRegistersAndGroups := by
  refine ⟨fun r c s => writeReg_writes c _ s, fun v c s => ?_, ?_⟩
  · exact writeReg_good (P := fun w => w.toNat = _) (literal_toNat v)
  · simp only [List.forall_mem_cons]
    refine ⟨fun r c s hr hc => ?_, fun r c s hr hc => ?_, fun r c s hr hc => ?_,
      fun _ h => nomatch h⟩
    · exact moveGroup_completes (by decide) (groupAligned_of_mod hr) (groupAligned_of_mod hc) s
    · exact moveGroup_completes (by decide) (groupAligned_of_mod hr) (groupAligned_of_mod hc) s
    · exact moveGroup_completes (by decide) (groupAligned_of_mod hr) (groupAligned_of_mod hc) s

end Sys2Proof.Machine
end

section
/-! Loads, stores, signed narrow stores and atomics (49_mem.md sections 3 and 4,
46_reg_move_atomic.md section 4), through the number the bytes of an access hold. -/

namespace Sys2Proof.Machine

/-! ### Which accesses the port takes -/

theorem accessible_iff (s : State) (addr : Word) (n : Width) :
    Accessible s addr n.bytes ↔ s.portRefuses addr n = false := by
  have hpolicy : s.params.misalignedData = .compose ↔ s.params.misalignedData ≠ .refuse := by
    cases s.params.misalignedData <;> decide
  rw [Accessible, hpolicy, State.portRefuses, Bool.and_eq_false_iff, beq_eq_false_iff_ne,
    bne_eq_false_iff_eq]

theorem not_accessible_iff (s : State) (addr : Word) (n : Width) :
    ¬Accessible s addr n.bytes ↔ s.portRefuses addr n = true := by
  rw [accessible_iff, Bool.not_eq_false]

/-- The words of a run are all taken or all refused, as the first is. -/
theorem portRefuses_wordAddr (s : State) (addr : Word) (k : Nat) :
    s.portRefuses (addr + BitVec.ofNat 32 (4 * k)) .word = s.portRefuses addr .word := by
  have haddr : (addr + BitVec.ofNat 32 (4 * k)).toNat % 4 = addr.toNat % 4 := by
    rw [BitVec.toNat_add, BitVec.toNat_ofNat]
    omega
  simp only [State.portRefuses, Width.bytes, haddr]

/-! ### The number in memory -/

theorem State.valueAt_of_bytes {s : State} {addr : Word} {n x : Nat}
    (h : ∀ k < n, (s.byteAt (addr + BitVec.ofNat 32 k)).toNat = x / 256 ^ k % 256) :
    s.valueAt addr n = x % 256 ^ n := by
  induction n generalizing addr x with
  | zero => rw [State.valueAt, pow_zero, Nat.mod_one]
  | succ n ih =>
    have hfirst : (s.byteAt addr).toNat = x % 256 := by simpa using h 0 (by omega)
    have hrest : s.valueAt (addr + 1) n = x / 256 % 256 ^ n := ih fun k hk => by
      have := h (k + 1) (by omega)
      rwa [Nat.add_comm, BitVec.ofNat_add, ← BitVec.add_assoc, Nat.pow_add,
        ← Nat.div_div_eq_div_mul] at this
    rw [State.valueAt, hfirst, hrest, Nat.pow_succ', Nat.mod_mul]

theorem State.valueAt_lt (s : State) (addr : Word) (n : Nat) : s.valueAt addr n < 256 ^ n := by
  induction n generalizing addr with
  | zero => exact Nat.one_pos
  | succ n ih =>
    have hbyte := (s.byteAt addr).isLt
    have hrest := ih (addr + 1)
    rw [State.valueAt, Nat.pow_succ']
    omega

theorem Memory.store_byteAt {s : State} {m : Memory} {addr : Word} {n : Width} {v : Word}
    (hmem : s.mem = m.store addr n v) {k : Nat} (hk : k < n.bytes) :
    s.byteAt (addr + BitVec.ofNat 32 k) = v.extractLsb' (8 * k) 8 := by
  rw [State.byteAt, hmem, Memory.store_getElem _ _ _ _ _ hk]

/-- What a store leaves at its address, as a number. -/
theorem State.valueAt_store {s : State} {m : Memory} {addr : Word} {n : Width} {v : Word}
    (hmem : s.mem = m.store addr n v) : s.valueAt addr n.bytes = v.toNat % 256 ^ n.bytes :=
  State.valueAt_of_bytes fun _ hk => by rw [Memory.store_byteAt hmem hk, extractByte_toNat]

/-! ### Loads -/

/-- A load's outcome: a value in `c` where the port takes the access, else the refusal. -/
theorem loadOne_loads {i : Instr} {n : Width} {widen : Word → Word} {m : MemOperand} {c : Reg}
    {s : State} {P : Word → Prop} (hexec : exec i s = loadOne n widen m c s)
    (hlen : 4 * (encode i).length = memLength m) (hP : P (widen (s.mem.load (efa s m) n))) :
    (Accessible s (efa s m) n.bytes → ∃ t, exec i s = .next t ∧ P (t.reg c) ∧
      t.ip = s.ip + lengthOf i ∧ Frame { regs := [c] } s t) ∧
    (¬Accessible s (efa s m) n.bytes → exec i s = .refused .misalignedData) := by
  rw [not_accessible_iff, accessible_iff, hexec, lengthOf, hlen]
  refine ⟨fun htaken => ?_, fun hrefused =>
    orRefuse_refused.2 (.inl (read_error.2 ⟨hrefused, rfl⟩))⟩
  have ht : loadOne n widen m c s = .next ((s.advance (memLength m)).setReg c
      (widen (s.mem.load (efa s m) n))) :=
    orRefuse_next.2 ⟨_, read_ok.2 ⟨htaken, rfl⟩, rfl⟩
  refine ⟨_, ht, ?_, rfl, frame_loadOne (.head _) ht⟩
  rwa [State.setReg_reg_same]

theorem zext8_load (s : State) (addr : Word) :
    (zext8 (s.mem.load addr .byte)).toNat = s.valueAt addr 1 := by
  rw [zext8_toNat, ← State.valueAt_eq_load]
  exact Nat.mod_eq_of_lt (State.valueAt_lt s addr 1)

theorem zext16_load (s : State) (addr : Word) :
    (zext16 (s.mem.load addr .short)).toNat = s.valueAt addr 2 := by
  rw [zext16_toNat, ← State.valueAt_eq_load]
  exact Nat.mod_eq_of_lt (State.valueAt_lt s addr 2)

theorem sext8_load (s : State) (addr : Word) :
    (sext8 (s.mem.load addr .byte)).toInt = Int.bmod (s.valueAt addr 1) (256 ^ 1) := by
  rw [sext8, toInt_signExtend_low _ (by decide), ← State.valueAt_eq_load]
  rfl

theorem sext16_load (s : State) (addr : Word) :
    (sext16 (s.mem.load addr .short)).toInt = Int.bmod (s.valueAt addr 2) (256 ^ 2) := by
  rw [sext16, toInt_signExtend_low _ (by decide), ← State.valueAt_eq_load]
  rfl

theorem readWords_refused {s : State} {addr : Word} {n : Nat} (hpos : 0 < n)
    (h : s.portRefuses addr .word = true) : s.readWords addr n = .error .misalignedData := by
  cases n with
  | zero => cases hpos
  | succ n => rw [State.readWords, read_error.2 ⟨h, rfl⟩]

theorem writeWords_refused {s : State} {addr : Word} {vs : List Word} (hpos : 0 < vs.length)
    (h : s.portRefuses addr .word = true) : s.writeWords addr vs = .error .misalignedData := by
  cases vs with
  | nil => cases hpos
  | cons v vs => rw [State.writeWords, write_error.2 ⟨h, rfl⟩]

/-- A group loaded word by word. -/
theorem loadGroup_loads {i : Instr} {n : Nat} {m : MemOperand} {c : Reg} {s : State} (hn : n ≤ 32)
    (hpos : 0 < n) (hexec : exec i s = loadGroup n m c s)
    (hlen : 4 * (encode i).length = memLength m) (hc : groupAligned n c = true) :
    (Accessible s (efa s m) 4 → ∃ t, exec i s = .next t ∧
      (∀ k < n, (t.reg (c + BitVec.ofNat 5 k)).toNat =
        s.valueAt (efa s m + BitVec.ofNat 32 (4 * k)) 4) ∧
      t.ip = s.ip + lengthOf i ∧ Frame { regs := groupRegs c n } s t) ∧
    (¬Accessible s (efa s m) 4 → exec i s = .refused .misalignedData) := by
  rw [hexec, lengthOf, hlen]
  constructor
  · intro htaken
    replace htaken := (accessible_iff s _ .word).1 htaken
    obtain ⟨vs, hvs⟩ := readWords_total s (efa s m) n fun k _ =>
      (portRefuses_wordAddr s _ k).trans htaken
    obtain ⟨hlength, hwords⟩ := readWords_ok hvs
    have ht : loadGroup n m c s = .next ((s.advance (memLength m)).setRegs c vs) :=
      requireGroup_next.2 ⟨hc, orRefuse_next.2 ⟨vs, hvs, rfl⟩⟩
    refine ⟨_, ht, fun k hk => ?_, State.setRegs_ip _ _ _, frame_loadGroup ht⟩
    have hk' : k < vs.length := by omega
    rw [State.setRegs_reg _ _ _ _ hk' (by omega), (hwords k hk').1, State.valueAt_word]
  · intro hrefused
    exact requireGroup_refused.2 (.inl ⟨hc, orRefuse_refused.2
      (.inl (readWords_refused hpos ((not_accessible_iff s _ .word).1 hrefused)))⟩)

/-- Settles O53: each is a load of one access, by its width and its widening, or of a group. -/
theorem loadsReadLittleEndian : Obligations.LoadsReadLittleEndian := by
  simp only [Obligations.LoadsReadLittleEndian, List.forall_mem_cons]
  refine ⟨⟨fun m c s => ?_, fun m c s => ?_, fun m c s => ?_, fun _ h => nomatch h⟩,
    ⟨fun m c s => ?_, fun m c s => ?_, fun _ h => nomatch h⟩,
    fun m c s hc => ?_, fun m c s hc => ?_, fun m c s hc => ?_, fun _ h => nomatch h⟩
  · exact loadOne_loads (i := .ldob m c) (P := fun v => v.toNat = _) rfl
      (memWords_length _ _ m) (zext8_load s _)
  · exact loadOne_loads (i := .ldos m c) (P := fun v => v.toNat = _) rfl
      (memWords_length _ _ m) (zext16_load s _)
  · exact loadOne_loads (i := .ld m c) (P := fun v => v.toNat = _) rfl
      (memWords_length _ _ m) (State.valueAt_word s _).symm
  · exact loadOne_loads (i := .ldib m c) (P := fun v => v.toInt = _) rfl
      (memWords_length _ _ m) (sext8_load s _)
  · exact loadOne_loads (i := .ldis m c) (P := fun v => v.toInt = _) rfl
      (memWords_length _ _ m) (sext16_load s _)
  · exact loadGroup_loads (by decide) (by decide) rfl (memWords_length _ _ m)
      (groupAligned_of_mod hc)
  · exact loadGroup_loads (by decide) (by decide) rfl (memWords_length _ _ m)
      (groupAligned_of_mod hc)
  · exact loadGroup_loads (by decide) (by decide) rfl (memWords_length _ _ m)
      (groupAligned_of_mod hc)

/-! ### Stores -/

/-- A store's outcome: the low bytes of `c` at the address where the port takes the access, else the
refusal. -/
theorem storeOne_stores {i : Instr} {n : Width} {m : MemOperand} {c : Reg} {s : State}
    (hexec : exec i s = storeOne n c m s) (hlen : 4 * (encode i).length = memLength m) :
    (Accessible s (efa s m) n.bytes → ∃ t, exec i s = .next t ∧
      t.valueAt (efa s m) n.bytes = (s.reg c).toNat % 256 ^ n.bytes ∧
      t.ip = s.ip + lengthOf i ∧ Frame { bytes := span (efa s m) n.bytes } s t) ∧
    (¬Accessible s (efa s m) n.bytes → exec i s = .refused .misalignedData) := by
  rw [not_accessible_iff, accessible_iff, hexec, lengthOf, hlen]
  refine ⟨fun htaken => ?_, fun hrefused =>
    orRefuse_refused.2 (.inl (write_error.2 ⟨hrefused, rfl⟩))⟩
  have ht : storeOne n c m s = .next ((s.advance (memLength m)).setMem
      (s.mem.store (efa s m) n (s.reg c))) :=
    orRefuse_next.2 ⟨_, write_ok.2 ⟨htaken, rfl⟩, rfl⟩
  exact ⟨_, ht, State.valueAt_store rfl, rfl, frame_storeOne ht⟩

/-- A group stored word by word. -/
theorem storeGroup_stores {i : Instr} {n : Nat} {m : MemOperand} {c : Reg} {s : State} (hn : n ≤ 32)
    (hpos : 0 < n) (hexec : exec i s = storeGroup n c m s)
    (hlen : 4 * (encode i).length = memLength m) (hc : groupAligned n c = true) :
    (Accessible s (efa s m) 4 → ∃ t, exec i s = .next t ∧
      (∀ k < n, t.valueAt (efa s m + BitVec.ofNat 32 (4 * k)) 4 =
        (s.reg (c + BitVec.ofNat 5 k)).toNat) ∧
      t.ip = s.ip + lengthOf i ∧ Frame { bytes := span (efa s m) (4 * n) } s t) ∧
    (¬Accessible s (efa s m) 4 → exec i s = .refused .misalignedData) := by
  have hregs := State.regs_length s c n
  rw [hexec, lengthOf, hlen]
  constructor
  · intro htaken
    replace htaken := (accessible_iff s _ .word).1 htaken
    obtain ⟨t, hw⟩ := writeWords_total (s.advance (memLength m)) (efa s m) (s.regs c n) fun k _ =>
      (portRefuses_wordAddr s _ k).trans htaken
    obtain ⟨hmem, -⟩ := writeWords_ok hw
    have ht : storeGroup n c m s = .next t :=
      requireGroup_next.2 ⟨hc, orRefuse_next.2 ⟨t, hw, rfl⟩⟩
    refine ⟨t, ht, fun k hk => ?_, by rw [hmem]; rfl, frame_storeGroup ht⟩
    have hk' : k < (s.regs c n).length := by omega
    rw [State.valueAt_word, writeWords_load hw (by omega) k hk', State.regs_getElem]
  · intro hrefused
    exact requireGroup_refused.2 (.inl ⟨hc, orRefuse_refused.2
      (.inl (writeWords_refused (by omega) ((not_accessible_iff s _ .word).1 hrefused)))⟩)

/-- Settles O54: each is a store of one access, by its width, or of a group. -/
theorem storesWriteLittleEndian : Obligations.StoresWriteLittleEndian := by
  simp only [Obligations.StoresWriteLittleEndian, List.forall_mem_cons]
  refine ⟨⟨fun m c s => ?_, fun m c s => ?_, fun m c s => ?_, fun _ h => nomatch h⟩,
    fun m c s hc => ?_, fun m c s hc => ?_, fun m c s hc => ?_, fun _ h => nomatch h⟩
  · exact storeOne_stores (n := .byte) rfl (memWords_length _ _ m)
  · exact storeOne_stores (n := .short) rfl (memWords_length _ _ m)
  · exact storeOne_stores (n := .word) rfl (memWords_length _ _ m)
  · exact storeGroup_stores (by decide) (by decide) rfl (memWords_length _ _ m)
      (groupAligned_of_mod hc)
  · exact storeGroup_stores (by decide) (by decide) rfl (memWords_length _ _ m)
      (groupAligned_of_mod hc)
  · exact storeGroup_stores (by decide) (by decide) rfl (memWords_length _ _ m)
      (groupAligned_of_mod hc)

/-! ### Signed narrow stores (R732, R733) -/

/-- Bytes stored under the policy, where the port takes the access. -/
theorem storeChecked_checksOverflow {i : Instr} {n : Width} {m : MemOperand} {c : Reg} {s : State}
    {fits : Prop} (hexec : exec i s = storeChecked n c m s)
    (hlen : 4 * (encode i).length = memLength m)
    (hoverflow : (!fitsSigned (8 * n.bytes) (s.reg c).toInt) = true ↔ ¬fits)
    (htaken : s.portRefuses (efa s m) n = false) :
    StoreChecksOverflow i fits n.bytes c m s := by
  have hwrite : (s.advance (memLength m)).write (efa s m) n (s.reg c) =
      .ok ((s.advance (memLength m)).setMem (s.mem.store (efa s m) n (s.reg c))) :=
    write_ok.2 ⟨htaken, rfl⟩
  have hframe (w : Word) : Frame { ac := w, bytes := span (efa s m) n.bytes } s
      ((s.advance (memLength m)).setMem (s.mem.store (efa s m) n (s.reg c))) :=
    (frame_advance s _ _).trans (frame_store _ _ _ _ _ fun _ ha => ha)
  rw [StoreChecksOverflow, hexec, lengthOf, hlen, ← hoverflow]
  refine ⟨fun hfits => ?_, fun ho hom => ?_, fun ho hom hw => ?_, fun ho hom hw => ?_⟩
  · have hno : (!fitsSigned (8 * n.bytes) (s.reg c).toInt) = false := by
      rw [← Bool.not_eq_true, hoverflow]
      exact not_not_intro hfits
    exact ⟨_, commit_next.2 (.inl ⟨hno, hwrite⟩), ⟨fun _ => Memory.store_byteAt rfl, rfl⟩, hframe 0⟩
  · refine ⟨_, commit_next.2 (.inr ⟨ho, hom, _, hwrite, rfl⟩),
      ⟨fun _ => Memory.store_byteAt rfl, rfl⟩, ?_,
      (hframe _).trans (frame_setOf _ _ ofMask_covers)⟩
    simp [ofOf, withOf]
  · exact ⟨_, commit_fault.2 ⟨ho, hom, _, rfl, .inl ⟨hw, hwrite⟩⟩,
      ⟨fun _ => Memory.store_byteAt rfl, rfl⟩, hframe 0⟩
  · exact commit_fault.2 ⟨ho, hom, _, rfl, .inr ⟨hw, rfl⟩⟩

/-- Where the port refuses the access, a store is refused unless it would store nothing. -/
theorem storeChecked_refused {n : Width} {m : MemOperand} {c : Reg} {s : State}
    (hrefused : s.portRefuses (efa s m) n = true)
    (h : ¬((!fitsSigned (8 * n.bytes) (s.reg c).toInt) = true ∧ omOf s.ac = false ∧
      s.params.overflowWrite = .unchanged)) :
    storeChecked n c m s = .refused .misalignedData := by
  have hrefuse (k : State → Result) :
      orRefuse ((s.advance (memLength m)).write (efa s m) n (s.reg c)) k =
        .refused .misalignedData :=
    orRefuse_refused.2 (.inl (write_error.2 ⟨hrefused, rfl⟩))
  unfold storeChecked commit overflowEvent
  rw [State.advance_ac, State.advance_params]
  cases ho : !fitsSigned (8 * n.bytes) (s.reg c).toInt with
  | false => exact hrefuse _
  | true =>
    cases hom : omOf s.ac with
    | true => exact hrefuse _
    | false =>
      cases hw : s.params.overflowWrite with
      | written => exact hrefuse _
      | unchanged => exact absurd ⟨ho, hom, hw⟩ h

/-- Settles O55. -/
theorem signedNarrowStoresCheckOverflow : Obligations.SignedNarrowStoresCheckOverflow := by
  refine fun m c s => ⟨?_, fun htaken => ?_, fun hrefused =>
    ⟨fun hstores => ?_, fun hnothing => ?_⟩⟩
  · exact storeChecked_checksOverflow (n := .byte) rfl (memWords_length _ _ m)
      (not_fitsSigned_byte _) (portRefuses_aligned _ _ _ (Nat.mod_one _))
  · exact storeChecked_checksOverflow (n := .short) rfl (memWords_length _ _ m)
      (not_fitsSigned_short _) ((accessible_iff s _ .short).1 htaken)
  · rw [← not_fitsSigned_short] at hstores
    exact storeChecked_refused (n := .short) ((not_accessible_iff s _ .short).1 hrefused) hstores
  · obtain ⟨hfits, hom, hw⟩ := hnothing
    rw [lengthOf_stis]
    change storeChecked .short c m s = _
    exact commit_fault.2 ⟨(not_fitsSigned_short _).2 hfits, hom, _, rfl, .inr ⟨hw, rfl⟩⟩

/-! ### Atomics (R510) -/

/-- The atomic sequence on a free lock and on one that is held. -/
theorem atomicModify_completes {e : Word} {f : Word → Word} {c : Reg} {s : State}
    (hfree : s.lockHeld = false) :
    ∃ t, atomicModify e f c (s.advance 4) = .next t ∧
      t.valueAt e 4 = (f (s.mem.load e .word)).toNat ∧ (t.reg c).toNat = s.valueAt e 4 ∧
      t.ip = s.ip + 4 ∧ Frame { regs := [c], bytes := span e 4 } s t := by
  have ht := (atomicModify_next (addr := e) (f := f) (c := c) (s := s.advance 4)).2 ⟨hfree, rfl⟩
  refine ⟨_, ht, ?_, ?_, rfl, frame_atomic ht⟩
  · rw [State.valueAt_word]
    exact congrArg _ (Memory.load_store_word _ _ _)
  · rw [State.setReg_reg_same, State.valueAt_word]
    rfl

/-- Settles O56. -/
theorem atomicsExchangeOneWord : Obligations.AtomicsExchangeOneWord := by
  intro a b c s e v
  rw [exec_atadd, exec_atmod]
  have hload : (s.mem.load e .word).toNat = s.valueAt e 4 := (State.valueAt_word s e).symm
  refine ⟨fun hfree => ?_, fun hfree => ?_, fun hheld => ⟨if_pos hheld, if_pos hheld⟩⟩
  · obtain ⟨t, ht, hvalue, hrest⟩ := atomicModify_completes (e := e)
      (f := fun old => old + v) (c := c) hfree
    refine ⟨t, ht, ?_, hrest⟩
    rw [hvalue, BitVec.toNat_add, hload]
  · obtain ⟨t, ht, hvalue, hrest⟩ := atomicModify_completes (e := e)
      (f := fun old => modifyBits old (s.reg c) v) (c := c) hfree
    refine ⟨t, ht, fun k _ => ?_, hrest⟩
    rw [hvalue, ← hload]
    exact modifyBits_getLsbD _ _ _ k

end Sys2Proof.Machine
end

section
/-! Call and return (R256 to R258): the frame a call builds, the window a return reloads, and the
one after the other. -/

namespace Sys2Proof.Machine

/-! ### Frame addresses -/

/-- A frame address: the low six bits dropped. -/
theorem and_not_63_toNat (x : Word) : (x &&& ~~~63#32).toNat = x.toNat / 64 * 64 := by
  have hmask : ∀ k < 32, (63#32).getLsbD k = decide (k < 6) := by decide
  have hshift : x &&& ~~~63#32 = (x >>> 6) <<< 6 := by
    refine BitVec.eq_of_getLsbD_eq fun k hk => ?_
    rw [BitVec.getLsbD_and, BitVec.getLsbD_not, hmask k hk, BitVec.getLsbD_shiftLeft,
      BitVec.getLsbD_ushiftRight]
    by_cases hlow : k < 6
    · simp [hlow]
    · simp [hlow, hk, show 6 + (k - 6) = k by omega]
  have hx := x.isLt
  rw [hshift, BitVec.toNat_shiftLeft, BitVec.toNat_ushiftRight, Nat.shiftLeft_eq,
    Nat.shiftRight_eq_div_pow]
  omega

theorem nextFrame_toNat (sp : Word) :
    (nextFrame sp).toNat = (sp.toNat + 63) % 2 ^ 32 / 64 * 64 := by
  rw [nextFrame, and_not_63_toNat, BitVec.toNat_add]
  rfl

/-! ### Call -/

/-- The call procedure past an instruction of `len` bytes: the registers it writes and the window it
saves. -/
theorem callProc_completes {target : Word} {len : Nat} {s : State}
    (htaken : s.portRefuses (s.reg 31) .word = false) :
    ∃ t, callProc target (s.advance len) = .next t ∧ t.ip = target ∧
      t.reg 2 = s.ip + BitVec.ofNat 32 len ∧ t.reg 0 = s.reg 31 ∧
      (t.reg 31).toNat = ((s.reg 1).toNat + 63) % 2 ^ 32 / 64 * 64 ∧ t.reg 1 = t.reg 31 + 64 ∧
      ∀ k < 16, t.valueAt (s.reg 31 + BitVec.ofNat 32 (4 * k)) 4 =
        (if k = 2 then s.ip + BitVec.ofNat 32 len else s.reg (BitVec.ofNat 5 k)).toNat := by
  have hlen (u : State) : (u.regs 0 16).length = 16 := State.regs_length u 0 16
  obtain ⟨u, hu⟩ := writeWords_total ((s.advance len).setReg .rip (s.advance len).ip) (s.reg 31)
    (((s.advance len).setReg .rip (s.advance len).ip).regs 0 16) fun k _ =>
      (portRefuses_wordAddr s _ k).trans htaken
  obtain ⟨hmem, -⟩ := writeWords_ok hu
  refine ⟨_, callProc_next.2 ⟨u, hu, rfl⟩, rfl, ?_, ?_, ?_, ?_, fun k hk => ?_⟩
  · rw [hmem]
    simp
  · simp
  · simp [nextFrame_toNat]
  · simp
  · have hk' : k < (((s.advance len).setReg .rip (s.advance len).ip).regs 0 16).length := by
      rwa [hlen]
    have hrip : (0 : Reg) + BitVec.ofNat 5 k = .rip ↔ k = 2 := by
      rw [← BitVec.toNat_inj]
      simp
      omega
    rw [State.valueAt_word]
    refine congrArg BitVec.toNat ((writeWords_load hu (by rw [hlen]; decide) k hk').trans ?_)
    rw [State.regs_getElem, State.setReg_reg]
    simp only [hrip]
    simp

theorem callProc_refused {target : Word} {len : Nat} {s : State}
    (hrefused : s.portRefuses (s.reg 31) .word = true) :
    callProc target (s.advance len) = .refused .misalignedData := by
  have hfp : ((s.advance len).setReg .rip (s.advance len).ip).reg .fp = s.reg 31 := by simp
  refine orRefuse_refused.2 (.inl (writeWords_refused ?_ ?_))
  · rw [State.regs_length]
    decide
  · rw [hfp]
    exact hrefused

/-- What `call` and `callx` are: the call procedure on their target. -/
theorem exec_call_form {i : Instr} {target : Word} {s : State}
    (h : (∃ d : BitVec 22, i = .call d ∧ target = s.ip + BitVec.ofInt 32 (4 * d.toInt)) ∨
      ∃ m, i = .callx m ∧ target = efa s m) :
    ∃ len, lengthOf i = BitVec.ofNat 32 len ∧ exec i s = callProc target (s.advance len) ∧
      scope s i = callScope s := by
  obtain ⟨d, rfl, rfl⟩ | ⟨m, rfl, rfl⟩ := h
  · exact ⟨4, rfl, by rw [← ctrlTarget_eq]; rfl, rfl⟩
  · exact ⟨memLength m, congrArg (BitVec.ofNat 32) (memWords_length _ _ m), rfl, rfl⟩

/-- Settles O57. -/
theorem callBuildsAFrame : Obligations.CallBuildsAFrame := by
  intro i target s hi
  obtain ⟨len, hlength, hexec, hscope⟩ := exec_call_form hi
  rw [hlength]
  constructor
  · intro htaken
    obtain ⟨t, ht, hip, hrip, hpfp, hfp, hsp, hsaved⟩ :=
      callProc_completes (target := target) (len := len) ((accessible_iff s _ .word).1 htaken)
    have hframe := exec_frame i s t (hexec.trans ht)
    rw [hscope] at hframe
    exact ⟨t, hexec.trans ht, hip, hrip, hpfp, hfp, hsp, hsaved, hframe⟩
  · intro hrefused
    exact hexec.trans (callProc_refused ((not_accessible_iff s _ .word).1 hrefused))

/-! ### Return -/

theorem extract_low_three_eq_zero_iff (x : Word) : x.extractLsb' 0 3 = 0 ↔ x.toNat % 8 = 0 := by
  rw [← BitVec.toNat_inj, BitVec.extractLsb'_toNat, Nat.shiftRight_zero]
  rfl

/-- Settles O58. -/
theorem retRestoresAFrame : Obligations.RetRestoresAFrame := by
  refine fun s => ⟨fun hvariant => ?_, fun hvariant => ?_⟩
  · have haligned (k : Nat) :
        s.portRefuses ((s.reg 0 &&& ~~~63#32) + BitVec.ofNat 32 (4 * k)) .word = false := by
      rw [portRefuses_wordAddr]
      refine portRefuses_aligned _ _ _ ?_
      rw [and_not_63_toNat, Width.bytes]
      omega
    obtain ⟨vs, hvs⟩ := readWords_total ((s.advance 4).setReg .fp (s.reg 0 &&& ~~~63#32))
      (s.reg 0 &&& ~~~63#32) 16 fun k _ => haligned k
    obtain ⟨hlength, hwords⟩ := readWords_ok hvs
    have ht := (retProc_next (s := s.advance 4)).2
      ⟨(extract_low_three_eq_zero_iff _).2 hvariant, vs, hvs, rfl⟩
    refine ⟨_, ht, ?_, fun k hk => ?_, rfl, exec_frame .ret s _ ht⟩
    · rw [State.setIp_reg, State.setRegs_reg_other, State.setReg_reg_same]
      · rfl
      · intro k hk h
        have := congrArg BitVec.toNat h
        simp at this
        omega
    · have hreg : (0 : Reg) + BitVec.ofNat 5 k = BitVec.ofNat 5 k := BitVec.zero_add _
      have hk' : k < vs.length := by omega
      rw [State.setIp_reg, ← hreg, State.setRegs_reg _ _ _ k hk' (by omega), (hwords k hk').1,
        State.valueAt_word]
      rfl
  · exact if_pos (bne_iff_ne.2 fun h => hvariant ((extract_low_three_eq_zero_iff _).1 h))

/-! ### Call, then return (R258) -/

theorem mem_window_iff (r : Reg) : r ∈ groupRegs 0 16 ↔ r.toNat < 16 := by
  revert r
  decide

/-- Settles O59: what the call saves (O57) is what the return reloads (O58). -/
theorem callThenRetComesBack : Obligations.CallThenRetComesBack := by
  intro i s hi hfp
  have hform : ∃ target, (∃ d : BitVec 22, i = .call d ∧
      target = s.ip + BitVec.ofInt 32 (4 * d.toInt)) ∨ ∃ m, i = .callx m ∧ target = efa s m := by
    obtain ⟨d, rfl⟩ | ⟨m, rfl⟩ := hi
    · exact ⟨_, .inl ⟨d, rfl, rfl⟩⟩
    · exact ⟨_, .inr ⟨m, rfl, rfl⟩⟩
  obtain ⟨target, hform⟩ := hform
  obtain ⟨t, ht, -, -, hpfp, -, -, hsaved, hcall⟩ :=
    (callBuildsAFrame i target s hform).1 (.inr (by omega))
  obtain ⟨u, hu, hufp, hwindow, huip, hret⟩ := (retRestoresAFrame t).1 (by rw [hpfp]; omega)
  have hframe : t.reg 0 &&& ~~~63#32 = s.reg 31 := by
    rw [← BitVec.toNat_inj, and_not_63_toNat, hpfp]
    omega
  rw [hframe] at hufp hwindow
  have hreload (k : Nat) (hk : k < 16) : u.reg (BitVec.ofNat 5 k) =
      if k = 2 then s.ip + lengthOf i else s.reg (BitVec.ofNat 5 k) :=
    BitVec.eq_of_toNat_eq ((hwindow k hk).trans (hsaved k hk))
  have hrip : u.reg 2 = s.ip + lengthOf i := hreload 2 (by decide)
  refine ⟨t, u, ht, hu, huip.trans hrip, hrip, ?_, hret.ac.trans hcall.ac, hret.pc.trans hcall.pc,
    hret.tc.trans hcall.tc, fun a ha => ?_, fun hport => ?_, hret.lockHeld.trans hcall.lockHeld,
    hret.haltIp.trans hcall.haltIp, hret.params.trans hcall.params⟩
  · intro r hr
    have hne : r ≠ 2 := fun h => hr (h ▸ .head _)
    by_cases hlow : r.toNat < 16
    · have hk : r.toNat ≠ 2 := fun h => hne (BitVec.eq_of_toNat_eq h)
      simpa [hk] using hreload r.toNat hlow
    by_cases hlast : r = 31
    · rw [hlast, hufp]
    have hkept : r ∉ (31 : Reg) :: groupRegs 0 16 := by
      rw [List.mem_cons, mem_window_iff, not_or]
      exact ⟨hlast, hlow⟩
    have hunwritten : r ∉ ([0, 1, 2, 31] : List Reg) := by
      rintro h
      simp only [List.mem_cons, hlast, List.not_mem_nil, or_false] at h
      obtain rfl | rfl | rfl := h <;> exact hlow (by decide)
    exact (hret.regs r hkept).trans (hcall.regs r hunwritten)
  · exact (hret.bytes a List.not_mem_nil).trans (hcall.bytes a ha)
  · exact (hret.port rfl).trans (hcall.port rfl)

end Sys2Proof.Machine
end
